-- ==== Sys2Proof/Word.lean ====
section
/-! DEFINITION. The widths the machine works with (00_scope.md R3, R7). -/

namespace Sys2Proof

/-- One byte of storage. -/
abbrev Byte := BitVec 8

/-- A 16-bit value: an IO register, a palette entry, a halfword in memory. -/
abbrev Half := BitVec 16

/-- A 32-bit value: a register, an address, an instruction word (R3). -/
abbrev Word := BitVec 32

/-- The number of a general register, `R0` to `R15` (R10). -/
abbrev Reg := Fin 16

end Sys2Proof
end

