-- ==== Sys2Proof/Syntax.lean ====
section
/-! DEFINITION. The instructions: one constructor for each row of spec/opcode_table.json (30_encoding.md R101). -/

namespace Sys2Proof

/-- The sixteen values of the condition field (30_encoding.md R97). -/
inductive Cond where
  | eq | ne | cs | cc | mi | pl | vs | vc | hi | ls | ge | lt | gt | le | al | nv
  deriving DecidableEq, Repr

/-- An instruction. Fields carry the names of the formats of R93.
A field the instruction ignores (R101, `ignored_fields`) is kept, so that a decoded word loses no bit. -/
inductive Instr where
  /-- B, format BR (R121). -/
  | b (cond : Cond) (offset24 : BitVec 24)
  /-- BL, format BR (R122). -/
  | bl (cond : Cond) (offset24 : BitVec 24)
  /-- AND with an immediate (R133). -/
  | andImm (cond : Cond) (sBit : Bool) (rn rd : Reg) (rot : BitVec 4) (imm8 : BitVec 8)
  /-- AND with a register (R133). -/
  | andReg (cond : Cond) (sBit : Bool) (rn rd rm : Reg)
  /-- SUB with an immediate (R134). -/
  | subImm (cond : Cond) (sBit : Bool) (rn rd : Reg) (rot : BitVec 4) (imm8 : BitVec 8)
  /-- SUB with a register (R134). -/
  | subReg (cond : Cond) (sBit : Bool) (rn rd rm : Reg)
  /-- ADD with an immediate (R135). -/
  | addImm (cond : Cond) (sBit : Bool) (rn rd : Reg) (rot : BitVec 4) (imm8 : BitVec 8)
  /-- ADD with a register (R135). -/
  | addReg (cond : Cond) (sBit : Bool) (rn rd rm : Reg)
  /-- ORR with an immediate (R136). -/
  | orrImm (cond : Cond) (sBit : Bool) (rn rd : Reg) (rot : BitVec 4) (imm8 : BitVec 8)
  /-- ORR with a register (R136). -/
  | orrReg (cond : Cond) (sBit : Bool) (rn rd rm : Reg)
  /-- MOV with an immediate; the `Rn` field is ignored (R137). -/
  | movImm (cond : Cond) (sBit : Bool) (rnIgnored rd : Reg) (rot : BitVec 4) (imm8 : BitVec 8)
  /-- MOV with a register; the `Rn` field is ignored (R137). -/
  | movReg (cond : Cond) (sBit : Bool) (rnIgnored rd rm : Reg)
  /-- CMP with an immediate; the `Rd` field and the S-bit are ignored (R138). -/
  | cmpImm (cond : Cond) (sBit : Bool) (rn rdIgnored : Reg) (rot : BitVec 4) (imm8 : BitVec 8)
  /-- CMP with a register; the `Rd` field and the S-bit are ignored (R138). -/
  | cmpReg (cond : Cond) (sBit : Bool) (rn rdIgnored rm : Reg)
  /-- TST with an immediate; the `Rd` field is ignored (R139). -/
  | tstImm (cond : Cond) (sBit : Bool) (rn rdIgnored : Reg) (rot : BitVec 4) (imm8 : BitVec 8)
  /-- TST with a register; the `Rd` field is ignored (R139). -/
  | tstReg (cond : Cond) (sBit : Bool) (rn rdIgnored rm : Reg)
  /-- STR, format LS_IMM (R151). -/
  | str (cond : Cond) (uBit : Bool) (rn rd : Reg) (imm12 : BitVec 12)
  /-- LDR, format LS_IMM (R152). -/
  | ldr (cond : Cond) (uBit : Bool) (rn rd : Reg) (imm12 : BitVec 12)
  /-- STRB, format LS_IMM (R154). -/
  | strb (cond : Cond) (uBit : Bool) (rn rd : Reg) (imm12 : BitVec 12)
  /-- LDRB, format LS_IMM (R155). -/
  | ldrb (cond : Cond) (uBit : Bool) (rn rd : Reg) (imm12 : BitVec 12)
  /-- STRH, format LSH_IMM (R166). -/
  | strh (cond : Cond) (uBit : Bool) (rn rd : Reg) (immH immL : BitVec 4)
  /-- LDRH, format LSH_IMM (R167). -/
  | ldrh (cond : Cond) (uBit : Bool) (rn rd : Reg) (immH immL : BitVec 4)
  /-- STM, format STM; the S bit is ignored (R176, R177). -/
  | stm (cond : Cond) (pBit uBit sIgnored wBit : Bool) (rn : Reg) (reglist : BitVec 16)
  /-- SWI, format SWI (R186). -/
  | swi (cond : Cond) (comment : BitVec 24)
  /-- The catch-all row NOP_UNIMPLEMENTED: bits 27:0 of a word on no other row (R195). -/
  | nopUnimplemented (cond : Cond) (rest : BitVec 28)
  deriving DecidableEq, Repr

/-- The condition field, which every format has (R92). -/
def Instr.cond : Instr → Cond
  | .b c _ | .bl c _ => c
  | .andImm c _ _ _ _ _ | .andReg c _ _ _ _ => c
  | .subImm c _ _ _ _ _ | .subReg c _ _ _ _ => c
  | .addImm c _ _ _ _ _ | .addReg c _ _ _ _ => c
  | .orrImm c _ _ _ _ _ | .orrReg c _ _ _ _ => c
  | .movImm c _ _ _ _ _ | .movReg c _ _ _ _ => c
  | .cmpImm c _ _ _ _ _ | .cmpReg c _ _ _ _ => c
  | .tstImm c _ _ _ _ _ | .tstReg c _ _ _ _ => c
  | .str c _ _ _ _ | .ldr c _ _ _ _ => c
  | .strb c _ _ _ _ | .ldrb c _ _ _ _ => c
  | .strh c _ _ _ _ _ | .ldrh c _ _ _ _ _ => c
  | .stm c _ _ _ _ _ _ => c
  | .swi c _ => c
  | .nopUnimplemented c _ => c

end Sys2Proof
end

