-- ==== Sys2Proof/WellFormed.lean ====
section
/-! DEFINITION. Which instruction terms stand for a word of the machine.

The field types bound every operand, so one thing is left to check: that the bits of a
`nopUnimplemented` are on no other row of 30_encoding.md R101. The check is written from the masks of
that table, not from the decoder. -/

namespace Sys2Proof

/-- Mask and match of every row of R101 but the catch-all, bits 27:0 (no row fixes a bit of the
condition field). -/
def instructionRows : List (BitVec 28 × BitVec 28) :=
  [ (0xF000000#28, 0xA000000#28), (0xF000000#28, 0xB000000#28),   -- B, BL
    (0xFE00000#28, 0x2000000#28), (0xFE00FF0#28, 0x0000000#28),   -- AND
    (0xFE00000#28, 0x2400000#28), (0xFE00FF0#28, 0x0400000#28),   -- SUB
    (0xFE00000#28, 0x2800000#28), (0xFE00FF0#28, 0x0800000#28),   -- ADD
    (0xFE00000#28, 0x3800000#28), (0xFE00FF0#28, 0x1800000#28),   -- ORR
    (0xFE00000#28, 0x3A00000#28), (0xFE00FF0#28, 0x1A00000#28),   -- MOV
    (0xFE00000#28, 0x3400000#28), (0xFE00FF0#28, 0x1400000#28),   -- CMP
    (0xFE00000#28, 0x3000000#28), (0xFE00FF0#28, 0x1000000#28),   -- TST
    (0xF700000#28, 0x5000000#28), (0xF700000#28, 0x5100000#28),   -- STR, LDR
    (0xF700000#28, 0x5400000#28), (0xF700000#28, 0x5500000#28),   -- STRB, LDRB
    (0xF7000F0#28, 0x14000B0#28), (0xF7000F0#28, 0x15000B0#28),   -- STRH, LDRH
    (0xE100000#28, 0x8000000#28), (0xF000000#28, 0xF000000#28) ]  -- STM, SWI

/-- No row but the catch-all takes these bits (R195). -/
def onNoRow (rest : BitVec 28) : Bool :=
  instructionRows.all fun row => rest &&& row.1 != row.2

/-- The instruction stands for a word: a no-op's bits are on no other row, and every other
constructor's fields are the word's own fields. -/
def Instr.wf : Instr → Bool
  | .b _ _ | .bl _ _ => true
  | .andImm _ _ _ _ _ _ | .andReg _ _ _ _ _ => true
  | .subImm _ _ _ _ _ _ | .subReg _ _ _ _ _ => true
  | .addImm _ _ _ _ _ _ | .addReg _ _ _ _ _ => true
  | .orrImm _ _ _ _ _ _ | .orrReg _ _ _ _ _ => true
  | .movImm _ _ _ _ _ _ | .movReg _ _ _ _ _ => true
  | .cmpImm _ _ _ _ _ _ | .cmpReg _ _ _ _ _ => true
  | .tstImm _ _ _ _ _ _ | .tstReg _ _ _ _ _ => true
  | .str _ _ _ _ _ | .ldr _ _ _ _ _ => true
  | .strb _ _ _ _ _ | .ldrb _ _ _ _ _ => true
  | .strh _ _ _ _ _ _ | .ldrh _ _ _ _ _ _ => true
  | .stm _ _ _ _ _ _ _ => true
  | .swi _ _ => true
  | .nopUnimplemented _ rest => onNoRow rest

end Sys2Proof
end

