-- ==== Sys2Proof/Decode.lean ====
section
/-! DEFINITION. From bytes and words to instructions and back (30_encoding.md R90 to R101), and the
byte-order helpers every other file uses (20_memory.md R44). -/

namespace Sys2Proof

/-! ## Byte order (R44) -/

/-- The 16-bit value of two bytes, the one at the lower address first. -/
def le16 (b0 b1 : Byte) : Half := b1 ++ b0

/-- The 32-bit value of four bytes, in increasing address order. -/
def le32 (b0 b1 b2 b3 : Byte) : Word := b3 ++ b2 ++ b1 ++ b0

/-- Byte `i` of a value: bits `8i+7` to `8i`. -/
def byteOf {n : Nat} (v : BitVec n) (i : Nat) : Byte := v.extractLsb' (8 * i) 8

/-- The low half of a word. -/
def lowHalf (v : Word) : Half := v.extractLsb' 0 16

/-- The high half of a word. -/
def highHalf (v : Word) : Half := v.extractLsb' 16 16

/-- A word as the four bytes it occupies in memory. -/
def wordBytes (w : Word) : List Byte := [byteOf w 0, byteOf w 1, byteOf w 2, byteOf w 3]

/-! ## Fields -/

/-- The condition named by bits 31:28 (R97). -/
def Cond.ofBits (b : BitVec 4) : Cond :=
  match b.toNat with
  | 0 => .eq
  | 1 => .ne
  | 2 => .cs
  | 3 => .cc
  | 4 => .mi
  | 5 => .pl
  | 6 => .vs
  | 7 => .vc
  | 8 => .hi
  | 9 => .ls
  | 10 => .ge
  | 11 => .lt
  | 12 => .gt
  | 13 => .le
  | 14 => .al
  | _ => .nv

/-- Bits 31:28 of a condition (R97). -/
def Cond.bits : Cond → BitVec 4
  | .eq => 0b0000#4
  | .ne => 0b0001#4
  | .cs => 0b0010#4
  | .cc => 0b0011#4
  | .mi => 0b0100#4
  | .pl => 0b0101#4
  | .vs => 0b0110#4
  | .vc => 0b0111#4
  | .hi => 0b1000#4
  | .ls => 0b1001#4
  | .ge => 0b1010#4
  | .lt => 0b1011#4
  | .gt => 0b1100#4
  | .le => 0b1101#4
  | .al => 0b1110#4
  | .nv => 0b1111#4

/-- The register a 4-bit field selects (R92). -/
def regOfBits (b : BitVec 4) : Reg := ⟨b.toNat, b.isLt⟩

/-- The 4-bit field that selects a register (R92). -/
def regBits (r : Reg) : BitVec 4 := BitVec.ofNat 4 r.val

/-- The field of `w` that starts at bit `lo` and is `n` bits wide. -/
def field (w : Word) (lo n : Nat) : BitVec n := w.extractLsb' lo n

/-- A one-bit field. -/
def flagAt (w : Word) (i : Nat) : Bool := field w i 1 == 1#1

/-- The register field of `w` that starts at bit `lo`. -/
def regAt (w : Word) (lo : Nat) : Reg := regOfBits (field w lo 4)

/-! ## Decoding -/

/-- The catch-all row: every word no other row takes (R195). -/
def decodeNop (c : Cond) (w : Word) : Instr := .nopUnimplemented c (field w 0 28)

/-- The immediate forms of the data-processing class, by opcode (R100). -/
def decodeDataImm (c : Cond) (w : Word) : Instr :=
  let sBit := flagAt w 20
  let rn := regAt w 16
  let rd := regAt w 12
  let rot := field w 8 4
  let imm8 := field w 0 8
  let opcode := field w 21 4
  if opcode = 0b0000#4 then .andImm c sBit rn rd rot imm8
  else if opcode = 0b0010#4 then .subImm c sBit rn rd rot imm8
  else if opcode = 0b0100#4 then .addImm c sBit rn rd rot imm8
  else if opcode = 0b1000#4 then .tstImm c sBit rn rd rot imm8
  else if opcode = 0b1010#4 then .cmpImm c sBit rn rd rot imm8
  else if opcode = 0b1100#4 then .orrImm c sBit rn rd rot imm8
  else if opcode = 0b1101#4 then .movImm c sBit rn rd rot imm8
  else decodeNop c w

/-- The register forms of the data-processing class, by opcode (R100). -/
def decodeDataReg (c : Cond) (w : Word) : Instr :=
  let sBit := flagAt w 20
  let rn := regAt w 16
  let rd := regAt w 12
  let rm := regAt w 0
  let opcode := field w 21 4
  if opcode = 0b0000#4 then .andReg c sBit rn rd rm
  else if opcode = 0b0010#4 then .subReg c sBit rn rd rm
  else if opcode = 0b0100#4 then .addReg c sBit rn rd rm
  else if opcode = 0b1000#4 then .tstReg c sBit rn rd rm
  else if opcode = 0b1010#4 then .cmpReg c sBit rn rd rm
  else if opcode = 0b1100#4 then .orrReg c sBit rn rd rm
  else if opcode = 0b1101#4 then .movReg c sBit rn rd rm
  else decodeNop c w

/-- The word and byte transfers, by the B and L bits (R93, format LS_IMM). -/
def decodeTransfer (c : Cond) (w : Word) : Instr :=
  let uBit := flagAt w 23
  let rn := regAt w 16
  let rd := regAt w 12
  let imm12 := field w 0 12
  match flagAt w 22, flagAt w 20 with
  | false, false => .str c uBit rn rd imm12
  | false, true => .ldr c uBit rn rd imm12
  | true, false => .strb c uBit rn rd imm12
  | true, true => .ldrb c uBit rn rd imm12

/-- The halfword transfers, by the L bit (R93, format LSH_IMM). -/
def decodeHalfword (c : Cond) (w : Word) : Instr :=
  match flagAt w 20 with
  | false => .strh c (flagAt w 23) (regAt w 16) (regAt w 12) (field w 8 4) (field w 0 4)
  | true => .ldrh c (flagAt w 23) (regAt w 16) (regAt w 12) (field w 8 4) (field w 0 4)

/-- The instruction a word stands for: the classification of R99 by bits 27:25 and the further
conditions of its rows. Every word decodes; the condition field is a field like any other, and what an
unassigned condition does is the business of execution (R97). -/
def decodeWord (w : Word) : Instr :=
  let c := Cond.ofBits (field w 28 4)
  let cls := field w 25 3
  if cls = 0b101#3 then
    match flagAt w 24 with
    | false => .b c (field w 0 24)
    | true => .bl c (field w 0 24)
  else if cls = 0b001#3 then decodeDataImm c w
  else if cls = 0b000#3 then
    if field w 4 8 = 0#8 then decodeDataReg c w
    else if flagAt w 24 && flagAt w 22 && !flagAt w 21 && field w 4 4 == 0b1011#4 then
      decodeHalfword c w
    else decodeNop c w
  else if cls = 0b010#3 then
    if flagAt w 24 && !flagAt w 21 then decodeTransfer c w else decodeNop c w
  else if cls = 0b100#3 then
    match flagAt w 20 with
    | false =>
      .stm c (flagAt w 24) (flagAt w 23) (flagAt w 22) (flagAt w 21) (regAt w 16) (field w 0 16)
    | true => decodeNop c w
  else if field w 24 4 = 0b1111#4 then .swi c (field w 0 24)
  else decodeNop c w

/-- Why a list of bytes gives no instruction. -/
inductive DecodeError where
  /-- Fewer than the four bytes of an instruction word (R91). -/
  | truncated
  deriving DecidableEq, Repr

/-- The instruction at the front of a list of bytes, and the bytes after it (R91: every instruction is
one little-endian 32-bit word). -/
def decode : List Byte → Except DecodeError (Instr × List Byte)
  | b0 :: b1 :: b2 :: b3 :: rest => .ok (decodeWord (le32 b0 b1 b2 b3), rest)
  | _ => .error .truncated

/-- What the decoder reads from an instruction whose bits are `w`, laid out as memory holds them; bits
from `nbits` up are 0. -/
def decodeTableWord (nbits w : Nat) : Option Instr :=
  match decode (wordBytes (BitVec.ofNat 32 (w % 2 ^ nbits))) with
  | .ok (i, _) => some i
  | .error _ => none

/-! ## Encoding -/

/-- A field put at bit `lo` of a word. -/
def place {n : Nat} (v : BitVec n) (lo : Nat) : Word := v.setWidth 32 <<< lo

/-- A one-bit field put at a bit of a word. -/
def placeFlag (b : Bool) (i : Nat) : Word := place (BitVec.ofBool b) i

/-- A register field put at bit `lo` of a word. -/
def placeReg (r : Reg) (lo : Nat) : Word := place (regBits r) lo

/-- Format BR (R93). -/
def formatBr (c : Cond) (lBit : Bool) (offset24 : BitVec 24) : Word :=
  place c.bits 28 ||| place 0b101#3 25 ||| placeFlag lBit 24 ||| place offset24 0

/-- Format DP_IMM (R93). -/
def formatDpImm (c : Cond) (opcode : BitVec 4) (sBit : Bool) (rn rd : Reg) (rot : BitVec 4)
    (imm8 : BitVec 8) : Word :=
  place c.bits 28 ||| place 0b001#3 25 ||| place opcode 21 ||| placeFlag sBit 20 |||
    placeReg rn 16 ||| placeReg rd 12 ||| place rot 8 ||| place imm8 0

/-- Format DP_REG (R93). -/
def formatDpReg (c : Cond) (opcode : BitVec 4) (sBit : Bool) (rn rd rm : Reg) : Word :=
  place c.bits 28 ||| place 0b000#3 25 ||| place opcode 21 ||| placeFlag sBit 20 |||
    placeReg rn 16 ||| placeReg rd 12 ||| place 0#8 4 ||| placeReg rm 0

/-- Format LS_IMM with P = 1 and W = 0 (R93). -/
def formatLsImm (c : Cond) (uBit bBit lBit : Bool) (rn rd : Reg) (imm12 : BitVec 12) : Word :=
  place c.bits 28 ||| place 0b010#3 25 ||| placeFlag true 24 ||| placeFlag uBit 23 |||
    placeFlag bBit 22 ||| placeFlag false 21 ||| placeFlag lBit 20 |||
    placeReg rn 16 ||| placeReg rd 12 ||| place imm12 0

/-- Format LSH_IMM with P = 1, bit 22 = 1 and W = 0 (R93). -/
def formatLshImm (c : Cond) (uBit lBit : Bool) (rn rd : Reg) (immH immL : BitVec 4) : Word :=
  place c.bits 28 ||| place 0b000#3 25 ||| placeFlag true 24 ||| placeFlag uBit 23 |||
    placeFlag true 22 ||| placeFlag false 21 ||| placeFlag lBit 20 |||
    placeReg rn 16 ||| placeReg rd 12 ||| place immH 8 ||| place 0b1011#4 4 ||| place immL 0

/-- Format STM (R93). -/
def formatStm (c : Cond) (pBit uBit sIgnored wBit : Bool) (rn : Reg) (reglist : BitVec 16) : Word :=
  place c.bits 28 ||| place 0b100#3 25 ||| placeFlag pBit 24 ||| placeFlag uBit 23 |||
    placeFlag sIgnored 22 ||| placeFlag wBit 21 ||| placeFlag false 20 |||
    placeReg rn 16 ||| place reglist 0

/-- Format SWI (R93). -/
def formatSwi (c : Cond) (comment : BitVec 24) : Word :=
  place c.bits 28 ||| place 0b1111#4 24 ||| place comment 0

/-- A word of the catch-all row (R101). -/
def formatAny (c : Cond) (rest : BitVec 28) : Word := place c.bits 28 ||| place rest 0

/-- The word of an instruction, from the formats of R93 and the opcode values of R100. -/
def encode : Instr → Word
  | .b c off => formatBr c false off
  | .bl c off => formatBr c true off
  | .andImm c s rn rd rot imm => formatDpImm c 0b0000#4 s rn rd rot imm
  | .andReg c s rn rd rm => formatDpReg c 0b0000#4 s rn rd rm
  | .subImm c s rn rd rot imm => formatDpImm c 0b0010#4 s rn rd rot imm
  | .subReg c s rn rd rm => formatDpReg c 0b0010#4 s rn rd rm
  | .addImm c s rn rd rot imm => formatDpImm c 0b0100#4 s rn rd rot imm
  | .addReg c s rn rd rm => formatDpReg c 0b0100#4 s rn rd rm
  | .orrImm c s rn rd rot imm => formatDpImm c 0b1100#4 s rn rd rot imm
  | .orrReg c s rn rd rm => formatDpReg c 0b1100#4 s rn rd rm
  | .movImm c s rn rd rot imm => formatDpImm c 0b1101#4 s rn rd rot imm
  | .movReg c s rn rd rm => formatDpReg c 0b1101#4 s rn rd rm
  | .cmpImm c s rn rd rot imm => formatDpImm c 0b1010#4 s rn rd rot imm
  | .cmpReg c s rn rd rm => formatDpReg c 0b1010#4 s rn rd rm
  | .tstImm c s rn rd rot imm => formatDpImm c 0b1000#4 s rn rd rot imm
  | .tstReg c s rn rd rm => formatDpReg c 0b1000#4 s rn rd rm
  | .str c u rn rd imm => formatLsImm c u false false rn rd imm
  | .ldr c u rn rd imm => formatLsImm c u false true rn rd imm
  | .strb c u rn rd imm => formatLsImm c u true false rn rd imm
  | .ldrb c u rn rd imm => formatLsImm c u true true rn rd imm
  | .strh c u rn rd immH immL => formatLshImm c u false rn rd immH immL
  | .ldrh c u rn rd immH immL => formatLshImm c u true rn rd immH immL
  | .stm c p u s w rn list => formatStm c p u s w rn list
  | .swi c comment => formatSwi c comment
  | .nopUnimplemented c rest => formatAny c rest

/-- The bytes of an instruction in memory (R91). -/
def encodeBytes (i : Instr) : List Byte := wordBytes (encode i)

end Sys2Proof
end

