-- ==== Sys2Proof/Config.lean ====
section
/-! DEFINITION. The parameters the spec leaves open (00_scope.md R4), as plain data.

A machine carries its parameters in its state (`State.cfg`) and no step changes them, so a statement about
every state is a statement about every value of every parameter. -/

namespace Sys2Proof

/-- The open parameters of 00_scope.md R4, one field each.
`ROM`, which R4 also lists, is state: `loadRom` replaces it (R301). -/
structure Config where
  /-- `BIOS`: absent, or an image of 1 to 0x4000 bytes (D26). -/
  bios : Option (List Byte)
  /-- `ENTRY_ADDRESS`: where the first instruction is fetched from (D17, R292). -/
  entryAddress : Word
  /-- `CPSR_RESET` (D16). -/
  cpsrReset : Word
  /-- `REG_RESET[0..14]` (D16). -/
  regReset : Vector Word 15
  /-- `CYCLES(w)` for every word that `cyclesListed` does not list (D15). -/
  cyclesElse : Nat
  /-- `CYCLES(w)` for the listed words: a function of the word, as plain data (D15). -/
  cyclesListed : List (Word × Nat)
  /-- `H_CYCLES`, cycles per scanline (D28). -/
  hCycles : Nat
  /-- `HBLANK_CYCLES`, the tail of a scanline in which the H-blank bit is set (D28). -/
  hblankCycles : Nat
  /-- `FRAME_CYCLES`, the budget of one host tick (D36). -/
  frameCycles : Nat
  /-- `KEYINPUT_RESET` (D24). -/
  keyinputReset : Half
  /-- `UNMAPPED_READ` (D19). -/
  unmappedRead : Word
  /-- `ROM_SENTINEL8` (D20). -/
  romSentinel8 : Byte
  /-- `SWI_CPUSET`, the service number of the block copy/fill service (D13). -/
  swiCpuset : Byte
  deriving DecidableEq, Repr

/-- `ENTRY_ADDRESS` where no other value is given (R292, D17). -/
def Config.entryDefault (bios : Option (List Byte)) : Word :=
  if bios.isSome then 0x00000000#32 else 0x08000000#32

/-- The default of every parameter (R4, third column), for a given BIOS image. -/
def Config.defaultWith (bios : Option (List Byte)) : Config where
  bios := bios
  entryAddress := Config.entryDefault bios
  cpsrReset := 0x000000D3#32
  regReset := Vector.replicate 15 0#32
  cyclesElse := 1
  cyclesListed := []
  hCycles := 1232
  hblankCycles := 272
  frameCycles := 228 * 1232
  keyinputReset := 0x03FF#16
  unmappedRead := 0#32
  romSentinel8 := 0xFF#8
  swiCpuset := 0x0B#8

/-- Every parameter at its default: no BIOS image, entry at the first ROM address (R4). -/
def Config.default : Config := Config.defaultWith none

/-- The constraints R4 puts on the parameters. -/
def Config.wf (c : Config) : Bool :=
  (match c.bios with
    | none => true
    | some image => decide (1 ≤ image.length ∧ image.length ≤ 0x4000)) &&
  decide (c.entryAddress.extractLsb' 0 2 = 0#2) &&
  decide (c.cpsrReset.extractLsb' 30 2 = 0#2) &&
  decide (1 ≤ c.cyclesElse) && c.cyclesListed.all (fun e => decide (1 ≤ e.2)) &&
  decide (1 ≤ c.hCycles) && decide (c.hblankCycles < c.hCycles) &&
  decide (1 ≤ c.frameCycles)

end Sys2Proof
end

