-- ==== Sys2Proof/Machine/Memory.lean ====
section
/-! DEFINITION. The writable memory of the machine: a list of (address, byte) pairs in one canonical form
(10_state.md R20, 20_memory.md R44).

A byte of a region stands under the address it has in the region's first image (20_memory.md R40), so
that a mirror of an address and the address itself name one cell. The ROM image and the BIOS image are
not here: neither is writable (R53). -/

namespace Sys2Proof.Machine

/-- Writable memory as cells: addresses strictly rising, no cell equal to what an unlisted address
reads as. -/
abbrev Memory := List Host.Cell

/-- What an address no cell lists reads as: the contents at reset (10_state.md R35) with `KEYINPUT_RESET`
at its default. Every byte is 0 but the low byte of DISPSTAT (0x0004) and the two of KEYINPUT (0x03FF). -/
def Memory.unlisted (address : Nat) : Byte :=
  if address = 0x04000004 then 0x04#8
  else if address = 0x04000130 then 0xFF#8
  else if address = 0x04000131 then 0x03#8
  else 0x00#8

/-- The byte at an address. -/
def Memory.read : Memory → Nat → Byte
  | [], address => Memory.unlisted address
  | (a, b) :: rest, address => if a = address then b else Memory.read rest address

/-- The memory without a cell for an address. -/
def Memory.erase (m : Memory) (address : Nat) : Memory :=
  m.filter fun cell => cell.1 != address

/-- The memory with the cell for an address set, at its place in the order. -/
def Memory.insert : Memory → Nat → Byte → Memory
  | [], address, v => [(address, v)]
  | (a, b) :: rest, address, v =>
    if a < address then (a, b) :: Memory.insert rest address v
    else if a = address then (address, v) :: rest
    else (address, v) :: (a, b) :: rest

/-- Store one byte. Storing what an unlisted address reads as removes the cell. -/
def Memory.write (m : Memory) (address : Nat) (v : Byte) : Memory :=
  if v = Memory.unlisted address then m.erase address else m.insert address v

/-- The addresses that have a cell: the first image of each writable region (R20, R40). -/
def isStorage (address : Nat) : Bool :=
  decide (0x02000000 ≤ address ∧ address < 0x02040000) ||
  decide (0x03000000 ≤ address ∧ address < 0x03008000) ||
  decide (0x04000000 ≤ address ∧ address < 0x04000400) ||
  decide (0x05000000 ≤ address ∧ address < 0x05000400) ||
  decide (0x06000000 ≤ address ∧ address < 0x06018000) ||
  decide (0x07000000 ≤ address ∧ address < 0x07000400)

/-- Addresses strictly rising. -/
def Memory.rising : Memory → Bool
  | [] => true
  | [_] => true
  | (a, _) :: (a', b') :: rest => decide (a < a') && Memory.rising ((a', b') :: rest)

/-- The canonical form: addresses strictly rising, each an address of storage, and no cell equal to
what its address reads as unlisted. -/
def Memory.wf (m : Memory) : Bool :=
  m.rising && m.all fun cell => isStorage cell.1 && cell.2 != Memory.unlisted cell.1

end Sys2Proof.Machine
end

