-- ==== Sys2Proof/Machine/State.lean ====
section
/-! DEFINITION. The state of the machine (10_state.md) and the ways a step can stop. -/

namespace Sys2Proof.Machine

/-- One colour of the palette cache: an RGB888 triple (R21). -/
structure Rgb where
  r : Byte
  g : Byte
  b : Byte
  deriving DecidableEq, Repr

/-- One pixel of the frame buffer, RGBA8888 (R31). -/
structure Pixel where
  r : Byte
  g : Byte
  b : Byte
  a : Byte
  deriving DecidableEq, Repr

/-- The 240 pixels of one line of the frame buffer (R31). -/
abbrev Row := Vector Pixel 240

/-- The state of the machine. -/
structure State where
  /-- The open parameters (00_scope.md R4); no step changes them. -/
  cfg : Config
  /-- `R[0]` to `R[15]`. `R[15]` holds the address of the next instruction plus 8 (R10, R13). -/
  regs : Vector Word 16
  /-- `CPSR`: N is bit 31, Z is bit 30 (R17). -/
  cpsr : Word
  /-- EWRAM, IWRAM, the IO block, palette RAM, VRAM and OAM (R20). -/
  mem : Memory
  /-- The cartridge ROM image, absent until `loadRom` (R20, R301). -/
  rom : Option (List Byte)
  /-- `PaletteCache` (R21). -/
  paletteCache : Vector Rgb 512
  /-- `currentScanline`, 0 to 227 (R30). -/
  currentScanline : Fin 228
  /-- `cyclesToNextHBlank`, the cycles left in the current scanline (R30). -/
  cyclesToNextHBlank : Int
  /-- `lastRenderedLine`, the last scanline flushed to the frame buffer (R30). -/
  lastRenderedLine : Fin 228
  /-- `m.DISPCNT`, the Ppu's mirror that rendering reads (R30). -/
  mDispcnt : Half
  /-- `m.DISPSTAT` (R30). -/
  mDispstat : Half
  /-- `m.VCOUNT` (R30). -/
  mVcount : Half
  /-- `m.BG0CNT` to `m.BG3CNT`, the mirrors that rendering reads (R30). -/
  mBgcnt : Vector Half 4
  /-- `PixelBuffer`: 160 rows of 240 pixels (R31). -/
  pixels : Vector Row 160
  deriving DecidableEq, Repr

/-- The faults of the machine: there are none. "No exception ever propagates out of `CpuCore.step()` or
`Ppu.advance()`" (60_exceptions.md R260), so no step can end in a fault. -/
inductive Fault where
  deriving DecidableEq, Repr

/-- Why a step has no meaning. -/
inductive Refusal where
  /-- Raised by `exec` alone, for an instruction without a meaning yet. Safe: nothing is claimed of it. -/
  | notModelled (mnemonic : String)
  /-- Raised by every instruction whose condition field is one of the eleven values that "reads carry or
  overflow, which are not modelled (or, for NV, is reserved)" (R97, U1). Safe: the spec defines no step. -/
  | unassignedCondition (cond : Cond)
  /-- Raised by STM with `Rn = 15` and `W = 1` (44_block_transfer.md R179, U2). Safe: the spec defines no
  step. -/
  | stmWritebackToR15
  /-- Raised by a Bus write of a DMA transfer that would start a transfer of the named channel inside it
  (48_dma.md R248, U3). Safe: the spec defines no step. -/
  | nestedDmaTransfer (channel : Fin 4)
  deriving DecidableEq, Repr

/-- What a sub-step of an instruction answers. -/
abbrev Result := Host.Outcome State Fault Refusal

/-- The machine right after construction with the given parameters (10_state.md R34, R35;
70_reset_and_hazards.md R300). -/
def State.construct (cfg : Config) : State where
  cfg := cfg
  regs := cfg.regReset.push (cfg.entryAddress + 8#32)
  cpsr := cfg.cpsrReset
  mem := (Memory.write [] 0x04000130 (byteOf cfg.keyinputReset 0)).write 0x04000131
    (byteOf cfg.keyinputReset 1)
  rom := none
  paletteCache := Vector.replicate 512 ⟨0, 0, 0⟩
  currentScanline := 0
  cyclesToNextHBlank := cfg.hCycles
  lastRenderedLine := 0
  mDispcnt := 0#16
  mDispstat := 0x0004#16
  mVcount := 0#16
  mBgcnt := Vector.replicate 4 0#16
  pixels := Vector.replicate 160 (Vector.replicate 240 ⟨0, 0, 0, 0xFF⟩)

/-- The machine right after construction, every open parameter at its default (R4, R35): no BIOS image,
no ROM, `R[15] = 0x08000008`, `CPSR = 0x000000D3`, memory with nothing listed. -/
def State.reset : State := State.construct Config.default

end Sys2Proof.Machine
end

