-- ==== Sys2Proof/Machine/Ops.lean ====
section
/-! DEFINITION. The named operations over registers, the program counter and memory, and the reads of the
Bus (10_state.md R10 to R16, 20_memory.md R40 to R59). The writes of the Bus run the Ppu and the
DmaController before they return, so they stand in Machine/Bus.lean and Machine/Dma.lean, after them.

The machine takes no exception and has no return from one (60_exceptions.md R260, R266, R267), so no
operation here enters or leaves a handler. -/

namespace Sys2Proof.Machine

/-- Go on with `k` if the first part of an instruction answered a next state. -/
def andThen (r : Result) (k : State → Result) : Result :=
  match r with
  | .next s => k s
  | .fault f => .fault f
  | .refused e => .refused e

/-! ## Registers and the program counter -/

/-- `R[i]`. For `i = 15` this is the instruction address plus 8 (R13, R16). -/
def State.reg (s : State) (i : Reg) : Word := s.regs[i.val]

/-- `R[i] <- v`. -/
def State.setReg (s : State) (i : Reg) (v : Word) : State := { s with regs := s.regs.set i.val v }

/-- `A`, the address of the instruction the next step fetches; also the PC of the debug port (R13, R275). -/
def State.instrAddr (s : State) : Word := s.reg 15 - 8#32

/-- The default advance, `R[15] <- R[15] + 4` (R14). -/
def State.advancePc (s : State) : State := s.setReg 15 (s.reg 15 + 4#32)

/-- `NextInstr(T)`: the only way an instruction writes `R[15]`; it takes the place of the default
advance (R15). -/
def State.nextInstr (s : State) (target : Word) : State :=
  s.setReg 15 ((target &&& 0xFFFFFFFC#32) + 8#32)

/-- The result of an instruction goes to `Rd`, and the step moves on: a write of `R15` is a redirection, a
write of any other register is followed by the default advance (R14, R132, R141, R153). -/
def State.writeRd (s : State) (rd : Reg) (v : Word) : State :=
  if rd = 15 then s.nextInstr v else (s.setReg rd v).advancePc

/-! ## Address decode -/

/-- The regions of the address map (R40). -/
inductive Region where
  | bios | ewram | iwram | io | pal | vram | oam | rom
  deriving DecidableEq, Repr

/-- The base address of a region (R40). -/
def Region.base : Region → Nat
  | .bios => 0x00000000
  | .ewram => 0x02000000
  | .iwram => 0x03000000
  | .io => 0x04000000
  | .pal => 0x05000000
  | .vram => 0x06000000
  | .oam => 0x07000000
  | .rom => 0x08000000

/-- The capacity of a region in bytes; for the ROM, the size of its window (R20, R3). -/
def Region.capacity : Region → Nat
  | .bios => 0x4000
  | .ewram => 0x40000
  | .iwram => 0x8000
  | .io => 0x400
  | .pal => 0x400
  | .vram => 0x18000
  | .oam => 0x400
  | .rom => 0x2000000

/-- The region of a page, `addr[31:24]` (R40). -/
def pageRegion (page : BitVec 8) : Option Region :=
  if page = 0x00#8 then some .bios
  else if page = 0x02#8 then some .ewram
  else if page = 0x03#8 then some .iwram
  else if page = 0x04#8 then some .io
  else if page = 0x05#8 then some .pal
  else if page = 0x06#8 then some .vram
  else if page = 0x07#8 then some .oam
  else if page = 0x08#8 ∨ page = 0x09#8 then some .rom
  else none

/-- The offset an address has in the region of its page: BIOS and IO do not wrap, and beyond their
capacity there is nothing; the RAM regions wrap; the ROM's offset is reduced by the length of the image
where it is read (R41). -/
def regionOffset (r : Region) (addr : Word) : Option Nat :=
  let off := addr.toNat - r.base
  match r with
  | .bios | .io => if off < r.capacity then some off else none
  | .ewram | .iwram | .pal | .vram | .oam => some (off % r.capacity)
  | .rom => some off

/-- The region and the offset of an address, or nothing where it is unmapped (R40, R41, R42). -/
def decodeAddr (addr : Word) : Option (Region × Nat) :=
  match pageRegion (addr.extractLsb' 24 8) with
  | none => none
  | some r =>
    match regionOffset r addr with
    | none => none
    | some o => some (r, o)

/-- The cell of writable memory behind an address, if it has one (R40, R53). -/
def cellOf (addr : Word) : Option Nat :=
  match decodeAddr addr with
  | some (.bios, _) | some (.rom, _) | none => none
  | some (.ewram, o) => some (Region.base .ewram + o)
  | some (.iwram, o) => some (Region.base .iwram + o)
  | some (.io, o) => some (Region.base .io + o)
  | some (.pal, o) => some (Region.base .pal + o)
  | some (.vram, o) => some (Region.base .vram + o)
  | some (.oam, o) => some (Region.base .oam + o)

/-- The address a halfword access is made at: bit 0 cleared (R45). -/
def align2 (addr : Word) : Word := addr &&& 0xFFFFFFFE#32

/-- The address a word access is made at: bits 1:0 cleared (R45). -/
def align4 (addr : Word) : Word := addr &&& 0xFFFFFFFC#32

/-! ## Cells and IO registers -/

/-- Store one byte at an address of storage. -/
def State.setByte (s : State) (address : Nat) (v : Byte) : State :=
  { s with mem := s.mem.write address v }

/-- `IO16[o]`: the IO block read directly, without the Bus (00_scope.md R8). -/
def State.io16 (s : State) (o : Nat) : Half :=
  le16 (s.mem.read (0x04000000 + o)) (s.mem.read (0x04000000 + o + 1))

/-- `IO16[o] <- v`: the IO block written directly, without observers (00_scope.md R8). -/
def State.setIo16 (s : State) (o : Nat) (v : Half) : State :=
  (s.setByte (0x04000000 + o) (byteOf v 0)).setByte (0x04000000 + o + 1) (byteOf v 1)

/-- `PAL16[2i]`, the palette entry of index `i` (R57). -/
def State.pal16 (s : State) (i : Nat) : Half :=
  le16 (s.mem.read (0x05000000 + 2 * i)) (s.mem.read (0x05000000 + 2 * i + 1))

/-- `Expand(c)`: BGR-555 to RGB888 (R58). -/
def expand (c : Half) : Rgb :=
  let widen (v : BitVec 5) : Byte := (v.setWidth 8 <<< 3) ||| (v.setWidth 8 >>> 2)
  ⟨widen (c.extractLsb' 0 5), widen (c.extractLsb' 5 5), widen (c.extractLsb' 10 5)⟩

/-- Bring the cache entry of index `i` up to date with palette RAM (R58). -/
def State.refreshPalette (s : State) (i : Nat) : State :=
  { s with paletteCache := s.paletteCache.setIfInBounds i (expand (s.pal16 i)) }

/-! ## Reads of the Bus -/

/-- Byte `i` of the BIOS image; 0 beyond its end or without an image (R46, R47, R52). -/
def State.biosByte (s : State) (i : Nat) : Byte :=
  match s.cfg.bios with
  | none => 0#8
  | some image => image.getD i 0#8

/-- Byte `i` counted from a ROM offset, through the wrap by the image's length (R54). -/
def romByte (image : List Byte) (off i : Nat) : Byte := image.getD (off % image.length + i) 0#8

/-- The ROM image, where `n` bytes from the wrapped offset lie inside it (R55). -/
def State.romCovers (s : State) (off n : Nat) : Option (List Byte) :=
  match s.rom with
  | none => none
  | some image => if off % image.length + n ≤ image.length then some image else none

/-- The byte of a region other than the ROM at an offset. -/
def State.regionByte (s : State) (r : Region) (o : Nat) : Byte :=
  match r with
  | .bios => s.biosByte o
  | .ewram | .iwram | .io | .pal | .vram | .oam | .rom => s.mem.read (r.base + o)

/-- `Bus.read8` (R46). -/
def State.read8 (s : State) (addr : Word) : Byte :=
  match decodeAddr addr with
  | none => s.cfg.unmappedRead.setWidth 8
  | some (.rom, o) =>
    match s.romCovers o 1 with
    | none => s.cfg.romSentinel8
    | some image => romByte image o 0
  | some (r, o) => s.regionByte r o

/-- `Bus.read16` (R47). -/
def State.read16 (s : State) (addr : Word) : Half :=
  match decodeAddr (align2 addr) with
  | none => s.cfg.unmappedRead.setWidth 16
  | some (.rom, o) =>
    match s.romCovers o 2 with
    | none => 0xFFFF#16
    | some image => le16 (romByte image o 0) (romByte image o 1)
  | some (r, o) => le16 (s.regionByte r o) (s.regionByte r (o + 1))

/-- `Bus.read32` (R48). -/
def State.read32 (s : State) (addr : Word) : Word :=
  match decodeAddr (align4 addr) with
  | none => s.cfg.unmappedRead
  | some (.rom, o) =>
    match s.romCovers o 4 with
    | none => 0xDEADBEEF#32
    | some image =>
      le32 (romByte image o 0) (romByte image o 1) (romByte image o 2) (romByte image o 3)
  | some (r, o) =>
    le32 (s.regionByte r o) (s.regionByte r (o + 1)) (s.regionByte r (o + 2)) (s.regionByte r (o + 3))

/-! ## Time -/

/-- `CYCLES(w)`, the cycles an instruction word consumes (00_scope.md R4, R312). -/
def cyclesOf (cfg : Config) (w : Word) : Nat := (cfg.cyclesListed.lookup w).getD cfg.cyclesElse

end Sys2Proof.Machine
end

