-- ==== Sys2Proof/Machine/Ppu.lean ====
section
/-! DEFINITION. The Ppu: scanline timing, deferred rendering, the rasterizers and the observer of IO writes
(47_ppu.md). -/

namespace Sys2Proof.Machine

/-! ## Status -/

/-- `StatusBits()`: V-count match, H-blank, V-blank (R202). -/
def State.statusBits (s : State) : BitVec 3 :=
  BitVec.ofBool (decide (s.currentScanline.val = ((s.io16 0x004).extractLsb' 8 8).toNat)) ++
  BitVec.ofBool (decide (s.cyclesToNextHBlank ≤ s.cfg.hblankCycles)) ++
  BitVec.ofBool (decide (160 ≤ s.currentScanline.val))

/-- The current scanline as the value of VCOUNT (R25). -/
def State.vcount (s : State) : Half := BitVec.ofNat 16 s.currentScanline.val

/-- DISPSTAT with its three status bits recomputed (R203). -/
def State.dispstat (s : State) : Half := (s.io16 0x004).extractLsb' 3 13 ++ s.statusBits

/-- `RefreshStatus()` (R203). -/
def State.refreshStatus (s : State) : State :=
  { (s.setIo16 0x004 s.dispstat).setIo16 0x006 s.vcount with
    mDispstat := s.dispstat, mVcount := s.vcount }

/-! ## Rasterizers -/

/-- The address of a byte of VRAM, as the Ppu reads it through the Bus (R200). -/
def vramAddr (offset : Nat) : Word := BitVec.ofNat 32 (0x06000000 + offset)

/-- A colour as a pixel: alpha is always 0xFF (R216). -/
def Rgb.opaquePixel (c : Rgb) : Pixel := ⟨c.r, c.g, c.b, 0xFF#8⟩

/-- The cached colour of a background palette index (R21). -/
def State.colour (s : State) (index : BitVec 8) : Rgb :=
  s.paletteCache[index.toNat]'(by have := index.isLt; omega)

/-- A line of the backdrop colour, palette entry 0 (R215). -/
def State.backdropRow (s : State) : Row := Vector.replicate 240 (s.colour 0#8).opaquePixel

/-- `renderMode3`: the bitmap (R219). -/
def State.mode3Row (s : State) (line : Nat) : Row :=
  Vector.ofFn fun x : Fin 240 =>
    (expand (s.read16 (vramAddr ((line * 240 + x.val) * 2)))).opaquePixel

/-- `TilePixel`: the palette index of one pixel of a tile (R222). -/
def State.tilePixel (s : State) (charBase tile : Nat) (bpp8 : Bool) (tx ty : Nat) : Byte :=
  if bpp8 then s.read8 (vramAddr (charBase + tile * 64 + ty * 8 + tx))
  else
    let pair := s.read8 (vramAddr (charBase + tile * 32 + ty * 4 + tx / 2))
    if tx % 2 = 1 then 0#4 ++ pair.extractLsb' 4 4 else 0#4 ++ pair.extractLsb' 0 4

/-- The colour layer `n` has at column `x` of a line, or nothing where it is transparent (R221). -/
def State.layerColour (s : State) (n : Fin 4) (line x : Nat) : Option Rgb :=
  let cnt := s.mBgcnt[n.val]
  let charBase := (cnt.extractLsb' 2 2).toNat * 0x4000
  let screenBase := (cnt.extractLsb' 8 5).toNat * 0x800
  let bpp8 := cnt.getLsbD 7
  let entry := s.read16 (vramAddr (screenBase + (line / 8 * 32 + x / 8) * 2))
  let tile := (entry.extractLsb' 0 10).toNat
  let bank := entry.extractLsb' 12 4
  let tx := if entry.getLsbD 10 then 7 - x % 8 else x % 8
  let ty := if entry.getLsbD 11 then 7 - line % 8 else line % 8
  let index := s.tilePixel charBase tile bpp8 tx ty
  if index = 0#8 then none
  else some (s.colour (if bpp8 then index else bank ++ index.extractLsb' 0 4))

/-- `renderBgLine(n, line)` over the pixels drawn so far (R221). -/
def State.paintLayer (s : State) (n : Fin 4) (line : Nat) (row : Row) : Row :=
  Vector.ofFn fun x : Fin 240 =>
    match s.layerColour n line x.val with
    | none => row[x.val]
    | some c => c.opaquePixel

/-- One layer of mode 0, drawn where its enable bit is set (R220). -/
def State.paintLayerIf (s : State) (n : Fin 4) (line : Nat) (row : Row) : Row :=
  if s.mDispcnt.getLsbD (8 + n.val) then s.paintLayer n line row else row

/-- `renderMode0`: the layers 3, 2, 1, 0 over the backdrop, in that order (R220). -/
def State.mode0Row (s : State) (line : Nat) : Row :=
  s.paintLayerIf 0 line <| s.paintLayerIf 1 line <| s.paintLayerIf 2 line <|
    s.paintLayerIf 3 line s.backdropRow

/-- The pixels `renderScanLine(line)` leaves in a line (R215, R217, R223). -/
def State.renderedRow (s : State) (line : Nat) : Row :=
  if s.mDispcnt.getLsbD 7 then s.backdropRow
  else if s.mDispcnt.extractLsb' 0 3 = 3#3 then s.mode3Row line
  else if s.mDispcnt.extractLsb' 0 3 = 0#3 then s.mode0Row line
  else s.backdropRow

/-- `renderScanLine(line)` (R215, R216). -/
def State.renderScanLine (s : State) (line : Fin 160) : State :=
  { s with pixels := s.pixels.set line.val (s.renderedRow line.val) }

/-! ## Deferred rendering -/

/-- Render `n` scanlines from `line` on, wrapping from 227 to 0; the lines of the vertical blank show
nothing (R210). -/
def State.renderLines : Nat → Fin 228 → State → State
  | 0, _, s => s
  | n + 1, line, s =>
    if h : line.val < 160 then State.renderLines n (line + 1) (s.renderScanLine ⟨line.val, h⟩)
    else State.renderLines n (line + 1) s

/-- How many scanlines a flush covers (R210). -/
def State.flushCount (s : State) (lap : Bool) : Nat :=
  let elapsed := (s.currentScanline - s.lastRenderedLine).val
  if elapsed = 0 ∧ lap = true then 228 else elapsed

/-- `flushRenderQueue(lap)` (R210). -/
def State.flushRenderQueue (s : State) (lap : Bool) : State :=
  { State.renderLines (s.flushCount lap) (s.lastRenderedLine + 1) s with
    lastRenderedLine := s.currentScanline }

/-- `Ppu.onIoWrite(o, v)` (R211, R212, R213). -/
def State.ppuOnIoWrite (s : State) (o : Nat) (v : Half) : State :=
  if o = 0x000 then { s.flushRenderQueue false with mDispcnt := v }
  else if o = 0x008 then { s.flushRenderQueue false with mBgcnt := s.mBgcnt.set 0 v }
  else if o = 0x00A then { s.flushRenderQueue false with mBgcnt := s.mBgcnt.set 1 v }
  else if o = 0x00C then { s.flushRenderQueue false with mBgcnt := s.mBgcnt.set 2 v }
  else if o = 0x00E then { s.flushRenderQueue false with mBgcnt := s.mBgcnt.set 3 v }
  else if o = 0x004 then s.refreshStatus
  else if o = 0x006 then s.refreshStatus
  else s

/-! ## Time -/

/-- The end of a scanline: the budget is reloaded, the next line begins, and entering line 160 flushes a
complete frame (R206, R209). -/
def State.endScanline (s : State) : State :=
  let s1 := { s with
    cyclesToNextHBlank := s.cyclesToNextHBlank + s.cfg.hCycles
    currentScanline := s.currentScanline + 1 }
  let s2 := s1.refreshStatus
  if s2.currentScanline = 160 then s2.flushRenderQueue true else s2

/-- The loop of `advance`: scanlines end while no cycle is left. The first argument bounds the passes. -/
def State.endScanlines : Nat → State → State
  | 0, s => s
  | n + 1, s => if s.cyclesToNextHBlank ≤ 0 then State.endScanlines n s.endScanline else s

/-- `Ppu.advance(c)` (R206). With `H_CYCLES ≥ 1`, as R4 requires, the loop ends before its bound: each pass
adds at least 1 to a budget that lies `1 - budget` below 1. -/
def State.advance (s : State) (c : Nat) : State :=
  let s1 := { s with cyclesToNextHBlank := s.cyclesToNextHBlank - c }
  (State.endScanlines (1 - s1.cyclesToNextHBlank).toNat s1).refreshStatus

end Sys2Proof.Machine
end

