-- ==== Sys2Proof/Machine/Bus.lean ====
section
/-! DEFINITION. The writes of the Bus, up to what a write that triggers a DMA transfer does, which is an
argument here: outside a transfer it runs the transfer, inside one it has no meaning (20_memory.md R49 to
R53, R60 to R63; 48_dma.md R241, R248). -/

namespace Sys2Proof.Machine

/-- The offset of DMA channel `n`'s register window in the IO block (10_state.md R29). -/
def dmaWindow (n : Fin 4) : Nat := 0x0B0 + 12 * n.val

/-- The offset of DMAnCNT_H (10_state.md R29). -/
def dmaControl (n : Fin 4) : Nat := dmaWindow n + 10

/-- The channel whose control register is at an offset (R241). -/
def dmaChannelAt (o : Nat) : Option (Fin 4) :=
  if o = dmaControl 0 then some 0
  else if o = dmaControl 1 then some 1
  else if o = dmaControl 2 then some 2
  else if o = dmaControl 3 then some 3
  else none

/-- The channel a halfword written to an IO offset starts, if it starts one (R241). -/
def dmaTrigger (o : Nat) (v : Half) : Option (Fin 4) :=
  if v.getLsbD 15 then dmaChannelAt o else none

/-- The part of an IO write that always succeeds: the store, then the Ppu observer (R61, R63). -/
def State.ioStore (s : State) (o : Nat) (v : Half) : State := (s.setIo16 o v).ppuOnIoWrite o v

/-- `IoWrite16(o, v)`: store, Ppu observer, DmaController observer (R61, R62, R63). -/
def ioWrite16With (onTrigger : Fin 4 → State → Result) (o : Nat) (v : Half) (s : State) : Result :=
  match dmaTrigger o v with
  | none => .next (s.ioStore o v)
  | some n => onTrigger n (s.ioStore o v)

/-- The IO halfword a byte write makes: the byte merged into its register (R49). -/
def State.mergedIo (s : State) (o : Nat) (v : Byte) : Half :=
  let old := s.io16 (o - o % 2)
  if o % 2 = 1 then v ++ byteOf old 0 else byteOf old 1 ++ v

/-- One byte stored in palette RAM, with its cache entry (R49, R58). -/
def State.palStore8 (s : State) (o : Nat) (v : Byte) : State :=
  (s.setByte (0x05000000 + o) v).refreshPalette (o / 2)

/-- One halfword stored in palette RAM, with its cache entry (R50, R58). -/
def State.palStore16 (s : State) (o : Nat) (v : Half) : State :=
  ((s.setByte (0x05000000 + o) (byteOf v 0)).setByte (0x05000000 + o + 1) (byteOf v 1)).refreshPalette
    (o / 2)

/-- One halfword stored in a plain region (R50, R56). -/
def State.ramStore16 (s : State) (r : Region) (o : Nat) (v : Half) : State :=
  (s.setByte (r.base + o) (byteOf v 0)).setByte (r.base + o + 1) (byteOf v 1)

/-- `Bus.write8` (R49). -/
def write8With (onTrigger : Fin 4 → State → Result) (addr : Word) (v : Byte) (s : State) : Result :=
  match decodeAddr addr with
  | none | some (.bios, _) | some (.rom, _) => .next s
  | some (.ewram, o) => .next (s.setByte (Region.base .ewram + o) v)
  | some (.iwram, o) => .next (s.setByte (Region.base .iwram + o) v)
  | some (.vram, o) => .next (s.setByte (Region.base .vram + o) v)
  | some (.oam, o) => .next (s.setByte (Region.base .oam + o) v)
  | some (.pal, o) => .next (s.palStore8 o v)
  | some (.io, o) => ioWrite16With onTrigger (o - o % 2) (s.mergedIo o v) s

/-- `Bus.write16` (R50). -/
def write16With (onTrigger : Fin 4 → State → Result) (addr : Word) (v : Half) (s : State) : Result :=
  match decodeAddr (align2 addr) with
  | none | some (.bios, _) | some (.rom, _) => .next s
  | some (.ewram, o) => .next (s.ramStore16 .ewram o v)
  | some (.iwram, o) => .next (s.ramStore16 .iwram o v)
  | some (.vram, o) => .next (s.ramStore16 .vram o v)
  | some (.oam, o) => .next (s.ramStore16 .oam o v)
  | some (.pal, o) => .next (s.palStore16 o v)
  | some (.io, o) => ioWrite16With onTrigger o v s

/-- `Bus.write32`: the low half, then the high half (R51). -/
def write32With (onTrigger : Fin 4 → State → Result) (addr : Word) (v : Word) (s : State) : Result :=
  andThen (write16With onTrigger (align4 addr) (lowHalf v) s)
    (write16With onTrigger (align4 addr + 2#32) (highHalf v))

/-! ## Units: the 16-bit or 32-bit elements that a DMA transfer and the SWI service move -/

/-- The size of a unit in bytes (R187, R242). -/
def unitSize (wide : Bool) : Word := if wide then 4#32 else 2#32

/-- Read one unit (R187, R244). -/
def State.readUnit (s : State) (wide : Bool) (addr : Word) : Word :=
  if wide then s.read32 addr else (s.read16 addr).setWidth 32

/-- Write one unit (R187, R244). -/
def writeUnitWith (onTrigger : Fin 4 → State → Result) (wide : Bool) (addr v : Word) (s : State) : Result :=
  if wide then write32With onTrigger addr v s else write16With onTrigger addr (lowHalf v) s

/-- Copy `n` units in ascending order, each read immediately before its write (R187, R188, R244). -/
def copyUnitsWith (onTrigger : Fin 4 → State → Result) (wide : Bool) : Nat → Word → Word → State → Result
  | 0, _, _, s => .next s
  | n + 1, src, dst, s =>
    andThen (writeUnitWith onTrigger wide dst (s.readUnit wide src) s)
      (copyUnitsWith onTrigger wide n (src + unitSize wide) (dst + unitSize wide))

/-- Write one value to `n` units in ascending order (R187). -/
def fillUnitsWith (onTrigger : Fin 4 → State → Result) (wide : Bool) (v : Word) : Nat → Word → State → Result
  | 0, _, s => .next s
  | n + 1, dst, s =>
    andThen (writeUnitWith onTrigger wide dst v s)
      (fillUnitsWith onTrigger wide v n (dst + unitSize wide))

end Sys2Proof.Machine
end

