-- ==== Sys2Proof/Machine/Dma.lean ====
section
/-! DEFINITION. The DmaController (48_dma.md), and with it the Bus writes an instruction makes. -/

namespace Sys2Proof.Machine

/-- A trigger inside a transfer has no meaning (R248, U3). -/
def nestedTrigger (n : Fin 4) (_ : State) : Result := .refused (.nestedDmaTransfer n)

/-- DMAnSAD, as a transfer reads it through the Bus (R242). -/
def State.dmaSource (s : State) (n : Fin 4) : Word :=
  s.read32 (BitVec.ofNat 32 (0x04000000 + dmaWindow n))

/-- DMAnDAD, as a transfer reads it through the Bus (R242). -/
def State.dmaDest (s : State) (n : Fin 4) : Word :=
  s.read32 (BitVec.ofNat 32 (0x04000000 + dmaWindow n + 4))

/-- The number of units of a transfer: a count of 0 means 16384 (R242). -/
def State.dmaCount (s : State) (n : Fin 4) : Nat :=
  let cnt := s.read16 (BitVec.ofNat 32 (0x04000000 + dmaWindow n + 8))
  if cnt = 0#16 then 16384 else cnt.toNat

/-- The unit size of a transfer: bit 10 of the control word (R242). -/
def State.dmaWide (s : State) (n : Fin 4) : Bool :=
  (s.read16 (BitVec.ofNat 32 (0x04000000 + dmaWindow n + 10))).getLsbD 10

/-- `ClearEnable(n)`: bit 15 of DMAnCNT_H cleared, directly, without observers (R246). -/
def State.dmaClearEnable (s : State) (n : Fin 4) : State :=
  s.setIo16 (dmaControl n) (s.io16 (dmaControl n) &&& 0x7FFF#16)

/-- `RunTransfer(n)`: the four parameters sampled once, the units moved, the enable bit cleared
(R242, R244, R246). -/
def runTransfer (n : Fin 4) (s : State) : Result :=
  andThen (copyUnitsWith nestedTrigger (s.dmaWide n) (s.dmaCount n) (s.dmaSource n) (s.dmaDest n) s)
    fun t => .next (t.dmaClearEnable n)

/-- `MemWrite(addr, 1, v)` of an instruction (00_scope.md R8, 20_memory.md R49). -/
def write8 (addr : Word) (v : Byte) (s : State) : Result := write8With runTransfer addr v s

/-- `MemWrite(addr, 2, v)` of an instruction (00_scope.md R8, 20_memory.md R50). -/
def write16 (addr : Word) (v : Half) (s : State) : Result := write16With runTransfer addr v s

/-- `MemWrite(addr, 4, v)` of an instruction (00_scope.md R8, 20_memory.md R51). -/
def write32 (addr : Word) (v : Word) (s : State) : Result := write32With runTransfer addr v s

end Sys2Proof.Machine
end

