-- ==== Sys2Proof/Machine/Flags.lean ====
section
/-! DEFINITION. The flags: how N and Z are set (10_state.md R18) and what reads them (30_encoding.md R97). -/

namespace Sys2Proof.Machine

/-- N, bit 31 of the status register (R17). -/
def flagN (cpsr : Word) : Bool := cpsr.getLsbD 31

/-- Z, bit 30 of the status register (R17). -/
def flagZ (cpsr : Word) : Bool := cpsr.getLsbD 30

/-- The status register after `SetNZ(v)`: bits 29:0 stay (R18). -/
def nzCpsr (cpsr v : Word) : Word :=
  BitVec.ofBool (v.getLsbD 31) ++ BitVec.ofBool (v == 0#32) ++ cpsr.extractLsb' 0 30

/-- `SetNZ(v)` (R18). -/
def State.setNZ (s : State) (v : Word) : State := { s with cpsr := nzCpsr s.cpsr v }

/-- `SetNZ(v)` where the encoding asks for it (R132). -/
def State.setNZIf (s : State) (sBit : Bool) (v : Word) : State := if sBit then s.setNZ v else s

/-- `CondPassed(cond)`: nothing for the eleven values without a meaning (R97, U1). -/
def condPassed (c : Cond) (cpsr : Word) : Option Bool :=
  match c with
  | .al => some true
  | .eq => some (flagZ cpsr)
  | .ne => some (!flagZ cpsr)
  | .mi => some (flagN cpsr)
  | .pl => some (!flagN cpsr)
  | .cs | .cc | .vs | .vc | .hi | .ls | .ge | .lt | .gt | .le | .nv => none

/-- An instruction under its condition: its body where the condition holds, the default advance alone where
it does not, a refusal where the condition has no meaning (R97, R98). -/
def whenPassed (c : Cond) (s : State) (body : Result) : Result :=
  match condPassed c s.cpsr with
  | none => .refused (.unassignedCondition c)
  | some false => .next s.advancePc
  | some true => body

end Sys2Proof.Machine
end

