-- ==== Sys2Proof/Machine/Operands.lean ====
section
/-! DEFINITION. Every operand form (30_encoding.md R94 to R96). -/

namespace Sys2Proof.Machine

/-- The offset of a branch: `sext_32(offset24 :: 0b00)` (R94). -/
def branchOffset (offset24 : BitVec 24) : Word := (offset24 ++ 0b00#2).signExtend 32

/-- `ROR(v, n)` (00_scope.md R7). -/
def ror (v : Word) (n : Nat) : Word := v.rotateRight n

/-- Operand 2 of a DP_IMM: `ROR(zext_32(imm8), 2 × rot)` (R95). -/
def immOperand (rot : BitVec 4) (imm8 : BitVec 8) : Word := ror (imm8.setWidth 32) (2 * rot.toNat)

/-- The effective address of a single transfer: the offset added when `U = 1`, subtracted when
`U = 0` (R96, R150, R165). -/
def effectiveAddr (base : Word) (uBit : Bool) (offset : Word) : Word :=
  if uBit then base + offset else base - offset

/-- The effective address of format LS_IMM (R150). -/
def State.lsAddr (s : State) (uBit : Bool) (rn : Reg) (imm12 : BitVec 12) : Word :=
  effectiveAddr (s.reg rn) uBit (imm12.setWidth 32)

/-- The effective address of format LSH_IMM, with the offset split in two (R165). -/
def State.lshAddr (s : State) (uBit : Bool) (rn : Reg) (immH immL : BitVec 4) : Word :=
  effectiveAddr (s.reg rn) uBit ((immH ++ immL).setWidth 32)

/-- The registers an STM lists, in ascending order (R96, R176). -/
def listedRegs (reglist : BitVec 16) : List Reg :=
  (List.finRange 16).filter fun i => reglist.getLsbD i.val

/-- The number of bytes an STM stores: 4 for each listed register (R176). -/
def stmBytes (reglist : BitVec 16) : Word := BitVec.ofNat 32 (4 * (listedRegs reglist).length)

/-- The first address an STM stores to: IA, IB, DA, DB by P and U (R176). -/
def stmStart (base : Word) (pBit uBit : Bool) (reglist : BitVec 16) : Word :=
  match pBit, uBit with
  | false, true => base
  | true, true => base + 4#32
  | false, false => base - stmBytes reglist + 4#32
  | true, false => base - stmBytes reglist

/-- The value an STM writes back: up by the bytes stored when `U = 1`, down when `U = 0` (R176). -/
def stmWriteback (base : Word) (uBit : Bool) (reglist : BitVec 16) : Word :=
  if uBit then base + stmBytes reglist else base - stmBytes reglist

end Sys2Proof.Machine
end

