-- ==== Sys2Proof/Machine/BlockTransfer.lean ====
section
/-! DEFINITION. STM (44_block_transfer.md). -/

namespace Sys2Proof.Machine

/-- The stores of an STM: the listed registers to ascending addresses (R176). -/
def storeRegs : List Reg → Word → State → Result
  | [], _, s => .next s
  | r :: rest, addr, s => andThen (write32 addr (s.reg r) s) (storeRegs rest (addr + 4#32))

/-- The write-back of an STM, after all stores (R176, R177). -/
def State.writeBackIf (s : State) (wBit : Bool) (rn : Reg) (v : Word) : State :=
  if wBit then s.setReg rn v else s

/-- STM; with `Rn = 15` and write-back it has no meaning (R176, R177, R178, R179, U2). -/
def execStm (c : Cond) (pBit uBit wBit : Bool) (rn : Reg) (reglist : BitVec 16) (s : State) : Result :=
  whenPassed c s
    (if wBit = true ∧ rn = 15 then .refused .stmWritebackToR15
     else
      andThen (storeRegs (listedRegs reglist) (stmStart (s.reg rn) pBit uBit reglist) s) fun t =>
        .next (t.writeBackIf wBit rn (stmWriteback (s.reg rn) uBit reglist)).advancePc)

end Sys2Proof.Machine
end

