-- ==== Sys2Proof/Machine/Branch.lean ====
section
/-! DEFINITION. B and BL (40_branch.md). -/

namespace Sys2Proof.Machine

/-- The target of a branch, `A + 8 + offset` (R121, R122). -/
def State.branchTarget (s : State) (offset24 : BitVec 24) : Word :=
  s.instrAddr + 8#32 + branchOffset offset24

/-- B (R121). -/
def execB (c : Cond) (offset24 : BitVec 24) (s : State) : Result :=
  whenPassed c s (.next (s.nextInstr (s.branchTarget offset24)))

/-- BL: the return address `A + 4` goes to `R[14]` (R122). -/
def execBl (c : Cond) (offset24 : BitVec 24) (s : State) : Result :=
  whenPassed c s
    (.next ((s.setReg 14 (s.instrAddr + 4#32)).nextInstr (s.branchTarget offset24)))

end Sys2Proof.Machine
end

