-- ==== Sys2Proof/Machine/DataProcessing.lean ====
section
/-! DEFINITION. AND, SUB, ADD, ORR, MOV, CMP and TST (41_data_processing.md). Operands are read before
anything is written (R131). -/

namespace Sys2Proof.Machine

/-- `DPWrite(v)`: the flags if the S-bit asks for them, then the result (R132, R141). -/
def State.dpWrite (s : State) (sBit : Bool) (rd : Reg) (v : Word) : State :=
  (s.setNZIf sBit v).writeRd rd v

/-- AND, immediate (R133). -/
def execAndImm (c : Cond) (sBit : Bool) (rn rd : Reg) (rot : BitVec 4) (imm8 : BitVec 8) (s : State) :
    Result :=
  whenPassed c s (.next (s.dpWrite sBit rd (s.reg rn &&& immOperand rot imm8)))

/-- AND, register (R133). -/
def execAndReg (c : Cond) (sBit : Bool) (rn rd rm : Reg) (s : State) : Result :=
  whenPassed c s (.next (s.dpWrite sBit rd (s.reg rn &&& s.reg rm)))

/-- SUB, immediate (R134). -/
def execSubImm (c : Cond) (sBit : Bool) (rn rd : Reg) (rot : BitVec 4) (imm8 : BitVec 8) (s : State) :
    Result :=
  whenPassed c s (.next (s.dpWrite sBit rd (s.reg rn - immOperand rot imm8)))

/-- SUB, register (R134). -/
def execSubReg (c : Cond) (sBit : Bool) (rn rd rm : Reg) (s : State) : Result :=
  whenPassed c s (.next (s.dpWrite sBit rd (s.reg rn - s.reg rm)))

/-- ADD, immediate (R135). -/
def execAddImm (c : Cond) (sBit : Bool) (rn rd : Reg) (rot : BitVec 4) (imm8 : BitVec 8) (s : State) :
    Result :=
  whenPassed c s (.next (s.dpWrite sBit rd (s.reg rn + immOperand rot imm8)))

/-- ADD, register (R135). -/
def execAddReg (c : Cond) (sBit : Bool) (rn rd rm : Reg) (s : State) : Result :=
  whenPassed c s (.next (s.dpWrite sBit rd (s.reg rn + s.reg rm)))

/-- ORR, immediate (R136). -/
def execOrrImm (c : Cond) (sBit : Bool) (rn rd : Reg) (rot : BitVec 4) (imm8 : BitVec 8) (s : State) :
    Result :=
  whenPassed c s (.next (s.dpWrite sBit rd (s.reg rn ||| immOperand rot imm8)))

/-- ORR, register (R136). -/
def execOrrReg (c : Cond) (sBit : Bool) (rn rd rm : Reg) (s : State) : Result :=
  whenPassed c s (.next (s.dpWrite sBit rd (s.reg rn ||| s.reg rm)))

/-- MOV, immediate; the `Rn` field is ignored (R137). -/
def execMovImm (c : Cond) (sBit : Bool) (rd : Reg) (rot : BitVec 4) (imm8 : BitVec 8) (s : State) : Result :=
  whenPassed c s (.next (s.dpWrite sBit rd (immOperand rot imm8)))

/-- MOV, register; the `Rn` field is ignored (R137). -/
def execMovReg (c : Cond) (sBit : Bool) (rd rm : Reg) (s : State) : Result :=
  whenPassed c s (.next (s.dpWrite sBit rd (s.reg rm)))

/-- CMP, immediate: the flags whatever the S-bit; the `Rd` field is ignored (R138). -/
def execCmpImm (c : Cond) (rn : Reg) (rot : BitVec 4) (imm8 : BitVec 8) (s : State) : Result :=
  whenPassed c s (.next (s.setNZ (s.reg rn - immOperand rot imm8)).advancePc)

/-- CMP, register: the flags whatever the S-bit; the `Rd` field is ignored (R138). -/
def execCmpReg (c : Cond) (rn rm : Reg) (s : State) : Result :=
  whenPassed c s (.next (s.setNZ (s.reg rn - s.reg rm)).advancePc)

/-- TST, immediate: the flags only with the S-bit; the `Rd` field is ignored (R139). -/
def execTstImm (c : Cond) (sBit : Bool) (rn : Reg) (rot : BitVec 4) (imm8 : BitVec 8) (s : State) : Result :=
  whenPassed c s (.next (s.setNZIf sBit (s.reg rn &&& immOperand rot imm8)).advancePc)

/-- TST, register: the flags only with the S-bit; the `Rd` field is ignored (R139). -/
def execTstReg (c : Cond) (sBit : Bool) (rn rm : Reg) (s : State) : Result :=
  whenPassed c s (.next (s.setNZIf sBit (s.reg rn &&& s.reg rm)).advancePc)

end Sys2Proof.Machine
end

