-- ==== Sys2Proof/Machine/LoadStore.lean ====
section
/-! DEFINITION. LDR, STR, LDRB, STRB, LDRH and STRH (42_load_store.md, 43_load_store_halfword.md). The base
register is never modified (R150, R165). -/

namespace Sys2Proof.Machine

/-- The end of a store: the default advance, once the Bus write has returned (R62, R98). -/
def thenAdvance (r : Result) : Result := andThen r fun t => .next t.advancePc

/-- STR (R151). -/
def execStr (c : Cond) (uBit : Bool) (rn rd : Reg) (imm12 : BitVec 12) (s : State) : Result :=
  whenPassed c s (thenAdvance (write32 (s.lsAddr uBit rn imm12) (s.reg rd) s))

/-- LDR: the aligned word, unrotated; into R15 it is a jump (R152, R153). -/
def execLdr (c : Cond) (uBit : Bool) (rn rd : Reg) (imm12 : BitVec 12) (s : State) : Result :=
  whenPassed c s (.next (s.writeRd rd (s.read32 (s.lsAddr uBit rn imm12))))

/-- STRB (R154). -/
def execStrb (c : Cond) (uBit : Bool) (rn rd : Reg) (imm12 : BitVec 12) (s : State) : Result :=
  whenPassed c s (thenAdvance (write8 (s.lsAddr uBit rn imm12) (byteOf (s.reg rd) 0) s))

/-- LDRB: zero-extended (R153, R155). -/
def execLdrb (c : Cond) (uBit : Bool) (rn rd : Reg) (imm12 : BitVec 12) (s : State) : Result :=
  whenPassed c s (.next (s.writeRd rd ((s.read8 (s.lsAddr uBit rn imm12)).setWidth 32)))

/-- STRH (R166). -/
def execStrh (c : Cond) (uBit : Bool) (rn rd : Reg) (immH immL : BitVec 4) (s : State) : Result :=
  whenPassed c s (thenAdvance (write16 (s.lshAddr uBit rn immH immL) (lowHalf (s.reg rd)) s))

/-- LDRH: zero-extended (R153, R167). -/
def execLdrh (c : Cond) (uBit : Bool) (rn rd : Reg) (immH immL : BitVec 4) (s : State) : Result :=
  whenPassed c s (.next (s.writeRd rd ((s.read16 (s.lshAddr uBit rn immH immL)).setWidth 32)))

end Sys2Proof.Machine
end

