-- ==== Sys2Proof/Machine/SoftwareInterrupt.lean ====
section
/-! DEFINITION. SWI and its block copy/fill service (45_software_interrupt.md). SWI is no exception here: it
saves nothing and transfers control nowhere (R185, R262). -/

namespace Sys2Proof.Machine

/-- The number of units, `ctl[20:0]` (R187). -/
def serviceCount (ctl : Word) : Nat := (ctl.extractLsb' 0 21).toNat

/-- Fill or copy, `ctl[24]` (R187). -/
def serviceFill (ctl : Word) : Bool := ctl.getLsbD 24

/-- 32-bit or 16-bit units, `ctl[26]` (R187). -/
def serviceWide (ctl : Word) : Bool := ctl.getLsbD 26

/-- `BlockCopyFill()`: R0 is the source, R1 the destination, R2 the control word. A fill of no units makes
no Bus access (R187, R188). -/
def blockCopyFill (s : State) : Result :=
  let src := s.reg 0
  let dst := s.reg 1
  let ctl := s.reg 2
  let wide := serviceWide ctl
  if serviceFill ctl then
    fillUnitsWith runTransfer wide (s.readUnit wide src) (serviceCount ctl) dst s
  else copyUnitsWith runTransfer wide (serviceCount ctl) src dst s

/-- SWI: the service where comment bits 23:16 select it, else nothing (R186, R189). -/
def execSwi (c : Cond) (comment : BitVec 24) (s : State) : Result :=
  whenPassed c s
    (thenAdvance (if comment.extractLsb' 16 8 = s.cfg.swiCpuset then blockCopyFill s else .next s))

end Sys2Proof.Machine
end

