-- ==== Sys2Proof/Machine/Unimplemented.lean ====
section
/-! DEFINITION. Every other instruction word (46_unimplemented_nop.md). -/

namespace Sys2Proof.Machine

/-- The silent no-op: the default advance and nothing else. A condition without a meaning is refused
first (R195, R97). -/
def execNopUnimplemented (c : Cond) (s : State) : Result := whenPassed c s (.next s.advancePc)

end Sys2Proof.Machine
end

