-- ==== Sys2Proof/Machine/Dispatch.lean ====
section
/-! DEFINITION. Which meaning each instruction has: one arm for each constructor. -/

namespace Sys2Proof.Machine

def exec (i : Instr) (s : State) : Host.Outcome State Fault Refusal :=
  match i with
  | .b c offset24 => Sys2Proof.Machine.execB c offset24 s
  | .bl c offset24 => Sys2Proof.Machine.execBl c offset24 s
  | .andImm c sBit rn rd rot imm8 => Sys2Proof.Machine.execAndImm c sBit rn rd rot imm8 s
  | .andReg c sBit rn rd rm => Sys2Proof.Machine.execAndReg c sBit rn rd rm s
  | .subImm c sBit rn rd rot imm8 => Sys2Proof.Machine.execSubImm c sBit rn rd rot imm8 s
  | .subReg c sBit rn rd rm => Sys2Proof.Machine.execSubReg c sBit rn rd rm s
  | .addImm c sBit rn rd rot imm8 => Sys2Proof.Machine.execAddImm c sBit rn rd rot imm8 s
  | .addReg c sBit rn rd rm => Sys2Proof.Machine.execAddReg c sBit rn rd rm s
  | .orrImm c sBit rn rd rot imm8 => Sys2Proof.Machine.execOrrImm c sBit rn rd rot imm8 s
  | .orrReg c sBit rn rd rm => Sys2Proof.Machine.execOrrReg c sBit rn rd rm s
  | .movImm c sBit _ rd rot imm8 => Sys2Proof.Machine.execMovImm c sBit rd rot imm8 s
  | .movReg c sBit _ rd rm => Sys2Proof.Machine.execMovReg c sBit rd rm s
  | .cmpImm c _ rn _ rot imm8 => Sys2Proof.Machine.execCmpImm c rn rot imm8 s
  | .cmpReg c _ rn _ rm => Sys2Proof.Machine.execCmpReg c rn rm s
  | .tstImm c sBit rn _ rot imm8 => Sys2Proof.Machine.execTstImm c sBit rn rot imm8 s
  | .tstReg c sBit rn _ rm => Sys2Proof.Machine.execTstReg c sBit rn rm s
  | .str c uBit rn rd imm12 => Sys2Proof.Machine.execStr c uBit rn rd imm12 s
  | .ldr c uBit rn rd imm12 => Sys2Proof.Machine.execLdr c uBit rn rd imm12 s
  | .strb c uBit rn rd imm12 => Sys2Proof.Machine.execStrb c uBit rn rd imm12 s
  | .ldrb c uBit rn rd imm12 => Sys2Proof.Machine.execLdrb c uBit rn rd imm12 s
  | .strh c uBit rn rd immH immL => Sys2Proof.Machine.execStrh c uBit rn rd immH immL s
  | .ldrh c uBit rn rd immH immL => Sys2Proof.Machine.execLdrh c uBit rn rd immH immL s
  | .stm c pBit uBit _ wBit rn reglist => Sys2Proof.Machine.execStm c pBit uBit wBit rn reglist s
  | .swi c comment => Sys2Proof.Machine.execSwi c comment s
  | .nopUnimplemented c _ => Sys2Proof.Machine.execNopUnimplemented c s

end Sys2Proof.Machine
end

