-- ==== Sys2Proof/Machine/Fetch.lean ====
section
/-! DEFINITION. Fetching an instruction word (30_encoding.md R98, 20_memory.md R72), and placing one where
the fetch will find it. -/

namespace Sys2Proof.Machine

/-- The word at `A = R[15] - 8`, as it is in memory at this moment (R72, R98). -/
def State.fetch (s : State) : Word := s.read32 s.instrAddr

/-- Byte `j` of a list, and 0 beyond its end. -/
def byteAt (bytes : List Byte) (j : Nat) : Byte := bytes.getD j 0#8

/-- An image with the four bytes of a word at an offset, extended with zeros if it is too short. -/
def patchImage (image : List Byte) (o : Nat) (w : Word) : List Byte :=
  (List.range (max image.length (o + 4))).map fun j =>
    if o ≤ j ∧ j < o + 4 then byteOf w (j - o) else byteAt image j

/-- The ROM image that holds a word at an offset of the ROM window: the loaded image with the word in its
place, or, where none is loaded or the place runs past its end, the word alone, which every aligned
address of the window then reads (R54). -/
def patchRom (rom : Option (List Byte)) (o : Nat) (w : Word) : List Byte :=
  match rom with
  | none => wordBytes w
  | some image =>
    if o % image.length + 4 ≤ image.length then patchImage image (o % image.length) w else wordBytes w

/-- The state with a word where an address of a writable region reads it. -/
def State.placeBytes (s : State) (r : Region) (o : Nat) (w : Word) : State :=
  (((s.setByte (r.base + o) (byteOf w 0)).setByte (r.base + o + 1) (byteOf w 1)).setByte
    (r.base + o + 2) (byteOf w 2)).setByte (r.base + o + 3) (byteOf w 3)

/-- The state in which `read32` of an address gives `w`: in RAM or the IO block the bytes are stored (in
palette RAM with their cache entries), in ROM and BIOS the image is changed, and an unmapped address reads
the parameter that stands for it. -/
def State.placeWord (s : State) (addr w : Word) : State :=
  match decodeAddr (align4 addr) with
  | none => { s with cfg := { s.cfg with unmappedRead := w } }
  | some (.bios, o) => { s with cfg := { s.cfg with bios := some (patchImage (s.cfg.bios.getD []) o w) } }
  | some (.rom, o) => { s with rom := some (patchRom s.rom o w) }
  | some (.pal, o) => (s.palStore16 o (lowHalf w)).palStore16 (o + 2) (highHalf w)
  | some (.ewram, o) => s.placeBytes .ewram o w
  | some (.iwram, o) => s.placeBytes .iwram o w
  | some (.io, o) => s.placeBytes .io o w
  | some (.vram, o) => s.placeBytes .vram o w
  | some (.oam, o) => s.placeBytes .oam o w

end Sys2Proof.Machine
end

