-- ==== Sys2Proof/Machine/Step.lean ====
section
/-! DEFINITION. One machine step (00_scope.md R6): `CpuCore.step()`, then `Ppu.advance` with the cycles that
step consumed. -/

namespace Sys2Proof.Machine

/-- Fetch, decode, execute, then the Ppu's clock (R6, R98). -/
def step (s : State) : Host.Outcome State Fault Refusal :=
  andThen (exec (decodeWord s.fetch) s) fun t => .next (t.advance (cyclesOf s.cfg s.fetch))

/-- The state with an instruction placed where the next step fetches it; bits from `nbits` up are 0. -/
def State.withFetchWord (s : State) (nbits w : Nat) : State :=
  s.placeWord s.instrAddr (BitVec.ofNat 32 (w % 2 ^ nbits))

end Sys2Proof.Machine
end

