-- ==== Sys2Proof/Machine/HostPort.lean ====
section
/-! DEFINITION. What the host does to the machine between steps (70_reset_and_hazards.md R300 to R306).
Construction is `State.construct`. -/

namespace Sys2Proof.Machine

/-- The one failure the machine reports, to the caller of `loadRom` (R263, R302). -/
inductive LoadError where
  /-- The image has no byte. -/
  | emptyRom
  deriving DecidableEq, Repr

/-- `loadRom(bytes)`: the ROM replaced whole, the registers and the status register at their reset values,
`lastRenderedLine` 0, all else kept; an empty image is refused (R301, R302). -/
def State.loadRom (s : State) (bytes : List Byte) : Except LoadError State :=
  if bytes = [] then .error .emptyRom
  else .ok { s with
    rom := some bytes
    regs := s.cfg.regReset.push (s.cfg.entryAddress + 8#32)
    cpsr := s.cfg.cpsrReset
    lastRenderedLine := 0 }

/-- The host's write of the key state, direct and without observers (R304). -/
def State.setKeys (s : State) (keys : Half) : State := s.setIo16 0x130 keys

/-- The loop of a tick: machine steps until the budget is spent. The first argument bounds the passes. -/
def tickFrom : Nat → Nat → State → Result
  | 0, _, s => .next s
  | n + 1, spent, s =>
    if spent < s.cfg.frameCycles then
      andThen (step s) (tickFrom n (spent + cyclesOf s.cfg s.fetch))
    else .next s

/-- `tick()` (R303). Every step consumes at least one cycle, as R4 requires, so `FRAME_CYCLES` passes are
enough. -/
def tick (s : State) : Result := tickFrom s.cfg.frameCycles 0 s

/-- Ticks with the host's key values, one before each tick (R304). -/
def ticks : List Half → State → Result
  | [], s => .next s
  | keys :: rest, s => andThen (tick (s.setKeys keys)) (ticks rest)

/-- What the debug port shows: PC, CPSR and the current scanline (R275, R306). -/
structure Debug where
  pc : Word
  cpsr : Word
  scanline : Nat
  deriving DecidableEq, Repr

/-- The debug port (R275, R306). -/
def State.debugView (s : State) : Debug := ⟨s.instrAddr, s.cpsr, s.currentScanline.val⟩

/-- One pixel of the frame buffer (R31). -/
def State.pixel (s : State) (line : Fin 160) (x : Fin 240) : Pixel := s.pixels[line.val][x.val]

/-- The four bytes of a pixel, in the order red, green, blue, alpha (R31). -/
def Pixel.bytes (p : Pixel) : List Byte := [p.r, p.g, p.b, p.a]

/-- The frame buffer as the host reads it: row-major, four bytes a pixel (R31, R305). -/
def State.frameBytes (s : State) : List Byte :=
  s.pixels.toList.flatMap fun row => row.toList.flatMap Pixel.bytes

end Sys2Proof.Machine
end

