-- ==== Sys2Proof/Safety.lean ====
section
/-! DEFINITION. What holds of the machine between steps, what a run without a refusal is, and the frames that
claims are written with. -/

namespace Sys2Proof.Machine

/-! ## The invariant of the machine -/

/-- What holds between steps: at reset, and after every step from a state in which it holds. -/
structure State.Inv (s : State) : Prop where
  /-- The parameters satisfy the constraints of 00_scope.md R4. -/
  cfgWf : s.cfg.wf = true
  /-- Memory is in its canonical form. -/
  memWf : s.mem.wf = true
  /-- A loaded ROM image has a byte (R20, R302). -/
  romLoaded : s.rom ≠ some []
  /-- `R[15]`, and with it `A`, is a multiple of 4 (R13, R15). -/
  pcAligned : (s.reg 15).extractLsb' 0 2 = 0#2
  /-- Bits 29:0 of the status register hold `CPSR_RESET[29:0]` (R17). -/
  cpsrFixed : s.cpsr.extractLsb' 0 30 = s.cfg.cpsrReset.extractLsb' 0 30
  /-- Every cache entry is the expansion of its palette entry (R21). -/
  paletteSynced : ∀ i : Fin 512, s.paletteCache[i.val] = expand (s.pal16 i.val)
  /-- The budget of a scanline (R30, R206). -/
  budgetInRange : 1 ≤ s.cyclesToNextHBlank ∧ s.cyclesToNextHBlank ≤ s.cfg.hCycles
  /-- VCOUNT and its mirror are the current scanline (R25, R30). -/
  vcountSynced : s.io16 0x006 = s.vcount ∧ s.mVcount = s.vcount
  /-- The status bits of DISPSTAT are the computed ones, and its mirror is the register (R24, R30). -/
  statusSynced : (s.io16 0x004).extractLsb' 0 3 = s.statusBits ∧ s.mDispstat = s.io16 0x004
  /-- The mirrors that rendering reads are the registers (R30, R212). -/
  mirrorsSynced : s.mDispcnt = s.io16 0x000 ∧ ∀ n : Fin 4, s.mBgcnt[n.val] = s.io16 (0x008 + 2 * n.val)
  /-- No channel is enabled: a transfer runs and clears its enable bit inside one write (R241, R246). -/
  dmaIdle : ∀ n : Fin 4, (s.io16 (dmaControl n)).getLsbD 15 = false
  /-- The frame buffer is fully opaque (R31). -/
  pixelsOpaque : ∀ (line : Fin 160) (x : Fin 240), (s.pixel line x).a = 0xFF#8

/-! ## Safe runs -/

/-- A run of `k` steps that no refusal cuts short (R307). -/
def SafeRun (k : Nat) (s : State) : Prop := ∃ t : State, Host.Core.run core k s = .next t

/-! ## Frames -/

/-- Nothing but the registers and the status register differs. -/
structure SameOutsideCpu (s t : State) : Prop where
  cfg : t.cfg = s.cfg
  mem : t.mem = s.mem
  rom : t.rom = s.rom
  paletteCache : t.paletteCache = s.paletteCache
  currentScanline : t.currentScanline = s.currentScanline
  cyclesToNextHBlank : t.cyclesToNextHBlank = s.cyclesToNextHBlank
  lastRenderedLine : t.lastRenderedLine = s.lastRenderedLine
  mDispcnt : t.mDispcnt = s.mDispcnt
  mDispstat : t.mDispstat = s.mDispstat
  mVcount : t.mVcount = s.mVcount
  mBgcnt : t.mBgcnt = s.mBgcnt
  pixels : t.pixels = s.pixels

/-- What no Bus write touches: the CPU, the parameters, the ROM image and the time of the Ppu. -/
structure SameOutsideBus (s t : State) : Prop where
  cfg : t.cfg = s.cfg
  regs : t.regs = s.regs
  cpsr : t.cpsr = s.cpsr
  rom : t.rom = s.rom
  currentScanline : t.currentScanline = s.currentScanline
  cyclesToNextHBlank : t.cyclesToNextHBlank = s.cyclesToNextHBlank

/-- What a write outside the IO block leaves alone besides: everything of the Ppu but the palette
cache. -/
structure SamePpu (s t : State) : Prop where
  currentScanline : t.currentScanline = s.currentScanline
  cyclesToNextHBlank : t.cyclesToNextHBlank = s.cyclesToNextHBlank
  lastRenderedLine : t.lastRenderedLine = s.lastRenderedLine
  mDispcnt : t.mDispcnt = s.mDispcnt
  mDispstat : t.mDispstat = s.mDispstat
  mVcount : t.mVcount = s.mVcount
  mBgcnt : t.mBgcnt = s.mBgcnt
  pixels : t.pixels = s.pixels

/-! ## The words of the claims

What the statements of Certificates/Slice0/Obligations.lean are written with: the spec's own terms, said
apart from the definitions the machine runs. -/

end Sys2Proof.Machine

namespace Sys2Proof

/-- The registers an instruction may write besides R15 (10_state.md R12). -/
def Instr.destinations : Instr → List Reg
  | .bl _ _ => [14]
  | .andImm _ _ _ rd _ _ | .subImm _ _ _ rd _ _ | .addImm _ _ _ rd _ _ | .orrImm _ _ _ rd _ _
  | .movImm _ _ _ rd _ _ => [rd]
  | .andReg _ _ _ rd _ | .subReg _ _ _ rd _ | .addReg _ _ _ rd _ | .orrReg _ _ _ rd _
  | .movReg _ _ _ rd _ => [rd]
  | .ldr _ _ _ rd _ | .ldrb _ _ _ rd _ | .ldrh _ _ _ rd _ _ => [rd]
  | .stm _ _ _ _ wBit rn _ => if wBit then [rn] else []
  | .b _ _ | .cmpImm _ _ _ _ _ _ | .cmpReg _ _ _ _ _ | .tstImm _ _ _ _ _ _ | .tstReg _ _ _ _ _
  | .str _ _ _ _ _ | .strb _ _ _ _ _ | .strh _ _ _ _ _ _ | .swi _ _ | .nopUnimplemented _ _ => []

/-- Whether an instruction calls `SetNZ` when it executes (10_state.md R18). -/
def Instr.setsFlags : Instr → Bool
  | .andImm _ sBit _ _ _ _ | .subImm _ sBit _ _ _ _ | .addImm _ sBit _ _ _ _ | .orrImm _ sBit _ _ _ _
  | .movImm _ sBit _ _ _ _ | .tstImm _ sBit _ _ _ _ => sBit
  | .andReg _ sBit _ _ _ | .subReg _ sBit _ _ _ | .addReg _ sBit _ _ _ | .orrReg _ sBit _ _ _
  | .movReg _ sBit _ _ _ | .tstReg _ sBit _ _ _ => sBit
  | .cmpImm _ _ _ _ _ _ | .cmpReg _ _ _ _ _ => true
  | .b _ _ | .bl _ _ | .str _ _ _ _ _ | .ldr _ _ _ _ _ | .strb _ _ _ _ _ | .ldrb _ _ _ _ _
  | .strh _ _ _ _ _ _ | .ldrh _ _ _ _ _ _ | .stm _ _ _ _ _ _ _ | .swi _ _ | .nopUnimplemented _ _ => false

/-- Whether an instruction makes Bus writes (20_memory.md R64). -/
def Instr.writesBus : Instr → Bool
  | .str _ _ _ _ _ | .strb _ _ _ _ _ | .strh _ _ _ _ _ _ | .stm _ _ _ _ _ _ _ | .swi _ _ => true
  | .b _ _ | .bl _ _ | .andImm _ _ _ _ _ _ | .andReg _ _ _ _ _ | .subImm _ _ _ _ _ _ | .subReg _ _ _ _ _
  | .addImm _ _ _ _ _ _ | .addReg _ _ _ _ _ | .orrImm _ _ _ _ _ _ | .orrReg _ _ _ _ _
  | .movImm _ _ _ _ _ _ | .movReg _ _ _ _ _ | .cmpImm _ _ _ _ _ _ | .cmpReg _ _ _ _ _
  | .tstImm _ _ _ _ _ _ | .tstReg _ _ _ _ _ | .ldr _ _ _ _ _ | .ldrb _ _ _ _ _ | .ldrh _ _ _ _ _ _
  | .nopUnimplemented _ _ => false

/-- The row of 30_encoding.md R101 an instruction stands on, counted from 0; 24 is the catch-all. -/
def Instr.row : Instr → Nat
  | .b _ _ => 0
  | .bl _ _ => 1
  | .andImm _ _ _ _ _ _ => 2
  | .andReg _ _ _ _ _ => 3
  | .subImm _ _ _ _ _ _ => 4
  | .subReg _ _ _ _ _ => 5
  | .addImm _ _ _ _ _ _ => 6
  | .addReg _ _ _ _ _ => 7
  | .orrImm _ _ _ _ _ _ => 8
  | .orrReg _ _ _ _ _ => 9
  | .movImm _ _ _ _ _ _ => 10
  | .movReg _ _ _ _ _ => 11
  | .cmpImm _ _ _ _ _ _ => 12
  | .cmpReg _ _ _ _ _ => 13
  | .tstImm _ _ _ _ _ _ => 14
  | .tstReg _ _ _ _ _ => 15
  | .str _ _ _ _ _ => 16
  | .ldr _ _ _ _ _ => 17
  | .strb _ _ _ _ _ => 18
  | .ldrb _ _ _ _ _ => 19
  | .strh _ _ _ _ _ _ => 20
  | .ldrh _ _ _ _ _ _ => 21
  | .stm _ _ _ _ _ _ _ => 22
  | .swi _ _ => 23
  | .nopUnimplemented _ _ => 24

end Sys2Proof

namespace Sys2Proof.Machine

/-- The condition has a meaning and holds (30_encoding.md R97). -/
def CondHolds (c : Cond) (cpsr : Word) : Prop :=
  match c with
  | .al => True
  | .eq => cpsr.getLsbD 30 = true
  | .ne => cpsr.getLsbD 30 = false
  | .mi => cpsr.getLsbD 31 = true
  | .pl => cpsr.getLsbD 31 = false
  | .cs | .cc | .vs | .vc | .hi | .ls | .ge | .lt | .gt | .le | .nv => False

/-- The condition has a meaning and does not hold (30_encoding.md R97). -/
def CondFails (c : Cond) (cpsr : Word) : Prop :=
  match c with
  | .al => False
  | .eq => cpsr.getLsbD 30 = false
  | .ne => cpsr.getLsbD 30 = true
  | .mi => cpsr.getLsbD 31 = false
  | .pl => cpsr.getLsbD 31 = true
  | .cs | .cc | .vs | .vc | .hi | .ls | .ge | .lt | .gt | .le | .nv => False

/-- One of the eleven conditions without a meaning (30_encoding.md R97, U1). -/
def CondUnassigned (c : Cond) : Prop :=
  c = .cs ∨ c = .cc ∨ c = .vs ∨ c = .vc ∨ c = .hi ∨ c = .ls ∨ c = .ge ∨ c = .lt ∨ c = .gt ∨ c = .le ∨ c = .nv

/-- Every byte the Bus reads is what it was. -/
def SameBytes (s t : State) : Prop := ∀ a : Word, t.read8 a = s.read8 a

/-- The CPU moves to the next instruction and nothing else of it changes. -/
structure CpuAdvances (s t : State) : Prop where
  pc : t.reg 15 = s.reg 15 + 4#32
  regs : ∀ i : Reg, i ≠ 15 → t.reg i = s.reg i
  cpsr : t.cpsr = s.cpsr

/-- A no-op: the machine moves to the next instruction and nothing else changes (30_encoding.md R97, R98). -/
structure OnlyAdvances (s t : State) : Prop where
  cpu : CpuAdvances s t
  rest : SameOutsideCpu s t
  bytes : SameBytes s t

/-- The result `v` goes to `Rd`: into R15 it is the address of the next instruction; no other register, no
byte and nothing outside the CPU changes (10_state.md R14, R15; 41_data_processing.md R132, R141). -/
structure WritesRd (s t : State) (rd : Reg) (v : Word) : Prop where
  toR15 : rd = 15 → t.reg 15 = (v &&& 0xFFFFFFFC#32) + 8#32
  toRd : rd ≠ 15 → t.reg rd = v ∧ t.reg 15 = s.reg 15 + 4#32
  others : ∀ i : Reg, i ≠ rd → i ≠ 15 → t.reg i = s.reg i
  rest : SameOutsideCpu s t
  bytes : SameBytes s t

/-- N and Z from the value `v` where `on` holds, and no other change of the status register
(10_state.md R18). -/
structure FlagsFrom (s t : State) (on : Bool) (v : Word) : Prop where
  n : t.cpsr.getLsbD 31 = if on then v.getLsbD 31 else s.cpsr.getLsbD 31
  z : t.cpsr.getLsbD 30 = if on then decide (v = 0#32) else s.cpsr.getLsbD 30
  others : t.cpsr.extractLsb' 0 30 = s.cpsr.extractLsb' 0 30

/-- The instruction completes, with `v` as its result (41_data_processing.md R132). -/
def GivesResult (i : Instr) (s : State) (sBit : Bool) (rd : Reg) (v : Word) : Prop :=
  ∃ t, exec i s = .next t ∧ WritesRd s t rd v ∧ FlagsFrom s t sBit v

/-- The instruction completes, sets the flags from `v` where `on` holds, and changes nothing else but the
program counter (41_data_processing.md R138, R139). -/
def Compares (i : Instr) (s : State) (on : Bool) (v : Word) : Prop :=
  ∃ t, exec i s = .next t ∧ FlagsFrom s t on v ∧ t.reg 15 = s.reg 15 + 4#32 ∧
    (∀ r : Reg, r ≠ 15 → t.reg r = s.reg r) ∧ SameOutsideCpu s t ∧ SameBytes s t

/-- The instruction completes with `v` in `Rd`, and the flags as they were (42_load_store.md R157). -/
def Loads (i : Instr) (s : State) (rd : Reg) (v : Word) : Prop :=
  ∃ t, exec i s = .next t ∧ WritesRd s t rd v ∧ t.cpsr = s.cpsr

/-- Operand 2 of a DP_IMM: `imm8` rotated right by twice `rot`, with the rotation as 00_scope.md R7 writes
it (30_encoding.md R95). -/
def rotatedImm (rot : BitVec 4) (imm8 : BitVec 8) : Word :=
  (imm8.setWidth 32 >>> (2 * rot.toNat)) ||| (imm8.setWidth 32 <<< (32 - 2 * rot.toNat))

/-- The bytes of `v`, `n` of them, stand in the cells from `k` on, through every mirror; every other byte, the
parameters, the ROM image and the Ppu's time, mirrors and picture are as they were; and the palette cache
follows the bytes stored (20_memory.md R44, R56, R58). -/
structure StoresBytes (s t : State) (k n : Nat) (v : Word) : Prop where
  stored : ∀ (a : Word) (i : Nat), i < n → cellOf a = some (k + i) → t.read8 a = byteOf v i
  kept : ∀ a : Word, (∀ i, i < n → cellOf a ≠ some (k + i)) → t.read8 a = s.read8 a
  cfg : t.cfg = s.cfg
  rom : t.rom = s.rom
  palette : ∀ j : Fin 512, t.paletteCache[j.val] =
    if k < 0x05000000 + 2 * j.val + 2 ∧ 0x05000000 + 2 * j.val < k + n then expand (t.pal16 j.val)
    else s.paletteCache[j.val]
  ppu : SamePpu s t

/-- A cell of the IO block. -/
def IsIoCell (k : Nat) : Prop := 0x04000000 ≤ k ∧ k < 0x04000400

/-- Row, mask and match of 30_encoding.md R101, but for the catch-all. -/
def specRows : List (Nat × Word × Word) :=
  [ (0, 0x0F000000#32, 0x0A000000#32), (1, 0x0F000000#32, 0x0B000000#32),
    (2, 0x0FE00000#32, 0x02000000#32), (3, 0x0FE00FF0#32, 0x00000000#32),
    (4, 0x0FE00000#32, 0x02400000#32), (5, 0x0FE00FF0#32, 0x00400000#32),
    (6, 0x0FE00000#32, 0x02800000#32), (7, 0x0FE00FF0#32, 0x00800000#32),
    (8, 0x0FE00000#32, 0x03800000#32), (9, 0x0FE00FF0#32, 0x01800000#32),
    (10, 0x0FE00000#32, 0x03A00000#32), (11, 0x0FE00FF0#32, 0x01A00000#32),
    (12, 0x0FE00000#32, 0x03400000#32), (13, 0x0FE00FF0#32, 0x01400000#32),
    (14, 0x0FE00000#32, 0x03000000#32), (15, 0x0FE00FF0#32, 0x01000000#32),
    (16, 0x0F700000#32, 0x05000000#32), (17, 0x0F700000#32, 0x05100000#32),
    (18, 0x0F700000#32, 0x05400000#32), (19, 0x0F700000#32, 0x05500000#32),
    (20, 0x0F7000F0#32, 0x014000B0#32), (21, 0x0F7000F0#32, 0x015000B0#32),
    (22, 0x0E100000#32, 0x08000000#32), (23, 0x0F000000#32, 0x0F000000#32) ]

/-- `n` bytes from an address on lie in the first image of one RAM region: EWRAM, IWRAM, palette RAM, VRAM or
OAM (20_memory.md R40). -/
def RamRange (first : Word) (n : Nat) : Prop :=
  ∃ r : Region, (r = .ewram ∨ r = .iwram ∨ r = .pal ∨ r = .vram ∨ r = .oam) ∧
    r.base ≤ first.toNat ∧ first.toNat + n ≤ r.base + r.capacity

/-- The size of a unit in bytes, as a number. -/
def unitBytes (wide : Bool) : Nat := if wide then 4 else 2

/-- The aligned address of unit `k` counted from a pointer: the Bus drops the pointer's low bits at every
access, and the pointer keeps them (20_memory.md R45; 48_dma.md R244). -/
def unitAddr (wide : Bool) (p : Word) (k : Nat) : Word :=
  (if wide then align4 p else align2 p) + BitVec.ofNat 32 (k * unitBytes wide)

/-- No byte of the `n` from an address on lies in one of the cells. -/
def ApartFrom (first : Word) (n : Nat) (cells : Nat → Prop) : Prop :=
  ∀ i k : Nat, i < n → cellOf (first + BitVec.ofNat 32 i) = some k → ¬ cells k

/-- The cells from a first one on. -/
def CellRange (first n k : Nat) : Prop := first ≤ k ∧ k < first + n

/-- The Ppu's time, mirrors and picture, the parameters and the ROM image are as they were, and the palette
cache follows the `n` bytes stored from the cell `first` on: the entries of those bytes are brought up to date,
and the others are as they were (20_memory.md R58). -/
structure SameMachine (s t : State) (first n : Nat) : Prop where
  cfg : t.cfg = s.cfg
  rom : t.rom = s.rom
  palette : ∀ j : Fin 512, t.paletteCache[j.val] =
    if first < 0x05000000 + 2 * j.val + 2 ∧ 0x05000000 + 2 * j.val < first + n then expand (t.pal16 j.val)
    else s.paletteCache[j.val]
  ppu : SamePpu s t

/-- How many registers an STM lists (44_block_transfer.md R176). -/
def listedCount (reglist : BitVec 16) : Nat := (List.finRange 16).countP fun i => reglist.getLsbD i.val

/-- How many listed registers have a lower number (44_block_transfer.md R176). -/
def listedBelow (reglist : BitVec 16) (r : Reg) : Nat :=
  (List.finRange 16).countP fun i => reglist.getLsbD i.val && decide (i < r)

/-- The first address of an STM, by P and U (44_block_transfer.md R176). -/
def stmFirst (base : Word) (pBit uBit : Bool) (n : Nat) : Word :=
  if uBit then (if pBit then base + 4#32 else base)
  else if pBit then base - BitVec.ofNat 32 (4 * n) else base - BitVec.ofNat 32 (4 * n) + 4#32

/-- The base register after an STM that writes it back (44_block_transfer.md R176). -/
def stmBase (base : Word) (uBit : Bool) (n : Nat) : Word :=
  if uBit then base + BitVec.ofNat 32 (4 * n) else base - BitVec.ofNat 32 (4 * n)

/-- Word stores, one after the other. -/
def storeWords : List (Word × Word) → State → Result
  | [], s => .next s
  | (a, v) :: rest, s => andThen (write32 a v s) (storeWords rest)

/-! ### The Bus writes of an instruction, as data

What an instruction and a DMA transfer write, write by write, so that a statement can say which write does
what. A write that depends on memory (a unit of a copy) is a function of the state it is made in. -/

/-- One Bus write, by its width (00_scope.md R8). -/
inductive BusWrite where
  | byte (a : Word) (v : Byte)
  | half (a : Word) (v : Half)
  | word (a : Word) (v : Word)
  deriving DecidableEq, Repr

/-- The write, as an instruction makes it. -/
def BusWrite.perform : BusWrite → State → Result
  | .byte a v => write8 a v
  | .half a v => write16 a v
  | .word a v => write32 a v

/-- The halfword of an IO register with a byte written to an address merged in (20_memory.md R49). -/
def mergedHalf (a : Word) (v : Byte) (s : State) : Half :=
  if a.getLsbD 0 then v ++ (s.read16 a).extractLsb' 0 8 else (s.read16 a).extractLsb' 8 8 ++ v

/-- The halfwords that a write to the IO block stores, in their order: a byte merges into its register, a word
is its low and then its high half (20_memory.md R49, R51, R61). -/
def BusWrite.halves (b : BusWrite) (s : State) : List (Word × Half) :=
  match b with
  | .byte a v => [(align2 a, mergedHalf a v s)]
  | .half a v => [(align2 a, v)]
  | .word a v => [(align4 a, lowHalf v), (align4 a + 2#32, highHalf v)]

/-- The channel that a halfword starts: the one at whose control register it is stored with bit 15 set
(48_dma.md R241). -/
def halfChannel (h : Word × Half) : Option (Fin 4) :=
  (List.finRange 4).find? fun n => decide (h.1 = BitVec.ofNat 32 (0x040000BA + 12 * n.val)) && h.2.getLsbD 15

/-- The channel that a write starts (48_dma.md R241). -/
def BusWrite.channel (b : BusWrite) (s : State) : Option (Fin 4) := (b.halves s).findSome? halfChannel

/-- The machine with the halfwords of a write stored in the IO block and no observer run: what a transfer
finds when the write has started it (20_memory.md R61). -/
def BusWrite.store (b : BusWrite) (s : State) : State :=
  (b.halves s).foldl (fun t h => t.setIo16 (h.1.toNat % 0x1000000) h.2) s

/-- The write, as a transfer makes it: without a meaning where it starts a channel (48_dma.md R248, U3), and
otherwise as an instruction makes it. -/
def BusWrite.performInside (b : BusWrite) (s : State) : Result :=
  match b.channel s with
  | some n => .refused (.nestedDmaTransfer n)
  | none => b.perform s

/-- Bus writes one after the other, each from the state the one before it leaves (20_memory.md R62). -/
def runWrites (write : BusWrite → State → Result) : List (State → BusWrite) → State → Result
  | [], s => .next s
  | w :: rest, s => andThen (write (w s) s) (runWrites write rest)

/-- Among the writes, one that is met, after all before it have been made, in a state where `P` holds of the
two. -/
def ReachesWrite (write : BusWrite → State → Result) (writes : List (State → BusWrite)) (s : State)
    (P : BusWrite → State → Prop) : Prop :=
  ∃ (front rest : List (State → BusWrite)) (w : State → BusWrite) (t : State),
    writes = front ++ w :: rest ∧ runWrites write front s = .next t ∧ P (w t) t

/-- The write of one unit (45_software_interrupt.md R187; 48_dma.md R244). -/
def unitWrite (wide : Bool) (a v : Word) : BusWrite := if wide then .word a v else .half a (lowHalf v)

/-- The writes of a copy: units in ascending order, each read in the state its write is made in
(45_software_interrupt.md R187, R188; 48_dma.md R244). -/
def copyWrites (wide : Bool) (count : Nat) (src dst : Word) : List (State → BusWrite) :=
  (List.range count).map fun k s =>
    unitWrite wide (dst + BitVec.ofNat 32 (k * unitBytes wide))
      (s.readUnit wide (src + BitVec.ofNat 32 (k * unitBytes wide)))

/-- The writes of a fill: one value to ascending units (45_software_interrupt.md R187). -/
def fillWrites (wide : Bool) (count : Nat) (v dst : Word) : List (State → BusWrite) :=
  (List.range count).map fun k _ => unitWrite wide (dst + BitVec.ofNat 32 (k * unitBytes wide)) v

/-- The writes of a transfer of channel `n`, from the parameters its registers hold (48_dma.md R242, R244). -/
def channelWrites (n : Fin 4) (s : State) : List (State → BusWrite) :=
  let window := 0x040000B0 + 12 * n.val
  let cnt := s.read16 (BitVec.ofNat 32 (window + 8))
  copyWrites ((s.read16 (BitVec.ofNat 32 (window + 10))).getLsbD 10)
    (if cnt = 0#16 then 16384 else cnt.toNat)
    (s.read32 (BitVec.ofNat 32 window)) (s.read32 (BitVec.ofNat 32 (window + 4)))

end Sys2Proof.Machine

namespace Sys2Proof

open Machine

/-- The Bus writes an instruction makes when its condition holds, in their order (20_memory.md R64). -/
def Instr.busWrites (i : Instr) (s : State) : List (State → BusWrite) :=
  match i with
  | .str _ uBit rn rd imm12 => [fun _ => .word (s.lsAddr uBit rn imm12) (s.reg rd)]
  | .strb _ uBit rn rd imm12 => [fun _ => .byte (s.lsAddr uBit rn imm12) (byteOf (s.reg rd) 0)]
  | .strh _ uBit rn rd immH immL => [fun _ => .half (s.lshAddr uBit rn immH immL) (lowHalf (s.reg rd))]
  | .stm _ pBit uBit _ wBit rn reglist =>
    if wBit = true ∧ rn = 15 then []
    else ((List.finRange 16).filter fun r => reglist.getLsbD r.val).map fun r _ =>
      .word (stmFirst (s.reg rn) pBit uBit (listedCount reglist) +
        BitVec.ofNat 32 (4 * listedBelow reglist r)) (s.reg r)
  | .swi _ comment =>
    let wide := (s.reg 2).getLsbD 26
    let count := ((s.reg 2).extractLsb' 0 21).toNat
    if comment.extractLsb' 16 8 ≠ s.cfg.swiCpuset then []
    else if (s.reg 2).getLsbD 24 then fillWrites wide count (s.readUnit wide (s.reg 0)) (s.reg 1)
    else copyWrites wide count (s.reg 0) (s.reg 1)
  | .b _ _ | .bl _ _ | .andImm _ _ _ _ _ _ | .andReg _ _ _ _ _ | .subImm _ _ _ _ _ _ | .subReg _ _ _ _ _
  | .addImm _ _ _ _ _ _ | .addReg _ _ _ _ _ | .orrImm _ _ _ _ _ _ | .orrReg _ _ _ _ _
  | .movImm _ _ _ _ _ _ | .movReg _ _ _ _ _ | .cmpImm _ _ _ _ _ _ | .cmpReg _ _ _ _ _
  | .tstImm _ _ _ _ _ _ | .tstReg _ _ _ _ _ | .ldr _ _ _ _ _ | .ldrb _ _ _ _ _ | .ldrh _ _ _ _ _ _
  | .nopUnimplemented _ _ => []

/-- The 32-bit result that an instruction gives to `SetNZ` when it sets the flags (10_state.md R18;
41_data_processing.md R133 to R139), nothing for the other instructions. The second operand of an immediate form
is the one the machine computes. -/
def Instr.result (i : Instr) (s : State) : Option Word :=
  match i with
  | .andImm _ _ rn _ rot imm8 | .tstImm _ _ rn _ rot imm8 => some (s.reg rn &&& immOperand rot imm8)
  | .andReg _ _ rn _ rm | .tstReg _ _ rn _ rm => some (s.reg rn &&& s.reg rm)
  | .subImm _ _ rn _ rot imm8 | .cmpImm _ _ rn _ rot imm8 => some (s.reg rn - immOperand rot imm8)
  | .subReg _ _ rn _ rm | .cmpReg _ _ rn _ rm => some (s.reg rn - s.reg rm)
  | .addImm _ _ rn _ rot imm8 => some (s.reg rn + immOperand rot imm8)
  | .addReg _ _ rn _ rm => some (s.reg rn + s.reg rm)
  | .orrImm _ _ rn _ rot imm8 => some (s.reg rn ||| immOperand rot imm8)
  | .orrReg _ _ rn _ rm => some (s.reg rn ||| s.reg rm)
  | .movImm _ _ _ _ rot imm8 => some (immOperand rot imm8)
  | .movReg _ _ _ _ rm => some (s.reg rm)
  | .b _ _ | .bl _ _ | .str _ _ _ _ _ | .ldr _ _ _ _ _ | .strb _ _ _ _ _ | .ldrb _ _ _ _ _
  | .strh _ _ _ _ _ _ | .ldrh _ _ _ _ _ _ | .stm _ _ _ _ _ _ _ | .swi _ _ | .nopUnimplemented _ _ => none

/-- The instruction starts a transfer inside a transfer (93_implementation_defined.md U3): one of its writes
starts a channel, and one of that transfer's writes reaches the control register of channel `n` with bit 15
set. -/
def Instr.StartsInside (i : Instr) (s : State) (n : Fin 4) : Prop :=
  ReachesWrite BusWrite.perform (i.busWrites s) s fun b t => ∃ m, b.channel t = some m ∧
    ReachesWrite BusWrite.performInside (channelWrites m (b.store t)) (b.store t) fun b' t' =>
      b'.channel t' = some n

end Sys2Proof
end

