-- ==== Sys2Proof/Certificates/Slice0/Obligations.lean ====
section
/-! DEFINITION. The statements about the machine, each from the numbered rules of spec/. A docstring names the
rules; where a rule rests on one of the spec's own decisions (92_eei_decisions.md) it names the decision. -/

open Sys2Proof Sys2Proof.Machine

/-! ## Encoding -/

/-- Words written out from 30_encoding.md R101, one for each family, decode to their instructions. -/
def Obligations.SpecWordsDecode : Prop :=
  decodeWord 0xEAFFFFFE#32 = .b .al 0xFFFFFE#24 ∧
  decodeWord 0x1B000002#32 = .bl .ne 0x000002#24 ∧
  decodeWord 0xE2534C01#32 = .subImm .al true 3 4 0xC#4 0x01#8 ∧
  decodeWord 0xE0002001#32 = .andReg .al false 0 2 1 ∧
  decodeWord 0xE5101004#32 = .ldr .al false 0 1 0x004#12 ∧
  decodeWord 0xE5C01001#32 = .strb .al true 0 1 0x001#12 ∧
  decodeWord 0xE15010B2#32 = .ldrh .al false 0 1 0x0#4 0x2#4 ∧
  decodeWord 0xE92D0003#32 = .stm .al true false false true 13 0x0003#16 ∧
  decodeWord 0xEF0B0000#32 = .swi .al 0x0B0000#24 ∧
  decodeWord 0xE0000291#32 = .nopUnimplemented .al 0x0000291#28

/-- The bytes of a well-formed instruction decode to it, whatever bytes follow (R91, R93, R101). -/
def Obligations.DecodeOfEncode : Prop :=
  ∀ (i : Instr) (rest : List Byte), i.wf = true → decode (encodeBytes i ++ rest) = .ok (i, rest)

/-- Every word decodes to a well-formed instruction, and that instruction encodes to the word (R99). -/
def Obligations.EncodeOfDecode : Prop :=
  ∀ w : Word, (decodeWord w).wf = true ∧ encode (decodeWord w) = w

/-- A word decodes to the instruction of a row of R101 exactly where it matches the row's mask, and to the
catch-all exactly where it matches none. -/
def Obligations.DecodeFollowsTheRows : Prop :=
  ∀ w : Word,
    (∀ e ∈ specRows, w &&& e.2.1 = e.2.2 ↔ (decodeWord w).row = e.1) ∧
    ((∀ e ∈ specRows, w &&& e.2.1 ≠ e.2.2) ↔ (decodeWord w).row = 24)

/-! ## The step -/

/-- Where the word at the program counter, as memory holds it when the step begins, decodes to a well-formed
instruction, a step is that instruction and then the Ppu's clock with the cycles of the word (R6, R72, R98). -/
def Obligations.StepRunsTheDecodedInstruction : Prop :=
  ∀ (s : State) (i : Instr), i.wf = true →
    decode (wordBytes (s.read32 (s.reg 15 - 8#32))) = .ok (i, []) →
    (∀ t, exec i s = .next t →
      step s = .next (t.advance (cyclesOf s.cfg (s.read32 (s.reg 15 - 8#32))))) ∧
    (∀ e, exec i s = .refused e → step s = .refused e) ∧ (∀ f, exec i s = .fault f → step s = .fault f)

/-- After every step VCOUNT is the current scanline, the three status bits of DISPSTAT are the conditions they
stand for, and the mirrors are the registers (R25, R202, R203, R208). -/
def Obligations.StepLeavesTheStatusTrue : Prop :=
  ∀ s t : State, step s = .next t →
    t.read16 0x04000006#32 = BitVec.ofNat 16 t.currentScanline.val ∧
    (t.read16 0x04000004#32).getLsbD 0 = decide (160 ≤ t.currentScanline.val) ∧
    (t.read16 0x04000004#32).getLsbD 1 = decide (t.cyclesToNextHBlank ≤ t.cfg.hblankCycles) ∧
    (t.read16 0x04000004#32).getLsbD 2 =
      decide (t.currentScanline.val = ((t.read16 0x04000004#32).extractLsb' 8 8).toNat) ∧
    t.mVcount = t.read16 0x04000006#32 ∧ t.mDispstat = t.read16 0x04000004#32

/-- A branch to itself leaves the program counter, the registers and the flags as they are, and every byte but
the status registers' (R121, R307; decision D2). -/
def Obligations.SelfBranchStays : Prop :=
  ∀ s : State, (s.reg 15).extractLsb' 0 2 = 0#2 → s.read32 (s.reg 15 - 8#32) = 0xEAFFFFFE#32 →
    ∃ t, step s = .next t ∧ t.debugView.pc = s.debugView.pc ∧ (∀ i : Reg, t.reg i = s.reg i) ∧ t.cpsr = s.cpsr ∧
      ∀ a : Word, (∀ i, i < 4 → cellOf a ≠ some (0x04000004 + i)) → t.read8 a = s.read8 a

/-! ## The condition field -/

/-- An instruction whose condition has no meaning is refused, whatever it is (R97, U1; decision D3). -/
def Obligations.UnassignedConditionIsRefused : Prop :=
  ∀ (i : Instr) (s : State), CondUnassigned i.cond → exec i s = .refused (.unassignedCondition i.cond)

/-- An instruction whose condition fails is a no-op, whatever it is (R97, R98; decision D3). -/
def Obligations.FailedConditionOnlyAdvances : Prop :=
  ∀ (i : Instr) (s : State), CondFails i.cond s.cpsr → ∃ t, exec i s = .next t ∧ OnlyAdvances s t

/-- Every instruction has a next state in every state but for three cases: an unassigned condition (U1; decision
D3, log 11), an STM that writes R15 back (U2; log 12), and a Bus write that starts a transfer of which a write
reaches a control register with bit 15 set (U3; decision D40, log 13); and where an instruction whose condition
holds meets the third case, it is refused (R260). -/
def Obligations.OnlyThreeRefusals : Prop :=
  ∀ (i : Instr) (s : State),
    ((∃ t, exec i s = .next t) ∨
      (CondUnassigned i.cond ∧ exec i s = .refused (.unassignedCondition i.cond)) ∨
      ((∃ c p u x list, i = .stm c p u x true 15 list) ∧ exec i s = .refused .stmWritebackToR15) ∨
      (i.writesBus = true ∧ ∃ n, i.StartsInside s n ∧ exec i s = .refused (.nestedDmaTransfer n))) ∧
    ∀ n, CondHolds i.cond s.cpsr → i.StartsInside s n → exec i s = .refused (.nestedDmaTransfer n)

/-! ## Data processing -/

/-- AND: both forms (R131, R132, R133; decision D5, log 10, for the rotation, D7, log 14, for `Rd = 15`). -/
def Obligations.AndResult : Prop :=
  (∀ (c : Cond) (sBit : Bool) (rn rd : Reg) (rot : BitVec 4) (imm8 : BitVec 8) (s : State),
    CondHolds c s.cpsr →
      GivesResult (.andImm c sBit rn rd rot imm8) s sBit rd (s.reg rn &&& rotatedImm rot imm8)) ∧
  (∀ (c : Cond) (sBit : Bool) (rn rd rm : Reg) (s : State),
    CondHolds c s.cpsr → GivesResult (.andReg c sBit rn rd rm) s sBit rd (s.reg rn &&& s.reg rm))

/-- SUB: both forms, modulo 2^32 (R131, R132, R134; decision D5, log 10, for the rotation, D7, log 14, for
`Rd = 15`). -/
def Obligations.SubResult : Prop :=
  (∀ (c : Cond) (sBit : Bool) (rn rd : Reg) (rot : BitVec 4) (imm8 : BitVec 8) (s : State),
    CondHolds c s.cpsr → GivesResult (.subImm c sBit rn rd rot imm8) s sBit rd
      (BitVec.ofInt 32 ((s.reg rn).toNat - (rotatedImm rot imm8).toNat))) ∧
  (∀ (c : Cond) (sBit : Bool) (rn rd rm : Reg) (s : State),
    CondHolds c s.cpsr → GivesResult (.subReg c sBit rn rd rm) s sBit rd
      (BitVec.ofInt 32 ((s.reg rn).toNat - (s.reg rm).toNat)))

/-- ADD: both forms, modulo 2^32 (R131, R132, R135; decision D5, log 10, for the rotation, D7, log 14, for
`Rd = 15`). -/
def Obligations.AddResult : Prop :=
  (∀ (c : Cond) (sBit : Bool) (rn rd : Reg) (rot : BitVec 4) (imm8 : BitVec 8) (s : State),
    CondHolds c s.cpsr → GivesResult (.addImm c sBit rn rd rot imm8) s sBit rd
      (BitVec.ofNat 32 ((s.reg rn).toNat + (rotatedImm rot imm8).toNat))) ∧
  (∀ (c : Cond) (sBit : Bool) (rn rd rm : Reg) (s : State),
    CondHolds c s.cpsr → GivesResult (.addReg c sBit rn rd rm) s sBit rd
      (BitVec.ofNat 32 ((s.reg rn).toNat + (s.reg rm).toNat)))

/-- ORR: both forms (R131, R132, R136; decision D5, log 10, for the rotation, D7, log 14, for `Rd = 15`). -/
def Obligations.OrrResult : Prop :=
  (∀ (c : Cond) (sBit : Bool) (rn rd : Reg) (rot : BitVec 4) (imm8 : BitVec 8) (s : State),
    CondHolds c s.cpsr →
      GivesResult (.orrImm c sBit rn rd rot imm8) s sBit rd (s.reg rn ||| rotatedImm rot imm8)) ∧
  (∀ (c : Cond) (sBit : Bool) (rn rd rm : Reg) (s : State),
    CondHolds c s.cpsr → GivesResult (.orrReg c sBit rn rd rm) s sBit rd (s.reg rn ||| s.reg rm))

/-- MOV: both forms, whatever the `Rn` field (R131, R132, R137; decision D5, log 10, for the
rotation, D7, log 14, for `Rd = 15`). -/
def Obligations.MovResult : Prop :=
  (∀ (c : Cond) (sBit : Bool) (rn rd : Reg) (rot : BitVec 4) (imm8 : BitVec 8) (s : State),
    CondHolds c s.cpsr → GivesResult (.movImm c sBit rn rd rot imm8) s sBit rd (rotatedImm rot imm8)) ∧
  (∀ (c : Cond) (sBit : Bool) (rn rd rm : Reg) (s : State),
    CondHolds c s.cpsr → GivesResult (.movReg c sBit rn rd rm) s sBit rd (s.reg rm))

/-- CMP: both forms, whatever the S-bit and the `Rd` field (R131, R138; decision D5, log 10, for
the rotation). -/
def Obligations.CmpSetsFlags : Prop :=
  (∀ (c : Cond) (sBit : Bool) (rn rd : Reg) (rot : BitVec 4) (imm8 : BitVec 8) (s : State),
    CondHolds c s.cpsr → Compares (.cmpImm c sBit rn rd rot imm8) s true
      (BitVec.ofInt 32 ((s.reg rn).toNat - (rotatedImm rot imm8).toNat))) ∧
  (∀ (c : Cond) (sBit : Bool) (rn rd rm : Reg) (s : State),
    CondHolds c s.cpsr → Compares (.cmpReg c sBit rn rd rm) s true
      (BitVec.ofInt 32 ((s.reg rn).toNat - (s.reg rm).toNat)))

/-- TST: both forms, flags only with the S-bit, whatever the `Rd` field (R131, R139; decision D5,
log 10, for the rotation). -/
def Obligations.TstSetsFlags : Prop :=
  (∀ (c : Cond) (sBit : Bool) (rn rd : Reg) (rot : BitVec 4) (imm8 : BitVec 8) (s : State),
    CondHolds c s.cpsr →
      Compares (.tstImm c sBit rn rd rot imm8) s sBit (s.reg rn &&& rotatedImm rot imm8)) ∧
  (∀ (c : Cond) (sBit : Bool) (rn rd rm : Reg) (s : State),
    CondHolds c s.cpsr → Compares (.tstReg c sBit rn rd rm) s sBit (s.reg rn &&& s.reg rm))

/-! ## Branches -/

/-- B: the next instruction is at `A + 8` plus four times the signed offset; nothing else changes (R94,
R121; decision D2). -/
def Obligations.BranchGoesToTheTarget : Prop :=
  ∀ (c : Cond) (offset24 : BitVec 24) (s : State), CondHolds c s.cpsr →
    ∃ t, exec (.b c offset24) s = .next t ∧
      t.reg 15 = ((s.reg 15 + BitVec.ofInt 32 (4 * offset24.toInt)) &&& 0xFFFFFFFC#32) + 8#32 ∧
      (∀ i : Reg, i ≠ 15 → t.reg i = s.reg i) ∧ t.cpsr = s.cpsr ∧ SameOutsideCpu s t ∧ SameBytes s t

/-- BL: as B, and R14 holds `A + 4` (R94, R122; decision D4). -/
def Obligations.BranchWithLinkReturns : Prop :=
  ∀ (c : Cond) (offset24 : BitVec 24) (s : State), CondHolds c s.cpsr →
    ∃ t, exec (.bl c offset24) s = .next t ∧
      t.reg 15 = ((s.reg 15 + BitVec.ofInt 32 (4 * offset24.toInt)) &&& 0xFFFFFFFC#32) + 8#32 ∧
      t.reg 14 = s.reg 15 - 4#32 ∧
      (∀ i : Reg, i ≠ 14 → i ≠ 15 → t.reg i = s.reg i) ∧ t.cpsr = s.cpsr ∧ SameOutsideCpu s t ∧ SameBytes s t

/-! ## Loads and the reads of the Bus -/

/-- The effective addresses: the offset added or subtracted by U; word accesses drop bits 1:0 and halfword
accesses bit 0 (R45, R150, R165; decisions D8, D10, D21). -/
def Obligations.EffectiveAddresses : Prop :=
  ∀ (s : State) (rn : Reg) (imm12 : BitVec 12) (immH immL : BitVec 4) (a : Word),
    s.lsAddr true rn imm12 = s.reg rn + BitVec.ofNat 32 imm12.toNat ∧
    s.lsAddr false rn imm12 = s.reg rn - BitVec.ofNat 32 imm12.toNat ∧
    s.lshAddr true rn immH immL = s.reg rn + BitVec.ofNat 32 (16 * immH.toNat + immL.toNat) ∧
    s.lshAddr false rn immH immL = s.reg rn - BitVec.ofNat 32 (16 * immH.toNat + immL.toNat) ∧
    (align4 a).toNat = a.toNat / 4 * 4 ∧ (align2 a).toNat = a.toNat / 2 * 2

/-- LDR: the word the Bus reads at the effective address (R152, R153; decision D2 for `Rd = 15`). -/
def Obligations.LdrLoadsTheWord : Prop :=
  ∀ (c : Cond) (u : Bool) (rn rd : Reg) (imm12 : BitVec 12) (s : State), CondHolds c s.cpsr →
    Loads (.ldr c u rn rd imm12) s rd (s.read32 (s.lsAddr u rn imm12))

/-- LDRB: the byte the Bus reads at the effective address, zero-extended (R153, R155; decision D2 for
`Rd = 15`). -/
def Obligations.LdrbLoadsTheByte : Prop :=
  ∀ (c : Cond) (u : Bool) (rn rd : Reg) (imm12 : BitVec 12) (s : State), CondHolds c s.cpsr →
    Loads (.ldrb c u rn rd imm12) s rd (BitVec.ofNat 32 (s.read8 (s.lsAddr u rn imm12)).toNat)

/-- LDRH: the halfword the Bus reads at the effective address, zero-extended (R153, R167; decision D2 for
`Rd = 15`). -/
def Obligations.LdrhLoadsTheHalfword : Prop :=
  ∀ (c : Cond) (u : Bool) (rn rd : Reg) (immH immL : BitVec 4) (s : State), CondHolds c s.cpsr →
    Loads (.ldrh c u rn rd immH immL) s rd (BitVec.ofNat 32 (s.read16 (s.lshAddr u rn immH immL)).toNat)

/-- Where each address lies: the cell behind it, and where there is none (R40, R41, R42; decision D18). -/
def Obligations.AddressMap : Prop :=
  ∀ a : Word, cellOf a =
    (if a.toNat / 0x1000000 = 2 then some (0x02000000 + a.toNat % 0x1000000 % 0x40000)
     else if a.toNat / 0x1000000 = 3 then some (0x03000000 + a.toNat % 0x1000000 % 0x8000)
     else if a.toNat / 0x1000000 = 4 ∧ a.toNat % 0x1000000 < 0x400 then some a.toNat
     else if a.toNat / 0x1000000 = 5 then some (0x05000000 + a.toNat % 0x1000000 % 0x400)
     else if a.toNat / 0x1000000 = 6 then some (0x06000000 + a.toNat % 0x1000000 % 0x18000)
     else if a.toNat / 0x1000000 = 7 then some (0x07000000 + a.toNat % 0x1000000 % 0x400)
     else none)

/-- Byte order: in the writable regions and in the BIOS window a word or a halfword is the bytes of its
aligned address, the lowest first (R44, R45, R46, R47, R48; decision D21). -/
def Obligations.ReadsAreLittleEndian : Prop :=
  ∀ (s : State) (a : Word), cellOf a ≠ none ∨ a.toNat < 0x4000 →
    s.read32 a = s.read8 (align4 a + 3#32) ++ s.read8 (align4 a + 2#32) ++ s.read8 (align4 a + 1#32) ++
      s.read8 (align4 a) ∧
    s.read16 a = s.read8 (align2 a + 1#32) ++ s.read8 (align2 a)

/-- ROM reads: the image through the wrap by its length, the sentinel of the width where the bytes run past
the end or no image is loaded (R54, R55; decision D20). -/
def Obligations.RomReads : Prop :=
  ∀ (s : State) (a : Word), a.toNat / 0x1000000 = 8 ∨ a.toNat / 0x1000000 = 9 →
    (s.rom = none → s.read8 a = s.cfg.romSentinel8 ∧ s.read16 a = 0xFFFF#16 ∧ s.read32 a = 0xDEADBEEF#32) ∧
    (∀ image, s.rom = some image → image ≠ [] →
      let o1 := (a.toNat - 0x08000000) % image.length
      let o2 := (a.toNat / 2 * 2 - 0x08000000) % image.length
      let o4 := (a.toNat / 4 * 4 - 0x08000000) % image.length
      s.read8 a = image.getD o1 0#8 ∧
      s.read16 a = (if o2 + 2 ≤ image.length then image.getD (o2 + 1) 0#8 ++ image.getD o2 0#8
        else 0xFFFF#16) ∧
      s.read32 a = (if o4 + 4 ≤ image.length then
        image.getD (o4 + 3) 0#8 ++ image.getD (o4 + 2) 0#8 ++ image.getD (o4 + 1) 0#8 ++ image.getD o4 0#8
        else 0xDEADBEEF#32))

/-- Reads without storage: a BIOS byte beyond the image or without one is 0, and an unmapped address reads the
parameter, truncated to the width (R42, R52; decisions D19, D26). -/
def Obligations.ReadsWithoutStorage : Prop :=
  ∀ (s : State) (a : Word),
    (a.toNat < 0x4000 → s.read8 a = (s.cfg.bios.getD []).getD a.toNat 0#8) ∧
    ((0x4000 ≤ a.toNat ∧ a.toNat < 0x02000000) ∨ (0x04000400 ≤ a.toNat ∧ a.toNat < 0x05000000) ∨
        0x0A000000 ≤ a.toNat →
      s.read8 a = s.cfg.unmappedRead.setWidth 8 ∧ s.read16 a = s.cfg.unmappedRead.setWidth 16 ∧
        s.read32 a = s.cfg.unmappedRead)

/-! ## Stores -/

/-- STR. At every address, the IO block among them: the halfword write of the low half at the aligned address,
complete with its observers and a whole transfer, then that of the high half two bytes on, then the advance. Into
a writable region other than the IO block: the four bytes and the frame (R44, R45, R51, R56, R58, R61, R62, R151;
decision D22). -/
def Obligations.StrStoresTheWord : Prop :=
  ∀ (c : Cond) (u : Bool) (rn rd : Reg) (imm12 : BitVec 12) (s : State), CondHolds c s.cpsr →
    let a := align4 (s.lsAddr u rn imm12)
    (exec (.str c u rn rd imm12) s =
      andThen (write16 a (lowHalf (s.reg rd)) s) fun t =>
        andThen (write16 (a + 2#32) (highHalf (s.reg rd)) t) fun v => .next v.advancePc) ∧
    ∀ k, cellOf a = some k → ¬ IsIoCell k →
      ∃ t, exec (.str c u rn rd imm12) s = .next t ∧ StoresBytes s t k 4 (s.reg rd) ∧ CpuAdvances s t

/-- STRB. At every address: the byte write at it, then the advance. Into a writable region other than the IO
block: the byte and the frame (R49, R56, R58, R154; decision D23). -/
def Obligations.StrbStoresTheByte : Prop :=
  ∀ (c : Cond) (u : Bool) (rn rd : Reg) (imm12 : BitVec 12) (s : State), CondHolds c s.cpsr →
    let a := s.lsAddr u rn imm12
    (exec (.strb c u rn rd imm12) s =
      andThen (write8 a ((s.reg rd).extractLsb' 0 8) s) fun t => .next t.advancePc) ∧
    ∀ k, cellOf a = some k → ¬ IsIoCell k →
      ∃ t, exec (.strb c u rn rd imm12) s = .next t ∧ StoresBytes s t k 1 (s.reg rd) ∧ CpuAdvances s t

/-- STRH. At every address: the halfword write at the aligned address, then the advance. Into a writable region
other than the IO block: the two bytes and the frame (R44, R45, R50, R56, R57, R58, R166). -/
def Obligations.StrhStoresTheHalfword : Prop :=
  ∀ (c : Cond) (u : Bool) (rn rd : Reg) (immH immL : BitVec 4) (s : State), CondHolds c s.cpsr →
    let a := align2 (s.lshAddr u rn immH immL)
    (exec (.strh c u rn rd immH immL) s =
      andThen (write16 a (lowHalf (s.reg rd)) s) fun t => .next t.advancePc) ∧
    ∀ k, cellOf a = some k → ¬ IsIoCell k →
      ∃ t, exec (.strh c u rn rd immH immL) s = .next t ∧ StoresBytes s t k 2 (s.reg rd) ∧ CpuAdvances s t

/-- A store to BIOS, ROM or an unmapped address has no effect but the advance (R42, R53, R151, R154, R166;
decision D19). -/
def Obligations.StoresWithoutStorageAreIgnored : Prop :=
  ∀ (c : Cond) (u : Bool) (rn rd : Reg) (imm12 : BitVec 12) (immH immL : BitVec 4) (s : State),
    CondHolds c s.cpsr →
    (cellOf (align4 (s.lsAddr u rn imm12)) = none →
      ∃ t, exec (.str c u rn rd imm12) s = .next t ∧ OnlyAdvances s t) ∧
    (cellOf (s.lsAddr u rn imm12) = none →
      ∃ t, exec (.strb c u rn rd imm12) s = .next t ∧ OnlyAdvances s t) ∧
    (cellOf (align2 (s.lshAddr u rn immH immL)) = none →
      ∃ t, exec (.strh c u rn rd immH immL) s = .next t ∧ OnlyAdvances s t)

/-- STRH to an IO register that no observer reacts to, the halfword between DISPCNT and DISPSTAT and an
untriggered DMA control register among them, is a plain store (R60, R61, R211, R241; decision D24). -/
def Obligations.StrhToOtherIoIsAStore : Prop :=
  ∀ (c : Cond) (u : Bool) (rn rd : Reg) (immH immL : BitVec 4) (s : State) (o : Nat), CondHolds c s.cpsr →
    cellOf (align2 (s.lshAddr u rn immH immL)) = some (0x04000000 + o) →
    o = 0x002 ∨ 0x010 ≤ o → o < 0x400 →
    (o = 0x0BA ∨ o = 0x0C6 ∨ o = 0x0D2 ∨ o = 0x0DE → (s.reg rd).getLsbD 15 = false) →
    ∃ t, exec (.strh c u rn rd immH immL) s = .next t ∧
      StoresBytes s t (0x04000000 + o) 2 (s.reg rd) ∧ CpuAdvances s t

/-- STRH to DISPCNT or BGnCNT: the lines up to the current one are rendered with the old mirrors, and only then
does the mirror follow the register (R61, R211, R212, R214; decision D31). -/
def Obligations.DisplayRegisterWritesFlushFirst : Prop :=
  ∀ (c : Cond) (u : Bool) (rn rd : Reg) (immH immL : BitVec 4) (s : State) (o : Nat), CondHolds c s.cpsr →
    cellOf (align2 (s.lshAddr u rn immH immL)) = some (0x04000000 + o) →
    o = 0x000 ∨ o = 0x008 ∨ o = 0x00A ∨ o = 0x00C ∨ o = 0x00E →
    ∃ t, exec (.strh c u rn rd immH immL) s = .next t ∧ CpuAdvances s t ∧
      t.pixels = (s.flushRenderQueue false).pixels ∧ t.lastRenderedLine = s.currentScanline ∧
      t.mDispcnt = (if o = 0x000 then lowHalf (s.reg rd) else s.mDispcnt) ∧
      (∀ n : Fin 4, t.mBgcnt[n.val] = if o = 0x008 + 2 * n.val then lowHalf (s.reg rd) else s.mBgcnt[n.val]) ∧
      t.read16 (0x04000000#32 + BitVec.ofNat 32 o) = lowHalf (s.reg rd) ∧
      (∀ a : Word, cellOf a ≠ some (0x04000000 + o) → cellOf a ≠ some (0x04000001 + o) →
        t.read8 a = s.read8 a) ∧
      SameOutsideBus { s with regs := t.regs } t ∧ t.paletteCache = s.paletteCache ∧
      t.mDispstat = s.mDispstat ∧ t.mVcount = s.mVcount

/-- STRH to DISPSTAT keeps bits 15:3 and computes bits 2:0, with the new match value; STRH to VCOUNT leaves it
the current scanline; both mirrors are their registers; neither renders (R203, R213; decision D30). -/
def Obligations.StatusRegisterWrites : Prop :=
  ∀ (c : Cond) (u : Bool) (rn rd : Reg) (immH immL : BitVec 4) (s : State) (o : Nat), CondHolds c s.cpsr →
    cellOf (align2 (s.lshAddr u rn immH immL)) = some (0x04000000 + o) → o = 0x004 ∨ o = 0x006 →
    ∃ t, exec (.strh c u rn rd immH immL) s = .next t ∧ CpuAdvances s t ∧
      (t.read16 0x04000004#32).extractLsb' 3 13 =
        (if o = 0x004 then lowHalf (s.reg rd) else s.read16 0x04000004#32).extractLsb' 3 13 ∧
      (t.read16 0x04000004#32).getLsbD 0 = decide (160 ≤ s.currentScanline.val) ∧
      (t.read16 0x04000004#32).getLsbD 1 = decide (s.cyclesToNextHBlank ≤ s.cfg.hblankCycles) ∧
      (t.read16 0x04000004#32).getLsbD 2 =
        decide (s.currentScanline.val = ((t.read16 0x04000004#32).extractLsb' 8 8).toNat) ∧
      t.read16 0x04000006#32 = BitVec.ofNat 16 s.currentScanline.val ∧
      t.mDispstat = t.read16 0x04000004#32 ∧ t.mVcount = t.read16 0x04000006#32 ∧
      (∀ a : Word, (∀ i, i < 4 → cellOf a ≠ some (0x04000004 + i)) → t.read8 a = s.read8 a) ∧
      t.pixels = s.pixels ∧ t.lastRenderedLine = s.lastRenderedLine ∧ t.paletteCache = s.paletteCache ∧
      t.mDispcnt = s.mDispcnt ∧ t.mBgcnt = s.mBgcnt ∧ SameOutsideBus { s with regs := t.regs } t

/-- A byte write to the IO block is a halfword write of the containing register with the byte merged in
(R49; decision D23). -/
def Obligations.ByteWritesToIoMerge : Prop :=
  ∀ (a : Word) (v : Byte) (s : State) (o : Nat), o < 0x400 → a = 0x04000000#32 + BitVec.ofNat 32 o →
    write8 a v s = write16 a
      (if o % 2 = 1 then v ++ (s.read16 a).extractLsb' 0 8 else (s.read16 a).extractLsb' 8 8 ++ v) s

/-- Outside the IO block, reading after a write of the same width at the same address gives the value
written (R57, R66, §8 property 1). -/
def Obligations.WriteThenReadGivesTheValue : Prop :=
  ∀ (a : Word) (s : State) (k : Nat), cellOf a = some k → ¬ IsIoCell k →
    (∀ v : Byte, ∃ t, write8 a v s = .next t ∧ t.read8 a = v) ∧
    (∀ v : Half, ∃ t, write16 a v s = .next t ∧ t.read16 a = v) ∧
    (∀ v : Word, ∃ t, write32 a v s = .next t ∧ t.read32 a = v)

/-! ## DMA -/

/-- STRH that sets the enable bit of a channel. Wherever source and destination lie: the halfword is stored, the
transfer's unit writes follow in ascending order, each unit read immediately before its write, from parameters
sampled before the first, a write that starts a channel refused; then the enable bit is cleared, directly. To a
destination in RAM that the source does not overlap: the destination holds the units, the control register reads
with bit 15 clear, and the channel's other registers keep their values (R241, R242, R244, R245, R246, R247, R248;
decisions D37, D38, D39, D40). -/
def Obligations.DmaTransferCopies : Prop :=
  ∀ (c : Cond) (u : Bool) (rn rd : Reg) (immH immL : BitVec 4) (s : State) (n : Fin 4), CondHolds c s.cpsr →
    align2 (s.lshAddr u rn immH immL) = BitVec.ofNat 32 (0x040000BA + 12 * n.val) →
    (s.reg rd).getLsbD 15 = true →
    let window := 0x040000B0 + 12 * n.val
    let src := s.read32 (BitVec.ofNat 32 window)
    let dst := s.read32 (BitVec.ofNat 32 (window + 4))
    let cnt := s.read16 (BitVec.ofNat 32 (window + 8))
    let wide := (s.reg rd).getLsbD 10
    let count := if cnt = 0#16 then 16384 else cnt.toNat
    let bytes := count * unitBytes wide
    let target := (unitAddr wide dst 0).toNat
    let started := s.setIo16 (0x0BA + 12 * n.val) (lowHalf (s.reg rd))
    (exec (.strh c u rn rd immH immL) s =
      andThen (runWrites BusWrite.performInside (copyWrites wide count src dst) started) fun t =>
        .next (t.setIo16 (0x0BA + 12 * n.val) (t.io16 (0x0BA + 12 * n.val) &&& 0x7FFF#16)).advancePc) ∧
    (RamRange (unitAddr wide dst 0) bytes →
    ApartFrom (unitAddr wide src 0) bytes (fun k => CellRange target bytes k ∨ CellRange (window + 10) 2 k) →
    ∃ t, exec (.strh c u rn rd immH immL) s = .next t ∧ CpuAdvances s t ∧ SameMachine s t target bytes ∧
      (∀ k, k < count → t.readUnit wide (unitAddr wide dst k) = s.readUnit wide (unitAddr wide src k)) ∧
      t.read16 (BitVec.ofNat 32 (window + 10)) = lowHalf (s.reg rd) &&& 0x7FFF#16 ∧
      (∀ a : Word, (∀ k, CellRange target bytes k ∨ CellRange (window + 10) 2 k → cellOf a ≠ some k) →
        t.read8 a = s.read8 a))

/-- A transfer of one halfword that would set the enable bit of a channel's control register is refused (R248,
U3; decision D40). -/
def Obligations.NestedTransferIsRefused : Prop :=
  ∀ (c : Cond) (u : Bool) (rn rd : Reg) (immH immL : BitVec 4) (s : State) (n m : Fin 4),
    CondHolds c s.cpsr →
    align2 (s.lshAddr u rn immH immL) = BitVec.ofNat 32 (0x040000BA + 12 * n.val) →
    (s.reg rd).getLsbD 15 = true → (s.reg rd).getLsbD 10 = false →
    let window := 0x040000B0 + 12 * n.val
    s.read16 (BitVec.ofNat 32 (window + 8)) = 1#16 →
    s.read32 (BitVec.ofNat 32 (window + 4)) = BitVec.ofNat 32 (0x040000BA + 12 * m.val) →
    (s.read16 (s.read32 (BitVec.ofNat 32 window))).getLsbD 15 = true →
    (∀ k, cellOf (align2 (s.read32 (BitVec.ofNat 32 window))) = some k → ¬ IsIoCell k) →
    exec (.strh c u rn rd immH immL) s = .refused (.nestedDmaTransfer m)

/-! ## Block transfer -/

/-- STM: the listed registers, in ascending order, stand as words from the start address on, the base is
written back where W asks for it, and nothing else changes; an empty list stores nothing (R176, R177, R178;
decision D12). -/
def Obligations.StmStoresTheListedRegisters : Prop :=
  ∀ (c : Cond) (p u x w : Bool) (rn : Reg) (reglist : BitVec 16) (s : State), CondHolds c s.cpsr →
    ¬ (w = true ∧ rn = 15) →
    let n := listedCount reglist
    let start := stmFirst (s.reg rn) p u n
    (n = 0 ∨ RamRange (align4 start) (4 * n)) →
    ∃ t, exec (.stm c p u x w rn reglist) s = .next t ∧
      SameMachine s t (align4 start).toNat (4 * n) ∧
      (∀ r : Reg, reglist.getLsbD r.val = true →
        t.read32 (start + BitVec.ofNat 32 (4 * listedBelow reglist r)) = s.reg r) ∧
      (∀ a : Word, (∀ k, CellRange (align4 start).toNat (4 * n) k → cellOf a ≠ some k) →
        t.read8 a = s.read8 a) ∧
      t.reg 15 = s.reg 15 + 4#32 ∧
      (∀ r : Reg, r ≠ 15 → t.reg r = if w = true ∧ r = rn then stmBase (s.reg rn) u n else s.reg r) ∧
      t.cpsr = s.cpsr

/-- STM, whatever the addresses: one word store for each listed register, in ascending order, with the values
the registers had; then the write-back; then the advance; with write-back to R15 it has no meaning (R176, R177,
R179, U2; decision D12). -/
def Obligations.StmIsWordStoresInOrder : Prop :=
  ∀ (c : Cond) (p u x w : Bool) (rn : Reg) (reglist : BitVec 16) (s : State), CondHolds c s.cpsr →
    let n := listedCount reglist
    let start := stmFirst (s.reg rn) p u n
    let stores := ((List.finRange 16).filter fun r => reglist.getLsbD r.val).map fun r =>
      (start + BitVec.ofNat 32 (4 * listedBelow reglist r), s.reg r)
    (w = true → rn = 15 → exec (.stm c p u x w rn reglist) s = .refused .stmWritebackToR15) ∧
    (¬ (w = true ∧ rn = 15) → exec (.stm c p u x w rn reglist) s =
      match storeWords stores s with
      | .next t => .next (if w then t.setReg rn (stmBase (s.reg rn) u n) else t).advancePc
      | .fault f => .fault f
      | .refused e => .refused e)

/-! ## Software interrupt -/

/-- SWI with any other service number is a no-op (R186, R189; decision D13, log 9, for the comment bits that hold
the number). -/
def Obligations.OtherServicesDoNothing : Prop :=
  ∀ (c : Cond) (comment : BitVec 24) (s : State), CondHolds c s.cpsr →
    comment.extractLsb' 16 8 ≠ s.cfg.swiCpuset →
    ∃ t, exec (.swi c comment) s = .next t ∧ OnlyAdvances s t

/-- SWI copy. Wherever source and destination lie, overlapping or not: unit writes in ascending order, each unit
read immediately before its write, observers and transfers included, then the advance. Where the destination lies
in RAM and the source does not overlap it: the units at R0 stand at R1 afterwards and nothing else changes; a count
of 0 changes nothing (R187, R188, §8 property 9; decisions D13, D14). -/
def Obligations.SwiCopies : Prop :=
  ∀ (c : Cond) (comment : BitVec 24) (s : State), CondHolds c s.cpsr →
    comment.extractLsb' 16 8 = s.cfg.swiCpuset → (s.reg 2).getLsbD 24 = false →
    let wide := (s.reg 2).getLsbD 26
    let count := ((s.reg 2).extractLsb' 0 21).toNat
    let bytes := count * unitBytes wide
    let target := (unitAddr wide (s.reg 1) 0).toNat
    (exec (.swi c comment) s =
      andThen (runWrites BusWrite.perform (copyWrites wide count (s.reg 0) (s.reg 1)) s) fun t =>
        .next t.advancePc) ∧
    ((count = 0 ∨ RamRange (unitAddr wide (s.reg 1) 0) bytes) →
    ApartFrom (unitAddr wide (s.reg 0) 0) bytes (CellRange target bytes) →
    ∃ t, exec (.swi c comment) s = .next t ∧ CpuAdvances s t ∧ SameMachine s t target bytes ∧
      (∀ k, k < count →
        t.readUnit wide (unitAddr wide (s.reg 1) k) = s.readUnit wide (unitAddr wide (s.reg 0) k)) ∧
      (∀ a : Word, (∀ k, CellRange target bytes k → cellOf a ≠ some k) → t.read8 a = s.read8 a))

/-- SWI fill. Wherever the destination lies: writes of one value, read before the first of them, to ascending
units, observers and transfers included, then the advance. Where the destination lies in RAM: every unit at R1
holds the unit read at R0, and nothing else changes (R187, R188; decisions D13, D14). -/
def Obligations.SwiFills : Prop :=
  ∀ (c : Cond) (comment : BitVec 24) (s : State), CondHolds c s.cpsr →
    comment.extractLsb' 16 8 = s.cfg.swiCpuset → (s.reg 2).getLsbD 24 = true →
    let wide := (s.reg 2).getLsbD 26
    let count := ((s.reg 2).extractLsb' 0 21).toNat
    let bytes := count * unitBytes wide
    let target := (unitAddr wide (s.reg 1) 0).toNat
    (exec (.swi c comment) s =
      andThen (runWrites BusWrite.perform (fillWrites wide count (s.readUnit wide (s.reg 0)) (s.reg 1)) s)
        fun t => .next t.advancePc) ∧
    ((count = 0 ∨ RamRange (unitAddr wide (s.reg 1) 0) bytes) →
    ∃ t, exec (.swi c comment) s = .next t ∧ CpuAdvances s t ∧ SameMachine s t target bytes ∧
      (∀ k, k < count → t.readUnit wide (unitAddr wide (s.reg 1) k) = s.readUnit wide (s.reg 0)) ∧
      (∀ a : Word, (∀ k, CellRange target bytes k → cellOf a ≠ some k) → t.read8 a = s.read8 a))

/-! ## Every other word -/

/-- A word on no row is a silent no-op (R102, R195). -/
def Obligations.UnimplementedWordsDoNothing : Prop :=
  ∀ (c : Cond) (rest : BitVec 28) (s : State), CondHolds c s.cpsr ∨ CondFails c s.cpsr →
    ∃ t, exec (.nopUnimplemented c rest) s = .next t ∧ OnlyAdvances s t

/-! ## The whole machine -/

/-- An instruction writes no register but R15 and its own destinations (R12). -/
def Obligations.OnlyDestinationsAreWritten : Prop :=
  ∀ (i : Instr) (s t : State), exec i s = .next t →
    ∀ r : Reg, r ≠ 15 → r ∉ i.destinations → t.reg r = s.reg r

/-- `SetNZ(v)` gives N bit 31 of `v` and Z whether `v` is 0, and leaves bits 29:0. The
instructions that set flags, where their condition holds, set them from their result; no other instruction writes
the status register, none writes bits 29:0, and neither the clock nor the host's key write touches it (R18). -/
def Obligations.OnlyFlagSettersWriteTheStatus : Prop :=
  (∀ (s : State) (v : Word), FlagsFrom s (s.setNZ v) true v) ∧
  (∀ (i : Instr) (s t : State), exec i s = .next t →
    t.cpsr.extractLsb' 0 30 = s.cpsr.extractLsb' 0 30 ∧
    (i.setsFlags = true → CondHolds i.cond s.cpsr → ∃ v, i.result s = some v ∧ FlagsFrom s t true v) ∧
    (i.setsFlags = false → t.cpsr = s.cpsr)) ∧
  (∀ (s : State) (c : Nat) (keys : Half), (s.advance c).cpsr = s.cpsr ∧ (s.setKeys keys).cpsr = s.cpsr)

/-- An instruction that makes no Bus write changes no byte and nothing outside the CPU; no instruction changes
the parameters, the ROM image or the Ppu's time (R64, R201, R249). -/
def Obligations.OnlyBusWritesReachOutside : Prop :=
  ∀ (i : Instr) (s t : State), exec i s = .next t →
    (i.writesBus = false → SameOutsideCpu s t ∧ SameBytes s t) ∧
    t.cfg = s.cfg ∧ t.rom = s.rom ∧ t.currentScanline = s.currentScanline ∧
    t.cyclesToNextHBlank = s.cyclesToNextHBlank

/-- Every step keeps the invariant of the machine. -/
def Obligations.StepKeepsTheInvariant : Prop :=
  ∀ s t : State, s.Inv → step s = .next t → t.Inv

/-- The state after reset has the invariant. -/
def Obligations.ResetMeetsTheInvariant : Prop := State.reset.Inv

/-! ## The Ppu -/

/-- `advance(c)`. In every state: the registers, the status register, the parameters, the ROM image, the palette
cache, the mirrors of DISPCNT and BGnCNT, and every byte outside DISPSTAT and VCOUNT stay. With a budget in range:
the cycles are taken from the budget, and as many scanlines end as make it positive, each adding `H_CYCLES`; no
cycle is lost. Up to a frame of scanlines: where line 160 is entered among them, the picture is that of the flush of
the frame at line 160, with `lap`, and `lastRenderedLine` is 160; where it is not, nothing is rendered (R206, R209,
R210; decisions D29, log 23, and D32, log 24). -/
def Obligations.AdvanceMovesTime : Prop :=
  ∀ (s : State) (c : Nat),
    let t := s.advance c
    ((∀ r : Reg, t.reg r = s.reg r) ∧ t.cpsr = s.cpsr ∧ t.cfg = s.cfg ∧ t.rom = s.rom ∧
      t.paletteCache = s.paletteCache ∧ t.mDispcnt = s.mDispcnt ∧ t.mBgcnt = s.mBgcnt ∧
      ∀ a : Word, (∀ i, i < 4 → cellOf a ≠ some (0x04000004 + i)) → t.read8 a = s.read8 a) ∧
    (1 ≤ s.cfg.hCycles → 1 ≤ s.cyclesToNextHBlank → s.cyclesToNextHBlank ≤ s.cfg.hCycles →
      ∃ k : Nat, t.cyclesToNextHBlank = s.cyclesToNextHBlank - c + k * s.cfg.hCycles ∧
        1 ≤ t.cyclesToNextHBlank ∧ t.cyclesToNextHBlank ≤ s.cfg.hCycles ∧
        t.currentScanline.val = (s.currentScanline.val + k) % 228 ∧
        (k ≤ 228 →
          let entered := ∃ j, 1 ≤ j ∧ j ≤ k ∧ (s.currentScanline.val + j) % 228 = 160
          (entered → t.pixels = (({ s with currentScanline := 160 } : State).flushRenderQueue true).pixels ∧
            t.lastRenderedLine = 160) ∧
          (¬ entered → t.pixels = s.pixels ∧ t.lastRenderedLine = s.lastRenderedLine)))

/-- Repeated `advance(H_CYCLES)` cycles the scanline through 0 to 227, wrapping every 228 lines, with VCOUNT
equal to it, V-blank set on exactly the lines 160 to 227, and the budget as it was (R206, R208; decision D29, log 23, for the
budget). -/
def Obligations.ScanlinesCycle : Prop :=
  ∀ (s : State) (k : Nat), 1 ≤ s.cfg.hCycles → 1 ≤ s.cyclesToNextHBlank →
    s.cyclesToNextHBlank ≤ s.cfg.hCycles → 1 ≤ k →
    let t := Nat.iterate (fun v : State => v.advance v.cfg.hCycles) k s
    t.currentScanline.val = (s.currentScanline.val + k) % 228 ∧
    t.cyclesToNextHBlank = s.cyclesToNextHBlank ∧
    t.read16 0x04000006#32 = BitVec.ofNat 16 t.currentScanline.val ∧
    (t.read16 0x04000004#32).getLsbD 0 = decide (160 ≤ t.currentScanline.val ∧ t.currentScanline.val ≤ 227)

/-- A flush renders exactly the visible lines after the last rendered one up to the current one, wrapping, and
all of them where a whole frame has elapsed; the others keep their pixels (R210; decision D32 for `lap`). -/
def Obligations.FlushRendersTheElapsedLines : Prop :=
  ∀ (s : State) (lap : Bool) (line : Fin 160),
    let elapsed := (s.currentScanline.val + 228 - s.lastRenderedLine.val) % 228
    let count := if elapsed = 0 ∧ lap = true then 228 else elapsed
    (s.flushRenderQueue lap).lastRenderedLine = s.currentScanline ∧
    (s.flushRenderQueue lap).pixels[line.val] =
      if (line.val + 227 - s.lastRenderedLine.val) % 228 < count then s.renderedRow line.val
      else s.pixels[line.val]

/-- The frame buffer as the host reads it: 153600 bytes, with the red, green, blue and alpha of the pixel at column
`x` of a line at offset `(line × 240 + x) × 4` (R31, R216, R305; decision D35, log 30). Mode 3: each pixel of the line
is the VRAM halfword of its place, expanded, and the other lines keep their pixels (R58, R216, R219; decision D25,
log 21, for the colour fields). -/
def Obligations.Mode3ShowsTheBitmap : Prop :=
  (∀ s : State, s.frameBytes.length = 153600 ∧ ∀ (line : Fin 160) (x : Fin 240),
    let offset := (line.val * 240 + x.val) * 4
    s.frameBytes[offset]? = some (s.pixel line x).r ∧ s.frameBytes[offset + 1]? = some (s.pixel line x).g ∧
    s.frameBytes[offset + 2]? = some (s.pixel line x).b ∧ s.frameBytes[offset + 3]? = some (s.pixel line x).a) ∧
  ∀ (s : State) (line l : Fin 160) (x : Fin 240), s.mDispcnt.getLsbD 7 = false →
    s.mDispcnt.extractLsb' 0 3 = 3#3 →
    (l ≠ line → (s.renderScanLine line).pixel l x = s.pixel l x) ∧
    let colour := s.read16 (BitVec.ofNat 32 (0x06000000 + (line.val * 240 + x.val) * 2))
    let pixel := (s.renderScanLine line).pixel line x
    pixel.r.toNat = colour.toNat % 32 * 8 + colour.toNat % 32 / 4 ∧
    pixel.g.toNat = colour.toNat / 32 % 32 * 8 + colour.toNat / 32 % 32 / 4 ∧
    pixel.b.toNat = colour.toNat / 1024 % 32 * 8 + colour.toNat / 1024 % 32 / 4 ∧
    pixel.a = 0xFF#8

/-- Forced blank and the modes other than 0 and 3 show the colour of palette entry 0 in every pixel (R215, R217,
R223; decision D34). -/
def Obligations.BlankLinesShowTheBackdrop : Prop :=
  ∀ (s : State) (line : Fin 160) (x : Fin 240),
    s.mDispcnt.getLsbD 7 = true ∨ (s.mDispcnt.extractLsb' 0 3 ≠ 0#3 ∧ s.mDispcnt.extractLsb' 0 3 ≠ 3#3) →
    (s.renderScanLine line).pixel line x =
      ⟨(s.paletteCache[0]).r, (s.paletteCache[0]).g, (s.paletteCache[0]).b, 0xFF#8⟩

/-- Mode 0: a pixel shows the lowest-numbered enabled layer that is not transparent there, and the backdrop
where there is none (R220, R221; decision D33, log 21, for the enable bits 8 + n). -/
def Obligations.Mode0ShowsTheTopLayer : Prop :=
  ∀ (s : State) (line : Fin 160) (x : Fin 240), s.mDispcnt.getLsbD 7 = false →
    s.mDispcnt.extractLsb' 0 3 = 0#3 →
    let shown (n : Fin 4) : Option Rgb :=
      if s.mDispcnt.getLsbD (8 + n.val) then s.layerColour n line.val x.val else none
    let pixel := (s.renderScanLine line).pixel line x
    (∀ (n : Fin 4) (c : Rgb), shown n = some c → (∀ m : Fin 4, m < n → shown m = none) →
      pixel = ⟨c.r, c.g, c.b, 0xFF#8⟩) ∧
    ((∀ n : Fin 4, shown n = none) →
      pixel = ⟨(s.paletteCache[0]).r, (s.paletteCache[0]).g, (s.paletteCache[0]).b, 0xFF#8⟩)

/-- A pixel of a layer, at 8 and at 4 bits per pixel, from the tile-map entry and the tile's bytes; index 0 is
transparent (R221, R222; decision D33). -/
def Obligations.LayerPixels : Prop :=
  ∀ (s : State) (n : Fin 4) (line : Fin 160) (x : Fin 240),
    let cnt := (s.mBgcnt[n.val]).toNat
    let charBase := 0x06000000 + cnt / 4 % 4 * 0x4000
    let screenBase := 0x06000000 + cnt / 256 % 32 * 0x800
    let entry := (s.read16 (BitVec.ofNat 32 (screenBase + (line.val / 8 * 32 + x.val / 8) * 2))).toNat
    let tile := entry % 1024
    let tx := if entry / 1024 % 2 = 1 then 7 - x.val % 8 else x.val % 8
    let ty := if entry / 2048 % 2 = 1 then 7 - line.val % 8 else line.val % 8
    let wideIndex := (s.read8 (BitVec.ofNat 32 (charBase + tile * 64 + ty * 8 + tx))).toNat
    let pair := (s.read8 (BitVec.ofNat 32 (charBase + tile * 32 + ty * 4 + tx / 2))).toNat
    let narrowIndex := if tx % 2 = 1 then pair / 16 else pair % 16
    s.layerColour n line.val x.val =
      if cnt / 128 % 2 = 1 then (if wideIndex = 0 then none else s.paletteCache[wideIndex]?)
      else (if narrowIndex = 0 then none else s.paletteCache[entry / 4096 * 16 + narrowIndex]?)

/-! ## Reset and the host -/

/-- The machine right after construction with the default parameters (R4, R34, R35; decisions D16, D17, D24,
D30, D35, D41). -/
def Obligations.ResetValues : Prop :=
  (∀ i : Reg, i ≠ 15 → State.reset.reg i = 0#32) ∧ State.reset.reg 15 = 0x08000008#32 ∧
  State.reset.cpsr = 0x000000D3#32 ∧ State.reset.rom = none ∧ State.reset.mem = [] ∧
  State.reset.read16 0x04000004#32 = 0x0004#16 ∧ State.reset.read16 0x04000130#32 = 0x03FF#16 ∧
  (∀ k : Nat, k ≠ 0x04000004 → k ≠ 0x04000130 → k ≠ 0x04000131 → State.reset.mem.read k = 0#8) ∧
  (∀ i : Fin 512, State.reset.paletteCache[i.val] = ⟨0, 0, 0⟩) ∧
  State.reset.currentScanline = 0 ∧ State.reset.cyclesToNextHBlank = 1232 ∧
  State.reset.lastRenderedLine = 0 ∧ State.reset.mDispcnt = 0#16 ∧ State.reset.mDispstat = 0x0004#16 ∧
  State.reset.mVcount = 0#16 ∧ (∀ n : Fin 4, State.reset.mBgcnt[n.val] = 0#16) ∧
  (∀ (line : Fin 160) (x : Fin 240), State.reset.pixel line x = ⟨0, 0, 0, 0xFF#8⟩)

/-- `loadRom`: an image with a byte replaces the ROM, sets the registers and the status register to their reset
values and `lastRenderedLine` to 0, and nothing else; an empty one is refused (R301, R302; decision D42, log 28,
for what is reset and that nothing else changes). -/
def Obligations.LoadRomResetsTheCpu : Prop :=
  ∀ s : State, s.loadRom [] = .error .emptyRom ∧
    ∀ bytes : List Byte, bytes ≠ [] → ∃ t, s.loadRom bytes = .ok t ∧ t.rom = some bytes ∧
      (∀ i : Fin 15, t.reg ⟨i.val, by omega⟩ = s.cfg.regReset[i.val]) ∧
      t.reg 15 = s.cfg.entryAddress + 8#32 ∧ t.cpsr = s.cfg.cpsrReset ∧ t.lastRenderedLine = 0 ∧
      t.cfg = s.cfg ∧ t.mem = s.mem ∧ t.paletteCache = s.paletteCache ∧
      t.currentScanline = s.currentScanline ∧ t.cyclesToNextHBlank = s.cyclesToNextHBlank ∧
      t.mDispcnt = s.mDispcnt ∧ t.mDispstat = s.mDispstat ∧ t.mVcount = s.mVcount ∧ t.mBgcnt = s.mBgcnt ∧
      t.pixels = s.pixels

/-- The host's key value stands in KEYINPUT and nothing else changes (R27, R304; decision D45). -/
def Obligations.KeysReachTheRegister : Prop :=
  ∀ (s : State) (keys : Half),
    (s.setKeys keys).read16 0x04000130#32 = keys ∧
    (∀ a : Word, cellOf a ≠ some 0x04000130 → cellOf a ≠ some 0x04000131 →
      (s.setKeys keys).read8 a = s.read8 a) ∧
    SameOutsideBus s (s.setKeys keys) ∧ SamePpu s (s.setKeys keys) ∧
    (s.setKeys keys).paletteCache = s.paletteCache

/-- With one cycle for every word and the default frame budget, one tick is the run of 228 × `H_CYCLES` steps,
and that is exactly one frame: the scanline and the budget end where they began (R303; decisions D29, D36). -/
def Obligations.OneTickIsOneFrame : Prop :=
  ∀ s : State, s.cfg.cyclesListed = [] → s.cfg.cyclesElse = 1 → 1 ≤ s.cfg.hCycles →
    s.cfg.frameCycles = 228 * s.cfg.hCycles → 1 ≤ s.cyclesToNextHBlank →
    s.cyclesToNextHBlank ≤ s.cfg.hCycles →
    tick s = Host.Core.run core (228 * s.cfg.hCycles) s ∧
    ∀ t, tick s = .next t →
      t.currentScanline = s.currentScanline ∧ t.cyclesToNextHBlank = s.cyclesToNextHBlank
end

