-- ==== Sys2Proof/Laws/Memory.lean ====
section
/-! SUPPORT. The laws of memory: read after write, and the canonical form. The read laws hold of every list
of cells; only the canonical form is an invariant. -/

namespace Sys2Proof.Machine

@[simp] theorem Memory.read_nil (a : Nat) : Memory.read [] a = Memory.unlisted a := rfl

theorem Memory.read_erase_same (m : Memory) (a : Nat) : (m.erase a).read a = Memory.unlisted a := by
  induction m with
  | nil => rfl
  | cons cell rest ih =>
    obtain ⟨k, b⟩ := cell
    by_cases h : k = a
    · simpa [Memory.erase, h] using ih
    · simpa [Memory.erase, Memory.read, h] using ih

theorem Memory.read_erase_other (m : Memory) {a b : Nat} (h : b ≠ a) :
    (m.erase a).read b = m.read b := by
  induction m with
  | nil => rfl
  | cons cell rest ih =>
    obtain ⟨k, v⟩ := cell
    by_cases hk : k = a
    · have : k ≠ b := fun e => h (e ▸ hk)
      subst hk
      simpa [Memory.erase, Memory.read, this] using ih
    · by_cases hb : k = b
      · subst hb; simp [Memory.erase, Memory.read, hk]
      · simpa [Memory.erase, Memory.read, hk, hb] using ih

theorem Memory.read_insert_same (m : Memory) (a : Nat) (v : Byte) : (m.insert a v).read a = v := by
  induction m with
  | nil => simp [Memory.insert, Memory.read]
  | cons cell rest ih =>
    obtain ⟨k, b⟩ := cell
    by_cases h1 : k < a
    · have : k ≠ a := by omega
      simpa [Memory.insert, h1, Memory.read, this] using ih
    · by_cases h2 : k = a <;> simp [Memory.insert, h1, h2, Memory.read]

theorem Memory.read_insert_other (m : Memory) {a b : Nat} (v : Byte) (h : b ≠ a) :
    (m.insert a v).read b = m.read b := by
  induction m with
  | nil => simp [Memory.insert, Memory.read, Ne.symm h]
  | cons cell rest ih =>
    obtain ⟨k, c⟩ := cell
    by_cases h1 : k < a
    · by_cases hb : k = b
      · subst hb; simp [Memory.insert, h1, Memory.read]
      · simpa [Memory.insert, h1, Memory.read, hb] using ih
    · by_cases h2 : k = a
      · subst h2; simp [Memory.insert, Memory.read, Ne.symm h]
      · simp [Memory.insert, h1, h2, Memory.read, Ne.symm h]

/-- A read after a write to the same address gives the value written. -/
@[simp] theorem Memory.read_write_same (m : Memory) (a : Nat) (v : Byte) : (m.write a v).read a = v := by
  unfold Memory.write
  split
  · next h => rw [h, Memory.read_erase_same]
  · exact Memory.read_insert_same m a v

/-- A write leaves every other address alone. -/
theorem Memory.read_write_other (m : Memory) {a b : Nat} (v : Byte) (h : b ≠ a) :
    (m.write a v).read b = m.read b := by
  unfold Memory.write
  split
  · exact Memory.read_erase_other m h
  · exact Memory.read_insert_other m v h

/-- Both laws at once. -/
theorem Memory.read_write (m : Memory) (a b : Nat) (v : Byte) :
    (m.write a v).read b = if b = a then v else m.read b := by
  split
  · next h => rw [h, Memory.read_write_same]
  · next h => exact Memory.read_write_other m v h

/-! ## The canonical form -/

/-- Rising, said of a list with a first cell. -/
theorem Memory.rising_cons_iff (k : Nat) (b : Byte) (m : Memory) :
    Memory.rising ((k, b) :: m) = true ↔ (∀ c ∈ m, k < c.1) ∧ m.rising = true := by
  induction m generalizing k b with
  | nil => simp [Memory.rising]
  | cons cell rest ih =>
    obtain ⟨k', b'⟩ := cell
    constructor
    · intro h
      simp only [Memory.rising, Bool.and_eq_true, decide_eq_true_eq] at h
      refine ⟨?_, h.2⟩
      intro c hc
      rcases List.mem_cons.1 hc with rfl | hc
      · exact h.1
      · exact lt_trans h.1 (((ih k' b').1 h.2).1 c hc)
    · rintro ⟨h1, h2⟩
      simp only [Memory.rising, Bool.and_eq_true, decide_eq_true_eq]
      exact ⟨h1 (k', b') (by simp), h2⟩

theorem Memory.rising_erase {m : Memory} (a : Nat) (h : m.rising = true) : (m.erase a).rising = true := by
  induction m with
  | nil => rfl
  | cons cell rest ih =>
    obtain ⟨k, b⟩ := cell
    rw [Memory.rising_cons_iff] at h
    by_cases hk : k = a
    · simpa [Memory.erase, hk] using ih h.2
    · have : (Memory.erase ((k, b) :: rest) a) = (k, b) :: Memory.erase rest a := by
        simp [Memory.erase, hk]
      rw [this, Memory.rising_cons_iff]
      exact ⟨fun c hc => h.1 c (List.mem_of_mem_filter hc), ih h.2⟩

theorem Memory.mem_insert {m : Memory} {a : Nat} {v : Byte} {c : Host.Cell}
    (h : c ∈ m.insert a v) : c = (a, v) ∨ c ∈ m := by
  induction m with
  | nil => simpa [Memory.insert] using h
  | cons cell rest ih =>
    obtain ⟨k, b⟩ := cell
    unfold Memory.insert at h
    split at h
    · rcases List.mem_cons.1 h with rfl | h
      · simp
      · rcases ih h with h | h <;> simp [h]
    · split at h
      · rcases List.mem_cons.1 h with rfl | h <;> simp_all
      · rcases List.mem_cons.1 h with rfl | h <;> simp_all

theorem Memory.rising_insert {m : Memory} (a : Nat) (v : Byte) (h : m.rising = true) :
    (m.insert a v).rising = true := by
  induction m with
  | nil => rfl
  | cons cell rest ih =>
    obtain ⟨k, b⟩ := cell
    have hc := (Memory.rising_cons_iff k b rest).1 h
    unfold Memory.insert
    split
    · next h1 =>
      rw [Memory.rising_cons_iff]
      refine ⟨fun c hcm => ?_, ih hc.2⟩
      rcases Memory.mem_insert hcm with rfl | hcm
      · exact h1
      · exact hc.1 c hcm
    · split
      · next h2 => rw [Memory.rising_cons_iff]; exact ⟨fun c hcm => h2 ▸ hc.1 c hcm, hc.2⟩
      · next h1 h2 =>
        rw [Memory.rising_cons_iff]
        refine ⟨fun c hcm => ?_, h⟩
        have : a < k := by omega
        rcases List.mem_cons.1 hcm with rfl | hcm
        · exact this
        · exact lt_trans this (hc.1 c hcm)

/-- The canonical form, said of its cells. -/
theorem Memory.wf_iff (m : Memory) :
    m.wf = true ↔ m.rising = true ∧ ∀ c ∈ m, isStorage c.1 = true ∧ c.2 ≠ Memory.unlisted c.1 := by
  simp [Memory.wf, List.all_eq_true]

@[simp] theorem Memory.wf_nil : Memory.wf [] = true := rfl

/-- A write to an address of storage keeps the canonical form. -/
theorem Memory.wf_write {m : Memory} {a : Nat} (v : Byte) (h : m.wf = true) (ha : isStorage a = true) :
    (m.write a v).wf = true := by
  rw [Memory.wf_iff] at h ⊢
  unfold Memory.write
  split
  · exact ⟨Memory.rising_erase a h.1, fun c hc => h.2 c (List.mem_of_mem_filter hc)⟩
  · next hv =>
    refine ⟨Memory.rising_insert a v h.1, fun c hc => ?_⟩
    rcases Memory.mem_insert hc with rfl | hc
    · exact ⟨ha, hv⟩
    · exact h.2 c hc

end Sys2Proof.Machine
end

