-- ==== Sys2Proof/Laws/Address.lean ====
section
/-! SUPPORT. The laws of address decode: where an address lies, and that an aligned access lies inside one
region (20_memory.md R40, R41, R45). -/

namespace Sys2Proof.Machine

/-! ### Alignment -/

theorem align4_toNat (a : Word) : (align4 a).toNat = a.toNat / 4 * 4 := by
  have e : align4 a = (a >>> 2) <<< 2 := by
    apply BitVec.eq_of_getLsbD_eq
    intro i hi
    have hm : (0xFFFFFFFC#32).getLsbD i = decide (2 ≤ i) := by
      revert i; decide
    simp only [align4, BitVec.getLsbD_and, hm, BitVec.getLsbD_shiftLeft, BitVec.getLsbD_ushiftRight]
    by_cases h : i < 2
    · have : ¬ 2 ≤ i := by omega
      simp [h, this]
    · have e2 : 2 + (i - 2) = i := by omega
      have : 2 ≤ i := by omega
      simp [h, hi, e2, this]
  rw [e, BitVec.toNat_shiftLeft, BitVec.toNat_ushiftRight, Nat.shiftLeft_eq, Nat.shiftRight_eq_div_pow]
  have := a.isLt
  omega

theorem align2_toNat (a : Word) : (align2 a).toNat = a.toNat / 2 * 2 := by
  have e : align2 a = (a >>> 1) <<< 1 := by
    apply BitVec.eq_of_getLsbD_eq
    intro i hi
    have hm : (0xFFFFFFFE#32).getLsbD i = decide (1 ≤ i) := by
      revert i; decide
    simp only [align2, BitVec.getLsbD_and, hm, BitVec.getLsbD_shiftLeft, BitVec.getLsbD_ushiftRight]
    by_cases h : i < 1
    · have : ¬ 1 ≤ i := by omega
      simp [h, this]
    · have e2 : 1 + (i - 1) = i := by omega
      have : 1 ≤ i := by omega
      simp [h, hi, e2, this]
  rw [e, BitVec.toNat_shiftLeft, BitVec.toNat_ushiftRight, Nat.shiftLeft_eq, Nat.shiftRight_eq_div_pow]
  have := a.isLt
  omega

@[simp] theorem align4_align4 (a : Word) : align4 (align4 a) = align4 a := by
  apply BitVec.eq_of_toNat_eq; simp only [align4_toNat]; omega

@[simp] theorem align2_align2 (a : Word) : align2 (align2 a) = align2 a := by
  apply BitVec.eq_of_toNat_eq; simp only [align2_toNat]; omega

@[simp] theorem align2_align4 (a : Word) : align2 (align4 a) = align4 a := by
  apply BitVec.eq_of_toNat_eq; simp only [align2_toNat, align4_toNat]; omega

/-- The address of a byte of an aligned word. -/
theorem align4_add_toNat (a : Word) {i : Nat} (h : i < 4) :
    (align4 a + BitVec.ofNat 32 i).toNat = a.toNat / 4 * 4 + i := by
  have := a.isLt
  rw [BitVec.toNat_add, align4_toNat, BitVec.toNat_ofNat]
  omega

/-- The address of a byte of an aligned halfword. -/
theorem align2_add_toNat (a : Word) {i : Nat} (h : i < 2) :
    (align2 a + BitVec.ofNat 32 i).toNat = a.toNat / 2 * 2 + i := by
  have := a.isLt
  rw [BitVec.toNat_add, align2_toNat, BitVec.toNat_ofNat]
  omega

/-- The second halfword of an aligned word is aligned. -/
@[simp] theorem align2_align4_add_two (a : Word) : align2 (align4 a + 2#32) = align4 a + 2#32 := by
  apply BitVec.eq_of_toNat_eq
  rw [align2_toNat, align4_add_toNat a (by decide)]
  omega

/-! ### Pages -/

/-- The page of an address, as a number. -/
theorem page_toNat (a : Word) : (a.extractLsb' 24 8).toNat = a.toNat / 0x1000000 := by
  have := a.isLt
  rw [BitVec.extractLsb'_toNat, Nat.shiftRight_eq_div_pow]
  omega

/-- The region of a page, said with numbers. -/
theorem pageRegion_iff (p : BitVec 8) (r : Region) : pageRegion p = some r ↔
    match r with
    | .bios => p.toNat = 0
    | .ewram => p.toNat = 2
    | .iwram => p.toNat = 3
    | .io => p.toNat = 4
    | .pal => p.toNat = 5
    | .vram => p.toNat = 6
    | .oam => p.toNat = 7
    | .rom => p.toNat = 8 ∨ p.toNat = 9 := by
  have key : ∀ n : Nat, n < 256 → (p = BitVec.ofNat 8 n ↔ p.toNat = n) := by
    intro n hn
    constructor
    · rintro rfl; simp [BitVec.toNat_ofNat]; omega
    · intro h; apply BitVec.eq_of_toNat_eq; simp [h]; omega
  unfold pageRegion
  simp only [key 0 (by decide), key 2 (by decide), key 3 (by decide), key 4 (by decide), key 5 (by decide),
    key 6 (by decide), key 7 (by decide), key 8 (by decide), key 9 (by decide)]
  cases r <;> split_ifs <;> simp <;> omega

/-- Where an address lies, said with numbers. -/
theorem decodeAddr_eq_some (a : Word) (r : Region) (o : Nat) : decodeAddr a = some (r, o) ↔
    match r with
    | .bios => a.toNat / 0x1000000 = 0 ∧ o = a.toNat ∧ o < 0x4000
    | .ewram => a.toNat / 0x1000000 = 2 ∧ o = a.toNat % 0x1000000 % 0x40000
    | .iwram => a.toNat / 0x1000000 = 3 ∧ o = a.toNat % 0x1000000 % 0x8000
    | .io => a.toNat / 0x1000000 = 4 ∧ o = a.toNat % 0x1000000 ∧ o < 0x400
    | .pal => a.toNat / 0x1000000 = 5 ∧ o = a.toNat % 0x1000000 % 0x400
    | .vram => a.toNat / 0x1000000 = 6 ∧ o = a.toNat % 0x1000000 % 0x18000
    | .oam => a.toNat / 0x1000000 = 7 ∧ o = a.toNat % 0x1000000 % 0x400
    | .rom => (a.toNat / 0x1000000 = 8 ∨ a.toNat / 0x1000000 = 9) ∧ o = a.toNat - 0x08000000 := by
  have h1 : decodeAddr a = some (r, o) ↔
      pageRegion (a.extractLsb' 24 8) = some r ∧ regionOffset r a = some o := by
    unfold decodeAddr
    generalize pageRegion (a.extractLsb' 24 8) = p
    cases p with
    | none => simp
    | some q =>
      dsimp only
      constructor
      · intro h
        cases ho : regionOffset q a with
        | none => simp [ho] at h
        | some x =>
          rw [ho] at h
          simp only [Option.some.injEq, Prod.mk.injEq] at h
          obtain ⟨rfl, rfl⟩ := h
          exact ⟨rfl, ho⟩
      · rintro ⟨h, ho⟩
        obtain rfl := Option.some.inj h
        rw [ho]
  rw [h1, pageRegion_iff, page_toNat]
  have ha := a.isLt
  have hin (off cap : Nat) (p q : Prop) (hp : p → (off < cap ∧ off = o ↔ q)) :
      (p ∧ (if off < cap then some off else none) = some o) ↔ (p ∧ q) := by
    refine and_congr_right fun h => Iff.trans ?_ (hp h)
    split <;> simp_all
  have hsome (x : Nat) (p q : Prop) (hp : p → (x = o ↔ q)) : (p ∧ some x = some o) ↔ (p ∧ q) :=
    and_congr_right fun h => Iff.trans (Option.some_inj) (hp h)
  cases r
  · refine hin (a.toNat - Region.bios.base) Region.bios.capacity _ _ fun h => ?_
    rw [show Region.bios.base = 0 from rfl, show Region.bios.capacity = 0x4000 from rfl]; omega
  · exact hsome ((a.toNat - 0x02000000) % 0x40000) _ _ fun h => by omega
  · exact hsome ((a.toNat - 0x03000000) % 0x8000) _ _ fun h => by omega
  · refine hin (a.toNat - Region.io.base) Region.io.capacity _ _ fun h => ?_
    rw [show Region.io.base = 0x04000000 from rfl, show Region.io.capacity = 0x400 from rfl]; omega
  · exact hsome ((a.toNat - 0x05000000) % 0x400) _ _ fun h => by omega
  · exact hsome ((a.toNat - 0x06000000) % 0x18000) _ _ fun h => by omega
  · exact hsome ((a.toNat - 0x07000000) % 0x400) _ _ fun h => by omega
  · exact hsome (a.toNat - 0x08000000) _ _ fun h => by omega

/-- The cell of an address, region by region. -/
theorem cellOf_eq_some (a : Word) (k : Nat) : cellOf a = some k ↔
    ∃ r o, decodeAddr a = some (r, o) ∧ r ≠ .bios ∧ r ≠ .rom ∧ k = r.base + o := by
  unfold cellOf
  cases hd : decodeAddr a with
  | none => simp
  | some p =>
    obtain ⟨r, o⟩ := p
    cases r <;> simp [eq_comm]

/-- A region whose bytes are cells of memory. -/
def Region.writable (r : Region) : Bool := r != .bios && r != .rom

theorem decodeAddr_lt_capacity {a : Word} {r : Region} {o : Nat} (h : decodeAddr a = some (r, o)) :
    o < r.capacity := by
  rw [decodeAddr_eq_some] at h
  have := a.isLt
  cases r <;> simp only [Region.capacity] at * <;> omega

/-- The cells behind addresses are cells of storage. -/
theorem isStorage_of_lt {r : Region} {o : Nat} (hr : r.writable = true) (h : o < r.capacity) :
    isStorage (r.base + o) = true := by
  cases r <;> simp [Region.writable, Region.base, Region.capacity, isStorage] at * <;> omega

theorem isStorage_of_decode {a : Word} {r : Region} {o : Nat} (h : decodeAddr a = some (r, o))
    (hr : r.writable = true) : isStorage (r.base + o) = true :=
  isStorage_of_lt hr (decodeAddr_lt_capacity h)

/-- The bytes of an aligned word lie side by side in one region. -/
theorem decodeAddr_align4 {a : Word} {r : Region} {o : Nat} (h : decodeAddr (align4 a) = some (r, o)) {i : Nat}
    (hi : i < 4) : decodeAddr (align4 a + BitVec.ofNat 32 i) = some (r, o + i) ∧ o % 4 = 0 ∧
      o + i < r.capacity := by
  rw [decodeAddr_eq_some, align4_toNat] at h
  have ha := a.isLt
  have hk : o % 4 = 0 ∧ o + i < r.capacity := by
    cases r <;> simp only [Region.capacity] at * <;> omega
  refine ⟨?_, hk⟩
  rw [decodeAddr_eq_some, align4_add_toNat a hi]
  cases r <;> simp only [Region.capacity] at * <;> omega

/-- The bytes of an aligned halfword lie side by side in one region. -/
theorem decodeAddr_align2 {a : Word} {r : Region} {o : Nat} (h : decodeAddr (align2 a) = some (r, o)) {i : Nat}
    (hi : i < 2) : decodeAddr (align2 a + BitVec.ofNat 32 i) = some (r, o + i) ∧ o % 2 = 0 ∧
      o + i < r.capacity := by
  rw [decodeAddr_eq_some, align2_toNat] at h
  have ha := a.isLt
  have hk : o % 2 = 0 ∧ o + i < r.capacity := by
    cases r <;> simp only [Region.capacity] at * <;> omega
  refine ⟨?_, hk⟩
  rw [decodeAddr_eq_some, align2_add_toNat a hi]
  cases r <;> simp only [Region.capacity] at * <;> omega

/-- The bytes of an aligned word beside an unmapped one are unmapped. -/
theorem decodeAddr_align4_none {a : Word} (h : decodeAddr (align4 a) = none) {i : Nat} (hi : i < 4) :
    decodeAddr (align4 a + BitVec.ofNat 32 i) = none := by
  by_contra hne
  obtain ⟨⟨r, o⟩, hro⟩ := Option.ne_none_iff_exists'.1 hne
  rw [decodeAddr_eq_some, align4_add_toNat a hi] at hro
  have ha := a.isLt
  have : ∃ o', decodeAddr (align4 a) = some (r, o') := by
    cases r <;> simp only [decodeAddr_eq_some, align4_toNat] at * <;>
      first
      | exact ⟨_, by omega, rfl⟩
      | exact ⟨_, by omega, rfl, by omega⟩
  obtain ⟨o', h'⟩ := this
  rw [h] at h'; cases h'

/-- A cell lies under one region and one offset only. -/
theorem cell_inj {r q : Region} {o p : Nat} (hr : r.writable = true) (hq : q.writable = true)
    (ho : o < r.capacity) (hp : p < q.capacity) (h : r.base + o = q.base + p) : r = q ∧ o = p := by
  cases r <;> cases q <;> simp [Region.writable, Region.base, Region.capacity] at * <;> omega

end Sys2Proof.Machine
end

