-- ==== Sys2Proof/Laws/Encoding.lean ====
section
/-! SUPPORT. The laws of fields, masks and bytes that the encoding rests on. -/

namespace Sys2Proof

@[simp] theorem Cond.ofBits_bits (c : Cond) : Cond.ofBits c.bits = c := by cases c <;> decide
@[simp] theorem Cond.bits_ofBits (b : BitVec 4) : (Cond.ofBits b).bits = b := by revert b; decide
@[simp] theorem regOfBits_regBits (r : Reg) : regOfBits (regBits r) = r := by revert r; decide
@[simp] theorem regBits_regOfBits (b : BitVec 4) : regBits (regOfBits b) = b := by revert b; decide
@[simp] theorem ofBool_beq_one (b : Bool) : (BitVec.ofBool b == 1#1) = b := by cases b <;> decide
theorem ofBool_of_beq_one (b : BitVec 1) : BitVec.ofBool (b == 1#1) = b := by revert b; decide

/-! ## Fields of placed values -/

theorem field_or (a b : Word) (lo n : Nat) : field (a ||| b) lo n = field a lo n ||| field b lo n := by
  ext i hi; simp [field]

theorem field_and (a b : Word) (lo n : Nat) : field (a &&& b) lo n = field a lo n &&& field b lo n := by
  ext i hi; simp [field]

/-- A field that lies inside a placed value. -/
theorem field_place_inside {m : Nat} (v : BitVec m) (p lo n : Nat) (h1 : p ≤ lo) (h2 : lo + n ≤ p + m)
    (h3 : p + m ≤ 32) : field (place v p) lo n = v.extractLsb' (lo - p) n := by
  ext i hi
  have e : lo + i - p = lo - p + i := by omega
  have a1 : lo + i < 32 := by omega
  have a2 : ¬ lo + i < p := by omega
  simp [field, place, e, a1, a2]

/-- A field that lies beside a placed value. -/
theorem field_place_beside {m : Nat} (v : BitVec m) (p lo n : Nat) (h : lo + n ≤ p ∨ p + m ≤ lo) :
    field (place v p) lo n = 0#n := by
  ext i hi
  simp only [field, place, BitVec.getElem_extractLsb', BitVec.getLsbD_shiftLeft, BitVec.getLsbD_setWidth]
  rcases h with h | h
  · have : lo + i < p := by omega
    simp [this]
  · have : v.getLsbD (lo + i - p) = false := BitVec.getLsbD_of_ge _ _ (by omega)
    simp [this]

/-- A field that covers a placed value. -/
theorem field_place_covers {m : Nat} (v : BitVec m) (p lo n : Nat) (h1 : lo ≤ p) (h2 : p + m ≤ lo + n)
    (h3 : p + m ≤ 32) : field (place v p) lo n = v.setWidth n <<< (p - lo) := by
  ext i hi
  simp only [field, place, BitVec.getElem_extractLsb', BitVec.getLsbD_shiftLeft, BitVec.getLsbD_setWidth,
    ← BitVec.getLsbD_eq_getElem]
  by_cases h : lo + i < p
  · have : i < p - lo := by omega
    simp [h, this]
  · have e : lo + i - p = i - (p - lo) := by omega
    by_cases hm : i - (p - lo) < m
    · have a1 : lo + i < 32 := by omega
      have a2 : i - (p - lo) < 32 := by omega
      have a3 : i - (p - lo) < n := by omega
      have a4 : ¬ i < p - lo := by omega
      simp [h, e, hi, a1, a2, a3, a4]
    · simp [e, BitVec.getLsbD_of_ge v _ (by omega : m ≤ i - (p - lo))]

/-- Bits 11:4 of a halfword transfer are not all zero: bits 7:4 are 1011. -/
theorem halfword_tag_ne_zero (immH : BitVec 4) :
    immH.setWidth 8 <<< 4 ||| (0b1011#4).setWidth 8 <<< 0 ≠ 0#8 := by
  revert immH; decide

/-- A field put back in its place is the word under the field's mask. -/
theorem place_field (w : Word) (lo n : Nat) :
    place (field w lo n) lo = w &&& place (BitVec.allOnes n) lo := by
  apply BitVec.eq_of_getLsbD_eq
  intro i hi
  simp only [place, field, BitVec.getLsbD_shiftLeft, BitVec.getLsbD_setWidth, BitVec.getLsbD_and,
    BitVec.getLsbD_extractLsb', BitVec.getLsbD_allOnes]
  by_cases h : i < lo
  · simp [h]
  · have e : lo + (i - lo) = i := by omega
    have e1 : i - lo < 32 := by omega
    simp [h, e, e1, hi, Bool.and_comm]

theorem placeFlag_flagAt (w : Word) (i : Nat) : placeFlag (flagAt w i) i = place (field w i 1) i := by
  simp only [placeFlag, flagAt, ofBool_of_beq_one]

theorem placeReg_regAt (w : Word) (lo : Nat) : placeReg (regAt w lo) lo = place (field w lo 4) lo := by
  simp [placeReg, regAt]

/-! ## Masks -/

/-- A row's test on bits 27:0 is the same test on the word. -/
theorem rest_and_iff (w : Word) (m v : BitVec 28) :
    field w 0 28 &&& m = v ↔ w &&& m.setWidth 32 = v.setWidth 32 := by
  constructor
  · intro h
    ext i hi
    have := congrArg (fun x => x.getLsbD i) h
    simp only [BitVec.getLsbD_and, field, BitVec.getLsbD_extractLsb', Nat.zero_add] at this
    simp only [BitVec.getElem_and, BitVec.getElem_setWidth, ← this]
    by_cases h28 : i < 28
    · simp [h28, BitVec.getLsbD_eq_getElem hi]
    · simp [h28, BitVec.getLsbD_of_ge m i (by omega)]
  · intro h
    ext i hi
    have := congrArg (fun x => x.getLsbD i) h
    have h32 : i < 32 := by omega
    simp only [BitVec.getLsbD_and, BitVec.getLsbD_setWidth, h32, decide_true, Bool.true_and] at this
    simpa [field, BitVec.getLsbD_eq_getElem hi] using this

/-- A test of one field by a mask. -/
theorem and_place_iff (w : Word) (lo n : Nat) (c : BitVec n) (h : lo + n ≤ 32) :
    w &&& place (BitVec.allOnes n) lo = place c lo ↔ field w lo n = c := by
  rw [← place_field]
  constructor
  · intro e
    have := congrArg (fun x => field x lo n) e
    simpa [field_place_inside _ lo lo n (Nat.le_refl _) (Nat.le_refl _) h] using this
  · exact fun e => by rw [e]

/-- A test by a mask in two disjoint parts is two tests. -/
theorem and_or_iff (w m1 m2 v1 v2 : Word) (h1 : v1 &&& m1 = v1) (h2 : v2 &&& m2 = v2)
    (h : m1 &&& m2 = 0#32) :
    w &&& (m1 ||| m2) = v1 ||| v2 ↔ w &&& m1 = v1 ∧ w &&& m2 = v2 := by
  constructor
  · intro e
    constructor
    all_goals
      ext i hi
      have e0 := congrArg (fun x => x.getLsbD i) e
      have e1 := congrArg (fun x => x.getLsbD i) h1
      have e2 := congrArg (fun x => x.getLsbD i) h2
      have e3 := congrArg (fun x => x.getLsbD i) h
      simp only [BitVec.getLsbD_and, BitVec.getLsbD_or, BitVec.getLsbD_zero] at e0 e1 e2 e3
      simp only [← BitVec.getLsbD_eq_getElem, BitVec.getLsbD_and]
      revert e0 e1 e2 e3
      cases w.getLsbD i <;> cases m1.getLsbD i <;> cases m2.getLsbD i <;> cases v1.getLsbD i <;>
        cases v2.getLsbD i <;> decide
  · rintro ⟨rfl, rfl⟩
    rw [BitVec.and_or_distrib_left]

/-! ## Bytes -/

/-- The four bytes of a word make the word. -/
@[simp] theorem le32_bytes (w : Word) : le32 (byteOf w 0) (byteOf w 1) (byteOf w 2) (byteOf w 3) = w := by
  ext i hi
  simp only [le32, byteOf, ← BitVec.getLsbD_eq_getElem, BitVec.getLsbD_append,
    BitVec.getLsbD_extractLsb']
  by_cases h0 : i < 8
  · simp [h0]
  · by_cases h1 : i < 16
    · have e1 : i - 8 < 8 := by omega
      have e2 : 8 + (i - 8) = i := by omega
      simp [h0, e1, e2]
    · by_cases h2 : i < 24
      · have e1 : ¬ i - 8 < 8 := by omega
        have e2 : i - 8 - 8 < 8 := by omega
        have e3 : 16 + (i - 8 - 8) = i := by omega
        simp [h0, e1, e2, e3]
      · have e1 : ¬ i - 8 < 8 := by omega
        have e2 : ¬ i - 8 - 8 < 8 := by omega
        have e4 : i - 8 - 8 - 8 < 8 := by omega
        have e3 : 24 + (i - 8 - 8 - 8) = i := by omega
        simp [h0, e1, e2, e3, e4]

/-- The two bytes of a halfword make the halfword. -/
@[simp] theorem le16_bytes (v : Half) : le16 (byteOf v 0) (byteOf v 1) = v := by
  ext i hi
  simp only [le16, byteOf, ← BitVec.getLsbD_eq_getElem, BitVec.getLsbD_append,
    BitVec.getLsbD_extractLsb']
  by_cases h0 : i < 8
  · simp [h0]
  · have e1 : i - 8 < 8 := by omega
    have e2 : 8 + (i - 8) = i := by omega
    simp [h0, e1, e2]

@[simp] theorem byteOf_lowHalf_zero (w : Word) : byteOf (lowHalf w) 0 = byteOf w 0 := by
  ext i hi
  simp [byteOf, lowHalf]

@[simp] theorem byteOf_lowHalf_one (w : Word) : byteOf (lowHalf w) 1 = byteOf w 1 := by
  ext i hi
  simp [byteOf, lowHalf]

@[simp] theorem byteOf_highHalf_zero (w : Word) : byteOf (highHalf w) 0 = byteOf w 2 := by
  ext i hi
  have : i < 16 := by omega
  simp [byteOf, highHalf, this]

@[simp] theorem byteOf_highHalf_one (w : Word) : byteOf (highHalf w) 1 = byteOf w 3 := by
  ext i hi
  have : 8 + i < 16 := by omega
  have e : 16 + (8 + i) = 24 + i := by omega
  simp [byteOf, highHalf, this, e]

end Sys2Proof
end

