-- ==== Sys2Proof/Laws/State.lean ====
section
/-! SUPPORT. For each update of the state, one lemma for each field it leaves alone, and what it does to the
field it changes. -/

namespace Sys2Proof.Machine

/-! ### setReg -/

@[simp] theorem State.setReg_cfg (s : State) (i : Reg) (v : Word) : (s.setReg i v).cfg = s.cfg := rfl
@[simp] theorem State.setReg_cpsr (s : State) (i : Reg) (v : Word) : (s.setReg i v).cpsr = s.cpsr := rfl
@[simp] theorem State.setReg_mem (s : State) (i : Reg) (v : Word) : (s.setReg i v).mem = s.mem := rfl
@[simp] theorem State.setReg_rom (s : State) (i : Reg) (v : Word) : (s.setReg i v).rom = s.rom := rfl
@[simp] theorem State.setReg_paletteCache (s : State) (i : Reg) (v : Word) : (s.setReg i v).paletteCache = s.paletteCache := rfl
@[simp] theorem State.setReg_currentScanline (s : State) (i : Reg) (v : Word) : (s.setReg i v).currentScanline = s.currentScanline := rfl
@[simp] theorem State.setReg_cyclesToNextHBlank (s : State) (i : Reg) (v : Word) : (s.setReg i v).cyclesToNextHBlank = s.cyclesToNextHBlank := rfl
@[simp] theorem State.setReg_lastRenderedLine (s : State) (i : Reg) (v : Word) : (s.setReg i v).lastRenderedLine = s.lastRenderedLine := rfl
@[simp] theorem State.setReg_mDispcnt (s : State) (i : Reg) (v : Word) : (s.setReg i v).mDispcnt = s.mDispcnt := rfl
@[simp] theorem State.setReg_mDispstat (s : State) (i : Reg) (v : Word) : (s.setReg i v).mDispstat = s.mDispstat := rfl
@[simp] theorem State.setReg_mVcount (s : State) (i : Reg) (v : Word) : (s.setReg i v).mVcount = s.mVcount := rfl
@[simp] theorem State.setReg_mBgcnt (s : State) (i : Reg) (v : Word) : (s.setReg i v).mBgcnt = s.mBgcnt := rfl
@[simp] theorem State.setReg_pixels (s : State) (i : Reg) (v : Word) : (s.setReg i v).pixels = s.pixels := rfl

/-! ### advancePc -/

@[simp] theorem State.advancePc_cfg (s : State) : s.advancePc.cfg = s.cfg := rfl
@[simp] theorem State.advancePc_cpsr (s : State) : s.advancePc.cpsr = s.cpsr := rfl
@[simp] theorem State.advancePc_mem (s : State) : s.advancePc.mem = s.mem := rfl
@[simp] theorem State.advancePc_rom (s : State) : s.advancePc.rom = s.rom := rfl
@[simp] theorem State.advancePc_paletteCache (s : State) : s.advancePc.paletteCache = s.paletteCache := rfl
@[simp] theorem State.advancePc_currentScanline (s : State) : s.advancePc.currentScanline = s.currentScanline := rfl
@[simp] theorem State.advancePc_cyclesToNextHBlank (s : State) : s.advancePc.cyclesToNextHBlank = s.cyclesToNextHBlank := rfl
@[simp] theorem State.advancePc_lastRenderedLine (s : State) : s.advancePc.lastRenderedLine = s.lastRenderedLine := rfl
@[simp] theorem State.advancePc_mDispcnt (s : State) : s.advancePc.mDispcnt = s.mDispcnt := rfl
@[simp] theorem State.advancePc_mDispstat (s : State) : s.advancePc.mDispstat = s.mDispstat := rfl
@[simp] theorem State.advancePc_mVcount (s : State) : s.advancePc.mVcount = s.mVcount := rfl
@[simp] theorem State.advancePc_mBgcnt (s : State) : s.advancePc.mBgcnt = s.mBgcnt := rfl
@[simp] theorem State.advancePc_pixels (s : State) : s.advancePc.pixels = s.pixels := rfl

/-! ### nextInstr -/

@[simp] theorem State.nextInstr_cfg (s : State) (a : Word) : (s.nextInstr a).cfg = s.cfg := rfl
@[simp] theorem State.nextInstr_cpsr (s : State) (a : Word) : (s.nextInstr a).cpsr = s.cpsr := rfl
@[simp] theorem State.nextInstr_mem (s : State) (a : Word) : (s.nextInstr a).mem = s.mem := rfl
@[simp] theorem State.nextInstr_rom (s : State) (a : Word) : (s.nextInstr a).rom = s.rom := rfl
@[simp] theorem State.nextInstr_paletteCache (s : State) (a : Word) : (s.nextInstr a).paletteCache = s.paletteCache := rfl
@[simp] theorem State.nextInstr_currentScanline (s : State) (a : Word) : (s.nextInstr a).currentScanline = s.currentScanline := rfl
@[simp] theorem State.nextInstr_cyclesToNextHBlank (s : State) (a : Word) : (s.nextInstr a).cyclesToNextHBlank = s.cyclesToNextHBlank := rfl
@[simp] theorem State.nextInstr_lastRenderedLine (s : State) (a : Word) : (s.nextInstr a).lastRenderedLine = s.lastRenderedLine := rfl
@[simp] theorem State.nextInstr_mDispcnt (s : State) (a : Word) : (s.nextInstr a).mDispcnt = s.mDispcnt := rfl
@[simp] theorem State.nextInstr_mDispstat (s : State) (a : Word) : (s.nextInstr a).mDispstat = s.mDispstat := rfl
@[simp] theorem State.nextInstr_mVcount (s : State) (a : Word) : (s.nextInstr a).mVcount = s.mVcount := rfl
@[simp] theorem State.nextInstr_mBgcnt (s : State) (a : Word) : (s.nextInstr a).mBgcnt = s.mBgcnt := rfl
@[simp] theorem State.nextInstr_pixels (s : State) (a : Word) : (s.nextInstr a).pixels = s.pixels := rfl

/-! ### setNZ -/

@[simp] theorem State.setNZ_cfg (s : State) (v : Word) : (s.setNZ v).cfg = s.cfg := rfl
@[simp] theorem State.setNZ_regs (s : State) (v : Word) : (s.setNZ v).regs = s.regs := rfl
@[simp] theorem State.setNZ_mem (s : State) (v : Word) : (s.setNZ v).mem = s.mem := rfl
@[simp] theorem State.setNZ_rom (s : State) (v : Word) : (s.setNZ v).rom = s.rom := rfl
@[simp] theorem State.setNZ_paletteCache (s : State) (v : Word) : (s.setNZ v).paletteCache = s.paletteCache := rfl
@[simp] theorem State.setNZ_currentScanline (s : State) (v : Word) : (s.setNZ v).currentScanline = s.currentScanline := rfl
@[simp] theorem State.setNZ_cyclesToNextHBlank (s : State) (v : Word) : (s.setNZ v).cyclesToNextHBlank = s.cyclesToNextHBlank := rfl
@[simp] theorem State.setNZ_lastRenderedLine (s : State) (v : Word) : (s.setNZ v).lastRenderedLine = s.lastRenderedLine := rfl
@[simp] theorem State.setNZ_mDispcnt (s : State) (v : Word) : (s.setNZ v).mDispcnt = s.mDispcnt := rfl
@[simp] theorem State.setNZ_mDispstat (s : State) (v : Word) : (s.setNZ v).mDispstat = s.mDispstat := rfl
@[simp] theorem State.setNZ_mVcount (s : State) (v : Word) : (s.setNZ v).mVcount = s.mVcount := rfl
@[simp] theorem State.setNZ_mBgcnt (s : State) (v : Word) : (s.setNZ v).mBgcnt = s.mBgcnt := rfl
@[simp] theorem State.setNZ_pixels (s : State) (v : Word) : (s.setNZ v).pixels = s.pixels := rfl

/-! ### setByte -/

@[simp] theorem State.setByte_cfg (s : State) (a : Nat) (v : Byte) : (s.setByte a v).cfg = s.cfg := rfl
@[simp] theorem State.setByte_regs (s : State) (a : Nat) (v : Byte) : (s.setByte a v).regs = s.regs := rfl
@[simp] theorem State.setByte_cpsr (s : State) (a : Nat) (v : Byte) : (s.setByte a v).cpsr = s.cpsr := rfl
@[simp] theorem State.setByte_rom (s : State) (a : Nat) (v : Byte) : (s.setByte a v).rom = s.rom := rfl
@[simp] theorem State.setByte_paletteCache (s : State) (a : Nat) (v : Byte) : (s.setByte a v).paletteCache = s.paletteCache := rfl
@[simp] theorem State.setByte_currentScanline (s : State) (a : Nat) (v : Byte) : (s.setByte a v).currentScanline = s.currentScanline := rfl
@[simp] theorem State.setByte_cyclesToNextHBlank (s : State) (a : Nat) (v : Byte) : (s.setByte a v).cyclesToNextHBlank = s.cyclesToNextHBlank := rfl
@[simp] theorem State.setByte_lastRenderedLine (s : State) (a : Nat) (v : Byte) : (s.setByte a v).lastRenderedLine = s.lastRenderedLine := rfl
@[simp] theorem State.setByte_mDispcnt (s : State) (a : Nat) (v : Byte) : (s.setByte a v).mDispcnt = s.mDispcnt := rfl
@[simp] theorem State.setByte_mDispstat (s : State) (a : Nat) (v : Byte) : (s.setByte a v).mDispstat = s.mDispstat := rfl
@[simp] theorem State.setByte_mVcount (s : State) (a : Nat) (v : Byte) : (s.setByte a v).mVcount = s.mVcount := rfl
@[simp] theorem State.setByte_mBgcnt (s : State) (a : Nat) (v : Byte) : (s.setByte a v).mBgcnt = s.mBgcnt := rfl
@[simp] theorem State.setByte_pixels (s : State) (a : Nat) (v : Byte) : (s.setByte a v).pixels = s.pixels := rfl

/-! ### setIo16 -/

@[simp] theorem State.setIo16_cfg (s : State) (o : Nat) (v : Half) : (s.setIo16 o v).cfg = s.cfg := rfl
@[simp] theorem State.setIo16_regs (s : State) (o : Nat) (v : Half) : (s.setIo16 o v).regs = s.regs := rfl
@[simp] theorem State.setIo16_cpsr (s : State) (o : Nat) (v : Half) : (s.setIo16 o v).cpsr = s.cpsr := rfl
@[simp] theorem State.setIo16_rom (s : State) (o : Nat) (v : Half) : (s.setIo16 o v).rom = s.rom := rfl
@[simp] theorem State.setIo16_paletteCache (s : State) (o : Nat) (v : Half) : (s.setIo16 o v).paletteCache = s.paletteCache := rfl
@[simp] theorem State.setIo16_currentScanline (s : State) (o : Nat) (v : Half) : (s.setIo16 o v).currentScanline = s.currentScanline := rfl
@[simp] theorem State.setIo16_cyclesToNextHBlank (s : State) (o : Nat) (v : Half) : (s.setIo16 o v).cyclesToNextHBlank = s.cyclesToNextHBlank := rfl
@[simp] theorem State.setIo16_lastRenderedLine (s : State) (o : Nat) (v : Half) : (s.setIo16 o v).lastRenderedLine = s.lastRenderedLine := rfl
@[simp] theorem State.setIo16_mDispcnt (s : State) (o : Nat) (v : Half) : (s.setIo16 o v).mDispcnt = s.mDispcnt := rfl
@[simp] theorem State.setIo16_mDispstat (s : State) (o : Nat) (v : Half) : (s.setIo16 o v).mDispstat = s.mDispstat := rfl
@[simp] theorem State.setIo16_mVcount (s : State) (o : Nat) (v : Half) : (s.setIo16 o v).mVcount = s.mVcount := rfl
@[simp] theorem State.setIo16_mBgcnt (s : State) (o : Nat) (v : Half) : (s.setIo16 o v).mBgcnt = s.mBgcnt := rfl
@[simp] theorem State.setIo16_pixels (s : State) (o : Nat) (v : Half) : (s.setIo16 o v).pixels = s.pixels := rfl

/-! ### refreshPalette -/

@[simp] theorem State.refreshPalette_cfg (s : State) (i : Nat) : (s.refreshPalette i).cfg = s.cfg := rfl
@[simp] theorem State.refreshPalette_regs (s : State) (i : Nat) : (s.refreshPalette i).regs = s.regs := rfl
@[simp] theorem State.refreshPalette_cpsr (s : State) (i : Nat) : (s.refreshPalette i).cpsr = s.cpsr := rfl
@[simp] theorem State.refreshPalette_mem (s : State) (i : Nat) : (s.refreshPalette i).mem = s.mem := rfl
@[simp] theorem State.refreshPalette_rom (s : State) (i : Nat) : (s.refreshPalette i).rom = s.rom := rfl
@[simp] theorem State.refreshPalette_currentScanline (s : State) (i : Nat) : (s.refreshPalette i).currentScanline = s.currentScanline := rfl
@[simp] theorem State.refreshPalette_cyclesToNextHBlank (s : State) (i : Nat) : (s.refreshPalette i).cyclesToNextHBlank = s.cyclesToNextHBlank := rfl
@[simp] theorem State.refreshPalette_lastRenderedLine (s : State) (i : Nat) : (s.refreshPalette i).lastRenderedLine = s.lastRenderedLine := rfl
@[simp] theorem State.refreshPalette_mDispcnt (s : State) (i : Nat) : (s.refreshPalette i).mDispcnt = s.mDispcnt := rfl
@[simp] theorem State.refreshPalette_mDispstat (s : State) (i : Nat) : (s.refreshPalette i).mDispstat = s.mDispstat := rfl
@[simp] theorem State.refreshPalette_mVcount (s : State) (i : Nat) : (s.refreshPalette i).mVcount = s.mVcount := rfl
@[simp] theorem State.refreshPalette_mBgcnt (s : State) (i : Nat) : (s.refreshPalette i).mBgcnt = s.mBgcnt := rfl
@[simp] theorem State.refreshPalette_pixels (s : State) (i : Nat) : (s.refreshPalette i).pixels = s.pixels := rfl

/-! ### palStore8 -/

@[simp] theorem State.palStore8_cfg (s : State) (o : Nat) (v : Byte) : (s.palStore8 o v).cfg = s.cfg := rfl
@[simp] theorem State.palStore8_regs (s : State) (o : Nat) (v : Byte) : (s.palStore8 o v).regs = s.regs := rfl
@[simp] theorem State.palStore8_cpsr (s : State) (o : Nat) (v : Byte) : (s.palStore8 o v).cpsr = s.cpsr := rfl
@[simp] theorem State.palStore8_rom (s : State) (o : Nat) (v : Byte) : (s.palStore8 o v).rom = s.rom := rfl
@[simp] theorem State.palStore8_currentScanline (s : State) (o : Nat) (v : Byte) : (s.palStore8 o v).currentScanline = s.currentScanline := rfl
@[simp] theorem State.palStore8_cyclesToNextHBlank (s : State) (o : Nat) (v : Byte) : (s.palStore8 o v).cyclesToNextHBlank = s.cyclesToNextHBlank := rfl
@[simp] theorem State.palStore8_lastRenderedLine (s : State) (o : Nat) (v : Byte) : (s.palStore8 o v).lastRenderedLine = s.lastRenderedLine := rfl
@[simp] theorem State.palStore8_mDispcnt (s : State) (o : Nat) (v : Byte) : (s.palStore8 o v).mDispcnt = s.mDispcnt := rfl
@[simp] theorem State.palStore8_mDispstat (s : State) (o : Nat) (v : Byte) : (s.palStore8 o v).mDispstat = s.mDispstat := rfl
@[simp] theorem State.palStore8_mVcount (s : State) (o : Nat) (v : Byte) : (s.palStore8 o v).mVcount = s.mVcount := rfl
@[simp] theorem State.palStore8_mBgcnt (s : State) (o : Nat) (v : Byte) : (s.palStore8 o v).mBgcnt = s.mBgcnt := rfl
@[simp] theorem State.palStore8_pixels (s : State) (o : Nat) (v : Byte) : (s.palStore8 o v).pixels = s.pixels := rfl

/-! ### palStore16 -/

@[simp] theorem State.palStore16_cfg (s : State) (o : Nat) (v : Half) : (s.palStore16 o v).cfg = s.cfg := rfl
@[simp] theorem State.palStore16_regs (s : State) (o : Nat) (v : Half) : (s.palStore16 o v).regs = s.regs := rfl
@[simp] theorem State.palStore16_cpsr (s : State) (o : Nat) (v : Half) : (s.palStore16 o v).cpsr = s.cpsr := rfl
@[simp] theorem State.palStore16_rom (s : State) (o : Nat) (v : Half) : (s.palStore16 o v).rom = s.rom := rfl
@[simp] theorem State.palStore16_currentScanline (s : State) (o : Nat) (v : Half) : (s.palStore16 o v).currentScanline = s.currentScanline := rfl
@[simp] theorem State.palStore16_cyclesToNextHBlank (s : State) (o : Nat) (v : Half) : (s.palStore16 o v).cyclesToNextHBlank = s.cyclesToNextHBlank := rfl
@[simp] theorem State.palStore16_lastRenderedLine (s : State) (o : Nat) (v : Half) : (s.palStore16 o v).lastRenderedLine = s.lastRenderedLine := rfl
@[simp] theorem State.palStore16_mDispcnt (s : State) (o : Nat) (v : Half) : (s.palStore16 o v).mDispcnt = s.mDispcnt := rfl
@[simp] theorem State.palStore16_mDispstat (s : State) (o : Nat) (v : Half) : (s.palStore16 o v).mDispstat = s.mDispstat := rfl
@[simp] theorem State.palStore16_mVcount (s : State) (o : Nat) (v : Half) : (s.palStore16 o v).mVcount = s.mVcount := rfl
@[simp] theorem State.palStore16_mBgcnt (s : State) (o : Nat) (v : Half) : (s.palStore16 o v).mBgcnt = s.mBgcnt := rfl
@[simp] theorem State.palStore16_pixels (s : State) (o : Nat) (v : Half) : (s.palStore16 o v).pixels = s.pixels := rfl

/-! ### ramStore16 -/

@[simp] theorem State.ramStore16_cfg (s : State) (r : Region) (o : Nat) (v : Half) : (s.ramStore16 r o v).cfg = s.cfg := rfl
@[simp] theorem State.ramStore16_regs (s : State) (r : Region) (o : Nat) (v : Half) : (s.ramStore16 r o v).regs = s.regs := rfl
@[simp] theorem State.ramStore16_cpsr (s : State) (r : Region) (o : Nat) (v : Half) : (s.ramStore16 r o v).cpsr = s.cpsr := rfl
@[simp] theorem State.ramStore16_rom (s : State) (r : Region) (o : Nat) (v : Half) : (s.ramStore16 r o v).rom = s.rom := rfl
@[simp] theorem State.ramStore16_paletteCache (s : State) (r : Region) (o : Nat) (v : Half) : (s.ramStore16 r o v).paletteCache = s.paletteCache := rfl
@[simp] theorem State.ramStore16_currentScanline (s : State) (r : Region) (o : Nat) (v : Half) : (s.ramStore16 r o v).currentScanline = s.currentScanline := rfl
@[simp] theorem State.ramStore16_cyclesToNextHBlank (s : State) (r : Region) (o : Nat) (v : Half) : (s.ramStore16 r o v).cyclesToNextHBlank = s.cyclesToNextHBlank := rfl
@[simp] theorem State.ramStore16_lastRenderedLine (s : State) (r : Region) (o : Nat) (v : Half) : (s.ramStore16 r o v).lastRenderedLine = s.lastRenderedLine := rfl
@[simp] theorem State.ramStore16_mDispcnt (s : State) (r : Region) (o : Nat) (v : Half) : (s.ramStore16 r o v).mDispcnt = s.mDispcnt := rfl
@[simp] theorem State.ramStore16_mDispstat (s : State) (r : Region) (o : Nat) (v : Half) : (s.ramStore16 r o v).mDispstat = s.mDispstat := rfl
@[simp] theorem State.ramStore16_mVcount (s : State) (r : Region) (o : Nat) (v : Half) : (s.ramStore16 r o v).mVcount = s.mVcount := rfl
@[simp] theorem State.ramStore16_mBgcnt (s : State) (r : Region) (o : Nat) (v : Half) : (s.ramStore16 r o v).mBgcnt = s.mBgcnt := rfl
@[simp] theorem State.ramStore16_pixels (s : State) (r : Region) (o : Nat) (v : Half) : (s.ramStore16 r o v).pixels = s.pixels := rfl

/-! ### placeBytes -/

@[simp] theorem State.placeBytes_cfg (s : State) (r : Region) (o : Nat) (w : Word) : (s.placeBytes r o w).cfg = s.cfg := rfl
@[simp] theorem State.placeBytes_regs (s : State) (r : Region) (o : Nat) (w : Word) : (s.placeBytes r o w).regs = s.regs := rfl
@[simp] theorem State.placeBytes_cpsr (s : State) (r : Region) (o : Nat) (w : Word) : (s.placeBytes r o w).cpsr = s.cpsr := rfl
@[simp] theorem State.placeBytes_rom (s : State) (r : Region) (o : Nat) (w : Word) : (s.placeBytes r o w).rom = s.rom := rfl
@[simp] theorem State.placeBytes_paletteCache (s : State) (r : Region) (o : Nat) (w : Word) : (s.placeBytes r o w).paletteCache = s.paletteCache := rfl
@[simp] theorem State.placeBytes_currentScanline (s : State) (r : Region) (o : Nat) (w : Word) : (s.placeBytes r o w).currentScanline = s.currentScanline := rfl
@[simp] theorem State.placeBytes_cyclesToNextHBlank (s : State) (r : Region) (o : Nat) (w : Word) : (s.placeBytes r o w).cyclesToNextHBlank = s.cyclesToNextHBlank := rfl
@[simp] theorem State.placeBytes_lastRenderedLine (s : State) (r : Region) (o : Nat) (w : Word) : (s.placeBytes r o w).lastRenderedLine = s.lastRenderedLine := rfl
@[simp] theorem State.placeBytes_mDispcnt (s : State) (r : Region) (o : Nat) (w : Word) : (s.placeBytes r o w).mDispcnt = s.mDispcnt := rfl
@[simp] theorem State.placeBytes_mDispstat (s : State) (r : Region) (o : Nat) (w : Word) : (s.placeBytes r o w).mDispstat = s.mDispstat := rfl
@[simp] theorem State.placeBytes_mVcount (s : State) (r : Region) (o : Nat) (w : Word) : (s.placeBytes r o w).mVcount = s.mVcount := rfl
@[simp] theorem State.placeBytes_mBgcnt (s : State) (r : Region) (o : Nat) (w : Word) : (s.placeBytes r o w).mBgcnt = s.mBgcnt := rfl
@[simp] theorem State.placeBytes_pixels (s : State) (r : Region) (o : Nat) (w : Word) : (s.placeBytes r o w).pixels = s.pixels := rfl

/-! ### dmaClearEnable -/

@[simp] theorem State.dmaClearEnable_cfg (s : State) (n : Fin 4) : (s.dmaClearEnable n).cfg = s.cfg := rfl
@[simp] theorem State.dmaClearEnable_regs (s : State) (n : Fin 4) : (s.dmaClearEnable n).regs = s.regs := rfl
@[simp] theorem State.dmaClearEnable_cpsr (s : State) (n : Fin 4) : (s.dmaClearEnable n).cpsr = s.cpsr := rfl
@[simp] theorem State.dmaClearEnable_rom (s : State) (n : Fin 4) : (s.dmaClearEnable n).rom = s.rom := rfl
@[simp] theorem State.dmaClearEnable_paletteCache (s : State) (n : Fin 4) : (s.dmaClearEnable n).paletteCache = s.paletteCache := rfl
@[simp] theorem State.dmaClearEnable_currentScanline (s : State) (n : Fin 4) : (s.dmaClearEnable n).currentScanline = s.currentScanline := rfl
@[simp] theorem State.dmaClearEnable_cyclesToNextHBlank (s : State) (n : Fin 4) : (s.dmaClearEnable n).cyclesToNextHBlank = s.cyclesToNextHBlank := rfl
@[simp] theorem State.dmaClearEnable_lastRenderedLine (s : State) (n : Fin 4) : (s.dmaClearEnable n).lastRenderedLine = s.lastRenderedLine := rfl
@[simp] theorem State.dmaClearEnable_mDispcnt (s : State) (n : Fin 4) : (s.dmaClearEnable n).mDispcnt = s.mDispcnt := rfl
@[simp] theorem State.dmaClearEnable_mDispstat (s : State) (n : Fin 4) : (s.dmaClearEnable n).mDispstat = s.mDispstat := rfl
@[simp] theorem State.dmaClearEnable_mVcount (s : State) (n : Fin 4) : (s.dmaClearEnable n).mVcount = s.mVcount := rfl
@[simp] theorem State.dmaClearEnable_mBgcnt (s : State) (n : Fin 4) : (s.dmaClearEnable n).mBgcnt = s.mBgcnt := rfl
@[simp] theorem State.dmaClearEnable_pixels (s : State) (n : Fin 4) : (s.dmaClearEnable n).pixels = s.pixels := rfl

/-! ### renderScanLine -/

@[simp] theorem State.renderScanLine_cfg (s : State) (line : Fin 160) : (s.renderScanLine line).cfg = s.cfg := rfl
@[simp] theorem State.renderScanLine_regs (s : State) (line : Fin 160) : (s.renderScanLine line).regs = s.regs := rfl
@[simp] theorem State.renderScanLine_cpsr (s : State) (line : Fin 160) : (s.renderScanLine line).cpsr = s.cpsr := rfl
@[simp] theorem State.renderScanLine_mem (s : State) (line : Fin 160) : (s.renderScanLine line).mem = s.mem := rfl
@[simp] theorem State.renderScanLine_rom (s : State) (line : Fin 160) : (s.renderScanLine line).rom = s.rom := rfl
@[simp] theorem State.renderScanLine_paletteCache (s : State) (line : Fin 160) : (s.renderScanLine line).paletteCache = s.paletteCache := rfl
@[simp] theorem State.renderScanLine_currentScanline (s : State) (line : Fin 160) : (s.renderScanLine line).currentScanline = s.currentScanline := rfl
@[simp] theorem State.renderScanLine_cyclesToNextHBlank (s : State) (line : Fin 160) : (s.renderScanLine line).cyclesToNextHBlank = s.cyclesToNextHBlank := rfl
@[simp] theorem State.renderScanLine_lastRenderedLine (s : State) (line : Fin 160) : (s.renderScanLine line).lastRenderedLine = s.lastRenderedLine := rfl
@[simp] theorem State.renderScanLine_mDispcnt (s : State) (line : Fin 160) : (s.renderScanLine line).mDispcnt = s.mDispcnt := rfl
@[simp] theorem State.renderScanLine_mDispstat (s : State) (line : Fin 160) : (s.renderScanLine line).mDispstat = s.mDispstat := rfl
@[simp] theorem State.renderScanLine_mVcount (s : State) (line : Fin 160) : (s.renderScanLine line).mVcount = s.mVcount := rfl
@[simp] theorem State.renderScanLine_mBgcnt (s : State) (line : Fin 160) : (s.renderScanLine line).mBgcnt = s.mBgcnt := rfl

/-! ### refreshStatus -/

@[simp] theorem State.refreshStatus_cfg (s : State) : s.refreshStatus.cfg = s.cfg := by simp [State.refreshStatus]
@[simp] theorem State.refreshStatus_regs (s : State) : s.refreshStatus.regs = s.regs := by simp [State.refreshStatus]
@[simp] theorem State.refreshStatus_cpsr (s : State) : s.refreshStatus.cpsr = s.cpsr := by simp [State.refreshStatus]
@[simp] theorem State.refreshStatus_rom (s : State) : s.refreshStatus.rom = s.rom := by simp [State.refreshStatus]
@[simp] theorem State.refreshStatus_paletteCache (s : State) : s.refreshStatus.paletteCache = s.paletteCache := by simp [State.refreshStatus]
@[simp] theorem State.refreshStatus_currentScanline (s : State) : s.refreshStatus.currentScanline = s.currentScanline := by simp [State.refreshStatus]
@[simp] theorem State.refreshStatus_cyclesToNextHBlank (s : State) : s.refreshStatus.cyclesToNextHBlank = s.cyclesToNextHBlank := by simp [State.refreshStatus]
@[simp] theorem State.refreshStatus_lastRenderedLine (s : State) : s.refreshStatus.lastRenderedLine = s.lastRenderedLine := by simp [State.refreshStatus]
@[simp] theorem State.refreshStatus_mDispcnt (s : State) : s.refreshStatus.mDispcnt = s.mDispcnt := by simp [State.refreshStatus]
@[simp] theorem State.refreshStatus_mBgcnt (s : State) : s.refreshStatus.mBgcnt = s.mBgcnt := by simp [State.refreshStatus]
@[simp] theorem State.refreshStatus_pixels (s : State) : s.refreshStatus.pixels = s.pixels := by simp [State.refreshStatus]

/-! ### setNZIf -/

@[simp] theorem State.setNZIf_cfg (s : State) (sBit : Bool) (v : Word) : (s.setNZIf sBit v).cfg = s.cfg := by
  unfold State.setNZIf; split <;> rfl
@[simp] theorem State.setNZIf_regs (s : State) (sBit : Bool) (v : Word) : (s.setNZIf sBit v).regs = s.regs := by
  unfold State.setNZIf; split <;> rfl
@[simp] theorem State.setNZIf_mem (s : State) (sBit : Bool) (v : Word) : (s.setNZIf sBit v).mem = s.mem := by
  unfold State.setNZIf; split <;> rfl
@[simp] theorem State.setNZIf_rom (s : State) (sBit : Bool) (v : Word) : (s.setNZIf sBit v).rom = s.rom := by
  unfold State.setNZIf; split <;> rfl
@[simp] theorem State.setNZIf_paletteCache (s : State) (sBit : Bool) (v : Word) : (s.setNZIf sBit v).paletteCache = s.paletteCache := by
  unfold State.setNZIf; split <;> rfl
@[simp] theorem State.setNZIf_currentScanline (s : State) (sBit : Bool) (v : Word) : (s.setNZIf sBit v).currentScanline = s.currentScanline := by
  unfold State.setNZIf; split <;> rfl
@[simp] theorem State.setNZIf_cyclesToNextHBlank (s : State) (sBit : Bool) (v : Word) : (s.setNZIf sBit v).cyclesToNextHBlank = s.cyclesToNextHBlank := by
  unfold State.setNZIf; split <;> rfl
@[simp] theorem State.setNZIf_lastRenderedLine (s : State) (sBit : Bool) (v : Word) : (s.setNZIf sBit v).lastRenderedLine = s.lastRenderedLine := by
  unfold State.setNZIf; split <;> rfl
@[simp] theorem State.setNZIf_mDispcnt (s : State) (sBit : Bool) (v : Word) : (s.setNZIf sBit v).mDispcnt = s.mDispcnt := by
  unfold State.setNZIf; split <;> rfl
@[simp] theorem State.setNZIf_mDispstat (s : State) (sBit : Bool) (v : Word) : (s.setNZIf sBit v).mDispstat = s.mDispstat := by
  unfold State.setNZIf; split <;> rfl
@[simp] theorem State.setNZIf_mVcount (s : State) (sBit : Bool) (v : Word) : (s.setNZIf sBit v).mVcount = s.mVcount := by
  unfold State.setNZIf; split <;> rfl
@[simp] theorem State.setNZIf_mBgcnt (s : State) (sBit : Bool) (v : Word) : (s.setNZIf sBit v).mBgcnt = s.mBgcnt := by
  unfold State.setNZIf; split <;> rfl
@[simp] theorem State.setNZIf_pixels (s : State) (sBit : Bool) (v : Word) : (s.setNZIf sBit v).pixels = s.pixels := by
  unfold State.setNZIf; split <;> rfl

/-! ### writeRd -/

@[simp] theorem State.writeRd_cfg (s : State) (rd : Reg) (v : Word) : (s.writeRd rd v).cfg = s.cfg := by
  unfold State.writeRd; split <;> rfl
@[simp] theorem State.writeRd_cpsr (s : State) (rd : Reg) (v : Word) : (s.writeRd rd v).cpsr = s.cpsr := by
  unfold State.writeRd; split <;> rfl
@[simp] theorem State.writeRd_mem (s : State) (rd : Reg) (v : Word) : (s.writeRd rd v).mem = s.mem := by
  unfold State.writeRd; split <;> rfl
@[simp] theorem State.writeRd_rom (s : State) (rd : Reg) (v : Word) : (s.writeRd rd v).rom = s.rom := by
  unfold State.writeRd; split <;> rfl
@[simp] theorem State.writeRd_paletteCache (s : State) (rd : Reg) (v : Word) : (s.writeRd rd v).paletteCache = s.paletteCache := by
  unfold State.writeRd; split <;> rfl
@[simp] theorem State.writeRd_currentScanline (s : State) (rd : Reg) (v : Word) : (s.writeRd rd v).currentScanline = s.currentScanline := by
  unfold State.writeRd; split <;> rfl
@[simp] theorem State.writeRd_cyclesToNextHBlank (s : State) (rd : Reg) (v : Word) : (s.writeRd rd v).cyclesToNextHBlank = s.cyclesToNextHBlank := by
  unfold State.writeRd; split <;> rfl
@[simp] theorem State.writeRd_lastRenderedLine (s : State) (rd : Reg) (v : Word) : (s.writeRd rd v).lastRenderedLine = s.lastRenderedLine := by
  unfold State.writeRd; split <;> rfl
@[simp] theorem State.writeRd_mDispcnt (s : State) (rd : Reg) (v : Word) : (s.writeRd rd v).mDispcnt = s.mDispcnt := by
  unfold State.writeRd; split <;> rfl
@[simp] theorem State.writeRd_mDispstat (s : State) (rd : Reg) (v : Word) : (s.writeRd rd v).mDispstat = s.mDispstat := by
  unfold State.writeRd; split <;> rfl
@[simp] theorem State.writeRd_mVcount (s : State) (rd : Reg) (v : Word) : (s.writeRd rd v).mVcount = s.mVcount := by
  unfold State.writeRd; split <;> rfl
@[simp] theorem State.writeRd_mBgcnt (s : State) (rd : Reg) (v : Word) : (s.writeRd rd v).mBgcnt = s.mBgcnt := by
  unfold State.writeRd; split <;> rfl
@[simp] theorem State.writeRd_pixels (s : State) (rd : Reg) (v : Word) : (s.writeRd rd v).pixels = s.pixels := by
  unfold State.writeRd; split <;> rfl

/-! ### writeBackIf -/

@[simp] theorem State.writeBackIf_cfg (s : State) (w : Bool) (rn : Reg) (v : Word) : (s.writeBackIf w rn v).cfg = s.cfg := by
  unfold State.writeBackIf; split <;> rfl
@[simp] theorem State.writeBackIf_cpsr (s : State) (w : Bool) (rn : Reg) (v : Word) : (s.writeBackIf w rn v).cpsr = s.cpsr := by
  unfold State.writeBackIf; split <;> rfl
@[simp] theorem State.writeBackIf_mem (s : State) (w : Bool) (rn : Reg) (v : Word) : (s.writeBackIf w rn v).mem = s.mem := by
  unfold State.writeBackIf; split <;> rfl
@[simp] theorem State.writeBackIf_rom (s : State) (w : Bool) (rn : Reg) (v : Word) : (s.writeBackIf w rn v).rom = s.rom := by
  unfold State.writeBackIf; split <;> rfl
@[simp] theorem State.writeBackIf_paletteCache (s : State) (w : Bool) (rn : Reg) (v : Word) : (s.writeBackIf w rn v).paletteCache = s.paletteCache := by
  unfold State.writeBackIf; split <;> rfl
@[simp] theorem State.writeBackIf_currentScanline (s : State) (w : Bool) (rn : Reg) (v : Word) : (s.writeBackIf w rn v).currentScanline = s.currentScanline := by
  unfold State.writeBackIf; split <;> rfl
@[simp] theorem State.writeBackIf_cyclesToNextHBlank (s : State) (w : Bool) (rn : Reg) (v : Word) : (s.writeBackIf w rn v).cyclesToNextHBlank = s.cyclesToNextHBlank := by
  unfold State.writeBackIf; split <;> rfl
@[simp] theorem State.writeBackIf_lastRenderedLine (s : State) (w : Bool) (rn : Reg) (v : Word) : (s.writeBackIf w rn v).lastRenderedLine = s.lastRenderedLine := by
  unfold State.writeBackIf; split <;> rfl
@[simp] theorem State.writeBackIf_mDispcnt (s : State) (w : Bool) (rn : Reg) (v : Word) : (s.writeBackIf w rn v).mDispcnt = s.mDispcnt := by
  unfold State.writeBackIf; split <;> rfl
@[simp] theorem State.writeBackIf_mDispstat (s : State) (w : Bool) (rn : Reg) (v : Word) : (s.writeBackIf w rn v).mDispstat = s.mDispstat := by
  unfold State.writeBackIf; split <;> rfl
@[simp] theorem State.writeBackIf_mVcount (s : State) (w : Bool) (rn : Reg) (v : Word) : (s.writeBackIf w rn v).mVcount = s.mVcount := by
  unfold State.writeBackIf; split <;> rfl
@[simp] theorem State.writeBackIf_mBgcnt (s : State) (w : Bool) (rn : Reg) (v : Word) : (s.writeBackIf w rn v).mBgcnt = s.mBgcnt := by
  unfold State.writeBackIf; split <;> rfl
@[simp] theorem State.writeBackIf_pixels (s : State) (w : Bool) (rn : Reg) (v : Word) : (s.writeBackIf w rn v).pixels = s.pixels := by
  unfold State.writeBackIf; split <;> rfl

/-! ### dpWrite -/

@[simp] theorem State.dpWrite_cfg (s : State) (sBit : Bool) (rd : Reg) (v : Word) :
    (s.dpWrite sBit rd v).cfg = s.cfg := by
  simp [State.dpWrite]
@[simp] theorem State.dpWrite_mem (s : State) (sBit : Bool) (rd : Reg) (v : Word) :
    (s.dpWrite sBit rd v).mem = s.mem := by
  simp [State.dpWrite]
@[simp] theorem State.dpWrite_rom (s : State) (sBit : Bool) (rd : Reg) (v : Word) :
    (s.dpWrite sBit rd v).rom = s.rom := by
  simp [State.dpWrite]
@[simp] theorem State.dpWrite_paletteCache (s : State) (sBit : Bool) (rd : Reg) (v : Word) :
    (s.dpWrite sBit rd v).paletteCache = s.paletteCache := by
  simp [State.dpWrite]
@[simp] theorem State.dpWrite_currentScanline (s : State) (sBit : Bool) (rd : Reg) (v : Word) :
    (s.dpWrite sBit rd v).currentScanline = s.currentScanline := by
  simp [State.dpWrite]
@[simp] theorem State.dpWrite_cyclesToNextHBlank (s : State) (sBit : Bool) (rd : Reg) (v : Word) :
    (s.dpWrite sBit rd v).cyclesToNextHBlank = s.cyclesToNextHBlank := by
  simp [State.dpWrite]
@[simp] theorem State.dpWrite_lastRenderedLine (s : State) (sBit : Bool) (rd : Reg) (v : Word) :
    (s.dpWrite sBit rd v).lastRenderedLine = s.lastRenderedLine := by
  simp [State.dpWrite]
@[simp] theorem State.dpWrite_mDispcnt (s : State) (sBit : Bool) (rd : Reg) (v : Word) :
    (s.dpWrite sBit rd v).mDispcnt = s.mDispcnt := by
  simp [State.dpWrite]
@[simp] theorem State.dpWrite_mDispstat (s : State) (sBit : Bool) (rd : Reg) (v : Word) :
    (s.dpWrite sBit rd v).mDispstat = s.mDispstat := by
  simp [State.dpWrite]
@[simp] theorem State.dpWrite_mVcount (s : State) (sBit : Bool) (rd : Reg) (v : Word) :
    (s.dpWrite sBit rd v).mVcount = s.mVcount := by
  simp [State.dpWrite]
@[simp] theorem State.dpWrite_mBgcnt (s : State) (sBit : Bool) (rd : Reg) (v : Word) :
    (s.dpWrite sBit rd v).mBgcnt = s.mBgcnt := by
  simp [State.dpWrite]
@[simp] theorem State.dpWrite_pixels (s : State) (sBit : Bool) (rd : Reg) (v : Word) :
    (s.dpWrite sBit rd v).pixels = s.pixels := by
  simp [State.dpWrite]

end Sys2Proof.Machine
end

