-- ==== Sys2Proof/Laws/Registers.lean ====
section
/-! SUPPORT. The laws of the registers, the program counter and the flags. -/

namespace Sys2Proof.Machine

/-! ### Registers -/

/-- Reading a register after a register was written. -/
theorem State.reg_setReg (s : State) (i j : Reg) (v : Word) :
    (s.setReg i v).reg j = if j = i then v else s.reg j := by
  simp only [State.reg, State.setReg, Vector.getElem_set, Fin.ext_iff, eq_comm]

@[simp] theorem State.reg_setReg_same (s : State) (i : Reg) (v : Word) : (s.setReg i v).reg i = v := by
  simp [State.reg_setReg]

theorem State.reg_setReg_other (s : State) {i j : Reg} (v : Word) (h : j ≠ i) :
    (s.setReg i v).reg j = s.reg j := by
  simp [State.reg_setReg, h]

/-- Registers depend on nothing else. -/
theorem State.reg_congr {s t : State} (h : t.regs = s.regs) (i : Reg) : t.reg i = s.reg i := by
  simp [State.reg, h]

@[simp] theorem State.reg_setNZ (s : State) (v : Word) (i : Reg) : (s.setNZ v).reg i = s.reg i := rfl

@[simp] theorem State.reg_setNZIf (s : State) (b : Bool) (v : Word) (i : Reg) :
    (s.setNZIf b v).reg i = s.reg i := State.reg_congr (by simp) i

/-! ### The program counter -/

@[simp] theorem State.reg15_advancePc (s : State) : s.advancePc.reg 15 = s.reg 15 + 4#32 := by
  simp [State.advancePc]

theorem State.reg_advancePc (s : State) {i : Reg} (h : i ≠ 15) : s.advancePc.reg i = s.reg i := by
  simp [State.advancePc, State.reg_setReg, h]

@[simp] theorem State.reg15_nextInstr (s : State) (a : Word) :
    (s.nextInstr a).reg 15 = (a &&& 0xFFFFFFFC#32) + 8#32 := by
  simp [State.nextInstr]

theorem State.reg_nextInstr (s : State) (a : Word) {i : Reg} (h : i ≠ 15) :
    (s.nextInstr a).reg i = s.reg i := by
  simp [State.nextInstr, State.reg_setReg, h]

/-- Everything a result write does to the registers. -/
theorem State.reg_writeRd (s : State) (rd : Reg) (v : Word) (i : Reg) :
    (s.writeRd rd v).reg i =
      if i = 15 then (if rd = 15 then (v &&& 0xFFFFFFFC#32) + 8#32 else s.reg 15 + 4#32)
      else if i = rd then v else s.reg i := by
  unfold State.writeRd
  by_cases h : rd = 15
  · by_cases hi : i = 15
    · simp [h, hi]
    · simp [h, hi, State.reg_nextInstr]
  · by_cases hi : i = 15
    · simp [h, hi, State.reg_setReg_other _ _ (Ne.symm h)]
    · simp [h, hi, State.reg_advancePc _ hi, State.reg_setReg]

/-! ### Flags -/

theorem nzCpsr_getLsbD (cpsr v : Word) (i : Nat) :
    (nzCpsr cpsr v).getLsbD i =
      if i = 31 then v.getLsbD 31 else if i = 30 then v == 0#32 else
        decide (i < 30) && cpsr.getLsbD i := by
  unfold nzCpsr
  simp only [BitVec.getLsbD_append, BitVec.getLsbD_extractLsb']
  by_cases h : i < 30
  · have h1 : i ≠ 31 := by omega
    have h2 : i ≠ 30 := by omega
    simp [h, h1, h2]
  · by_cases h0 : i = 30
    · subst h0; simp
    · by_cases h1 : i = 31
      · subst h1; simp
      · have : 31 ≤ i := by omega
        have h2 : ¬ i - 30 < 1 := by omega
        simp only [h, h0, h1, h2, decide_false, Bool.false_and, if_false]
        simp
        omega
@[simp] theorem flagN_nzCpsr (cpsr v : Word) : flagN (nzCpsr cpsr v) = v.getLsbD 31 := by
  rw [flagN, nzCpsr_getLsbD, if_pos rfl]

@[simp] theorem flagZ_nzCpsr (cpsr v : Word) : flagZ (nzCpsr cpsr v) = (v == 0#32) := by
  rw [flagZ, nzCpsr_getLsbD, if_neg (by decide), if_pos rfl]

/-- `SetNZ` leaves bits 29:0 alone (R18). -/
@[simp] theorem nzCpsr_low (cpsr v : Word) :
    (nzCpsr cpsr v).extractLsb' 0 30 = cpsr.extractLsb' 0 30 := by
  ext i hi
  have h1 : i ≠ 31 := by omega
  have h2 : i ≠ 30 := by omega
  simp [← BitVec.getLsbD_eq_getElem, nzCpsr_getLsbD, h1, h2, hi]

@[simp] theorem State.setNZ_cpsr (s : State) (v : Word) : (s.setNZ v).cpsr = nzCpsr s.cpsr v := rfl

theorem State.setNZIf_cpsr (s : State) (b : Bool) (v : Word) :
    (s.setNZIf b v).cpsr = if b then nzCpsr s.cpsr v else s.cpsr := by
  unfold State.setNZIf; split <;> rfl

/-! ### Instructions under their condition -/

/-- A condition that holds leaves the body. -/
theorem whenPassed_true {c : Cond} {s : State} (body : Result) (h : condPassed c s.cpsr = some true) :
    whenPassed c s body = body := by
  simp [whenPassed, h]

/-- What an instruction under a condition can answer with a next state. -/
theorem whenPassed_next {c : Cond} {s t : State} {body : Result} (h : whenPassed c s body = .next t) :
    (condPassed c s.cpsr = some false ∧ t = s.advancePc) ∨
      (condPassed c s.cpsr = some true ∧ body = .next t) := by
  unfold whenPassed at h
  split at h
  · cases h
  · next hc => left; cases h; exact ⟨hc, rfl⟩
  · next hc => right; exact ⟨hc, h⟩

/-- What an instruction under a condition can be refused for. -/
theorem whenPassed_refused {c : Cond} {s : State} {body : Result} {r : Refusal}
    (h : whenPassed c s body = .refused r) :
    (condPassed c s.cpsr = none ∧ r = .unassignedCondition c) ∨
      (condPassed c s.cpsr = some true ∧ body = .refused r) := by
  unfold whenPassed at h
  split at h
  · next hc => left; cases h; exact ⟨hc, rfl⟩
  · cases h
  · next hc => right; exact ⟨hc, h⟩

@[simp] theorem andThen_next (s : State) (k : State → Result) : andThen (.next s) k = k s := rfl

@[simp] theorem andThen_refused (r : Refusal) (k : State → Result) :
    andThen (.refused r) k = .refused r := rfl

/-- A sequence answers a next state where both parts do. -/
theorem andThen_eq_next {r : Result} {k : State → Result} {t : State} :
    andThen r k = .next t ↔ ∃ s, r = .next s ∧ k s = .next t := by
  cases r <;> simp [andThen]

/-- A sequence is refused where its first part is, or its second after the first. -/
theorem andThen_eq_refused {r : Result} {k : State → Result} {e : Refusal} :
    andThen r k = .refused e ↔ r = .refused e ∨ ∃ s, r = .next s ∧ k s = .refused e := by
  cases r <;> simp [andThen]

end Sys2Proof.Machine
end

