-- ==== Sys2Proof/Laws/Ppu.lean ====
section
/-! SUPPORT. The laws of the Ppu: what rendering and the flush leave alone, what a status refresh stores, and
how time passes. -/

namespace Sys2Proof.Machine

/-! ### Cells and IO registers -/

@[simp] theorem State.setByte_mem (s : State) (a : Nat) (v : Byte) :
    (s.setByte a v).mem = s.mem.write a v := rfl

@[simp] theorem State.io16_setIo16_same (s : State) (o : Nat) (v : Half) : (s.setIo16 o v).io16 o = v := by
  simp [State.io16, State.setIo16, Memory.read_write]

/-- Two IO registers at different even offsets are apart. -/
theorem State.io16_setIo16_other (s : State) {o p : Nat} (v : Half) (ho : o % 2 = 0) (hp : p % 2 = 0)
    (h : p ≠ o) : (s.setIo16 o v).io16 p = s.io16 p := by
  have h1 : 0x04000000 + p ≠ 0x04000000 + o := by omega
  have h2 : 0x04000000 + p ≠ 0x04000000 + o + 1 := by omega
  have h3 : 0x04000000 + p + 1 ≠ 0x04000000 + o := by omega
  have h4 : 0x04000000 + p + 1 ≠ 0x04000000 + o + 1 := by omega
  simp only [State.io16, State.setIo16, State.setByte_mem, Memory.read_write, if_neg h1, if_neg h2, if_neg h3,
    if_neg h4]

/-- IO registers depend on memory alone. -/
theorem State.io16_congr {s t : State} (h : t.mem = s.mem) (o : Nat) : t.io16 o = s.io16 o := by
  simp [State.io16, h]

/-- A byte of memory outside a stored IO register. -/
theorem State.read_setIo16_other (s : State) {o a : Nat} (v : Half) (h1 : a ≠ 0x04000000 + o)
    (h2 : a ≠ 0x04000000 + o + 1) : (s.setIo16 o v).mem.read a = s.mem.read a := by
  simp [State.setIo16, Memory.read_write, h1, h2]

/-! ### Rendering -/

/-- Rendering changes the frame buffer alone. -/
theorem State.renderLines_eq (n : Nat) (line : Fin 228) (s : State) :
    State.renderLines n line s = { s with pixels := (State.renderLines n line s).pixels } := by
  induction n generalizing line s with
  | zero => rfl
  | succ n ih =>
    unfold State.renderLines
    split
    · rw [ih]; rfl
    · rw [ih]

/-- A flush changes the frame buffer and `lastRenderedLine` alone. -/
theorem State.flushRenderQueue_eq (s : State) (lap : Bool) :
    s.flushRenderQueue lap = { s with
      pixels := (s.flushRenderQueue lap).pixels
      lastRenderedLine := s.currentScanline } := by
  unfold State.flushRenderQueue
  rw [State.renderLines_eq]

@[simp] theorem State.flushRenderQueue_cfg (s : State) (lap : Bool) : (s.flushRenderQueue lap).cfg = s.cfg := by
  rw [State.flushRenderQueue_eq]
@[simp] theorem State.flushRenderQueue_regs (s : State) (lap : Bool) :
    (s.flushRenderQueue lap).regs = s.regs := by rw [State.flushRenderQueue_eq]
@[simp] theorem State.flushRenderQueue_cpsr (s : State) (lap : Bool) :
    (s.flushRenderQueue lap).cpsr = s.cpsr := by rw [State.flushRenderQueue_eq]
@[simp] theorem State.flushRenderQueue_mem (s : State) (lap : Bool) : (s.flushRenderQueue lap).mem = s.mem := by
  rw [State.flushRenderQueue_eq]
@[simp] theorem State.flushRenderQueue_rom (s : State) (lap : Bool) : (s.flushRenderQueue lap).rom = s.rom := by
  rw [State.flushRenderQueue_eq]
@[simp] theorem State.flushRenderQueue_paletteCache (s : State) (lap : Bool) :
    (s.flushRenderQueue lap).paletteCache = s.paletteCache := by rw [State.flushRenderQueue_eq]
@[simp] theorem State.flushRenderQueue_currentScanline (s : State) (lap : Bool) :
    (s.flushRenderQueue lap).currentScanline = s.currentScanline := by rw [State.flushRenderQueue_eq]
@[simp] theorem State.flushRenderQueue_cyclesToNextHBlank (s : State) (lap : Bool) :
    (s.flushRenderQueue lap).cyclesToNextHBlank = s.cyclesToNextHBlank := by rw [State.flushRenderQueue_eq]
@[simp] theorem State.flushRenderQueue_lastRenderedLine (s : State) (lap : Bool) :
    (s.flushRenderQueue lap).lastRenderedLine = s.currentScanline := rfl
@[simp] theorem State.flushRenderQueue_mDispcnt (s : State) (lap : Bool) :
    (s.flushRenderQueue lap).mDispcnt = s.mDispcnt := by rw [State.flushRenderQueue_eq]
@[simp] theorem State.flushRenderQueue_mDispstat (s : State) (lap : Bool) :
    (s.flushRenderQueue lap).mDispstat = s.mDispstat := by rw [State.flushRenderQueue_eq]
@[simp] theorem State.flushRenderQueue_mVcount (s : State) (lap : Bool) :
    (s.flushRenderQueue lap).mVcount = s.mVcount := by rw [State.flushRenderQueue_eq]
@[simp] theorem State.flushRenderQueue_mBgcnt (s : State) (lap : Bool) :
    (s.flushRenderQueue lap).mBgcnt = s.mBgcnt := by rw [State.flushRenderQueue_eq]

/-! ### Status -/

/-- The bits of DISPSTAT as recomputed. -/
theorem State.dispstat_getLsbD (s : State) (i : Nat) :
    s.dispstat.getLsbD i = if i < 3 then s.statusBits.getLsbD i else
      ((s.io16 0x004).extractLsb' 3 13).getLsbD (i - 3) := by
  have h := BitVec.getLsbD_append (x := (s.io16 0x004).extractLsb' 3 13) (y := s.statusBits) (i := i)
  rw [← h]; rfl

/-- The low three bits of DISPSTAT as recomputed are the status bits. -/
@[simp] theorem State.dispstat_low (s : State) : s.dispstat.extractLsb' 0 3 = s.statusBits := by
  apply BitVec.eq_of_getLsbD_eq
  intro i hi
  rw [BitVec.getLsbD_extractLsb', Nat.zero_add, State.dispstat_getLsbD, if_pos hi]
  simp [hi]

/-- The other bits of DISPSTAT as recomputed are those of the register. -/
theorem State.dispstat_high (s : State) : s.dispstat.extractLsb' 3 13 = (s.io16 0x004).extractLsb' 3 13 := by
  apply BitVec.eq_of_getLsbD_eq
  intro i hi
  have e : 3 + i - 3 = i := by omega
  rw [BitVec.getLsbD_extractLsb', State.dispstat_getLsbD, if_neg (by omega), e]
  simp [hi]

@[simp] theorem State.refreshStatus_io4 (s : State) : s.refreshStatus.io16 0x004 = s.dispstat := by
  have : s.refreshStatus.io16 0x004 = ((s.setIo16 0x004 s.dispstat).setIo16 0x006 s.vcount).io16 0x004 := rfl
  rw [this, State.io16_setIo16_other _ _ (by decide) (by decide) (by decide), State.io16_setIo16_same]

@[simp] theorem State.refreshStatus_io6 (s : State) : s.refreshStatus.io16 0x006 = s.vcount := by
  have : s.refreshStatus.io16 0x006 = ((s.setIo16 0x004 s.dispstat).setIo16 0x006 s.vcount).io16 0x006 := rfl
  rw [this, State.io16_setIo16_same]

@[simp] theorem State.refreshStatus_mDispstat (s : State) : s.refreshStatus.mDispstat = s.dispstat := rfl
@[simp] theorem State.refreshStatus_mVcount (s : State) : s.refreshStatus.mVcount = s.vcount := rfl

/-- A refresh leaves every other IO register alone. -/
theorem State.refreshStatus_io_other (s : State) {o : Nat} (ho : o % 2 = 0) (h4 : o ≠ 4) (h6 : o ≠ 6) :
    s.refreshStatus.io16 o = s.io16 o := by
  have : s.refreshStatus.io16 o = ((s.setIo16 0x004 s.dispstat).setIo16 0x006 s.vcount).io16 o := rfl
  rw [this, State.io16_setIo16_other _ _ (by decide) ho h6, State.io16_setIo16_other _ _ (by decide) ho h4]

/-- A refresh leaves every byte alone but the four of DISPSTAT and VCOUNT. -/
theorem State.refreshStatus_read_other (s : State) {a : Nat}
    (h : a < 0x04000004 ∨ 0x04000008 ≤ a) : s.refreshStatus.mem.read a = s.mem.read a := by
  have : s.refreshStatus.mem = ((s.setIo16 0x004 s.dispstat).setIo16 0x006 s.vcount).mem := rfl
  rw [this, State.read_setIo16_other _ _ (by omega) (by omega),
    State.read_setIo16_other _ _ (by omega) (by omega)]

/-- The status bits depend on the match value, the scanline and the budget alone. -/
theorem State.statusBits_congr {s t : State} (h4 : (t.io16 0x004).extractLsb' 8 8 = (s.io16 0x004).extractLsb' 8 8)
    (hl : t.currentScanline = s.currentScanline) (hb : t.cyclesToNextHBlank = s.cyclesToNextHBlank)
    (hc : t.cfg = s.cfg) : t.statusBits = s.statusBits := by
  simp [State.statusBits, h4, hl, hb, hc]

/-- The match value of DISPSTAT as recomputed is the register's. -/
theorem State.dispstat_match (s : State) :
    s.dispstat.extractLsb' 8 8 = (s.io16 0x004).extractLsb' 8 8 := by
  have h := s.dispstat_high
  apply BitVec.eq_of_getLsbD_eq
  intro i hi
  have e := congrArg (fun x => x.getLsbD (5 + i)) h
  have h13 : 5 + i < 13 := by omega
  have e3 : 3 + (5 + i) = 8 + i := by omega
  simpa [h13, e3, hi] using e

/-- After a refresh the status registers are the computed ones (R203). -/
theorem State.refreshStatus_synced (s : State) :
    (s.refreshStatus.io16 0x004).extractLsb' 0 3 = s.refreshStatus.statusBits ∧
      s.refreshStatus.mDispstat = s.refreshStatus.io16 0x004 ∧
      s.refreshStatus.io16 0x006 = s.refreshStatus.vcount ∧
      s.refreshStatus.mVcount = s.refreshStatus.vcount := by
  have e : s.refreshStatus.statusBits = s.statusBits :=
    State.statusBits_congr (by rw [State.refreshStatus_io4, State.dispstat_match]) (by simp) (by simp) (by simp)
  refine ⟨by simp [e], by simp, ?_, ?_⟩ <;> simp [State.vcount]

end Sys2Proof.Machine
end

