-- ==== Sys2Proof/Laws/Bus.lean ====
section
/-! SUPPORT. The laws of the Bus: everything a read depends on, everything a write can do, and what a
property must bear for every write, transfer, STM and block service to keep it. -/

namespace Sys2Proof.Machine

/-! ### Reads -/

/-- A byte with a cell reads as its cell. -/
theorem State.read8_of_cell (s : State) {a : Word} {k : Nat} (h : cellOf a = some k) :
    s.read8 a = s.mem.read k := by
  obtain ⟨r, o, hd, hb, hr, rfl⟩ := (cellOf_eq_some a k).1 h
  cases r <;> first | exact absurd rfl hb | exact absurd rfl hr | simp [State.read8, hd, State.regionByte]

/-- A byte without a cell depends on the parameters and the ROM image alone. -/
theorem State.read8_of_no_cell {s t : State} {a : Word} (h : cellOf a = none) (hc : t.cfg = s.cfg)
    (hr : t.rom = s.rom) : t.read8 a = s.read8 a := by
  unfold cellOf at h
  unfold State.read8
  split at h <;> simp_all [State.regionByte, State.biosByte, State.romCovers]

/-- A word in one region reads as its four bytes (R44, R48). -/
theorem State.read32_of_decode (s : State) {a : Word} {r : Region} {o : Nat}
    (h : decodeAddr (align4 a) = some (r, o)) (hr : r ≠ .rom) :
    s.read32 a = le32 (s.regionByte r o) (s.regionByte r (o + 1)) (s.regionByte r (o + 2))
      (s.regionByte r (o + 3)) := by
  cases r <;> first | exact absurd rfl hr | simp [State.read32, h]

/-- A halfword in one region reads as its two bytes (R44, R47). -/
theorem State.read16_of_decode (s : State) {a : Word} {r : Region} {o : Nat}
    (h : decodeAddr (align2 a) = some (r, o)) (hr : r ≠ .rom) :
    s.read16 a = le16 (s.regionByte r o) (s.regionByte r (o + 1)) := by
  cases r <;> first | exact absurd rfl hr | simp [State.read16, h]

/-- The byte of a writable region is its cell. -/
theorem State.regionByte_writable (s : State) {r : Region} (hr : r.writable = true) (o : Nat) :
    s.regionByte r o = s.mem.read (r.base + o) := by
  cases r <;> first | rfl | cases hr

/-- Reads depend on memory, the parameters and the ROM image alone. -/
theorem State.read32_congr {s t : State} (hm : t.mem = s.mem) (hc : t.cfg = s.cfg) (hr : t.rom = s.rom)
    (a : Word) : t.read32 a = s.read32 a := by
  simp [State.read32, State.regionByte, State.biosByte, State.romCovers, hm, hc, hr]

/-- Reads depend on memory, the parameters and the ROM image alone. -/
theorem State.read16_congr {s t : State} (hm : t.mem = s.mem) (hc : t.cfg = s.cfg) (hr : t.rom = s.rom)
    (a : Word) : t.read16 a = s.read16 a := by
  simp [State.read16, State.regionByte, State.biosByte, State.romCovers, hm, hc, hr]

/-- Reads depend on memory, the parameters and the ROM image alone. -/
theorem State.read8_congr {s t : State} (hm : t.mem = s.mem) (hc : t.cfg = s.cfg) (hr : t.rom = s.rom)
    (a : Word) : t.read8 a = s.read8 a := by
  simp [State.read8, State.regionByte, State.biosByte, State.romCovers, hm, hc, hr]

/-! ### What every write keeps -/

/-- The regions whose bytes are stored without an observer (R56). -/
def Region.plain (r : Region) : Bool := r == .ewram || r == .iwram || r == .vram || r == .oam

/-- A property that every store of the Bus keeps, short of a trigger. -/
structure KeptByStores (P : State → Prop) : Prop where
  plain : ∀ (s : State) (r : Region) (o : Nat) (v : Byte), r.plain = true → o < r.capacity → P s →
    P (s.setByte (r.base + o) v)
  pal8 : ∀ (s : State) (o : Nat) (v : Byte), o < 0x400 → P s → P (s.palStore8 o v)
  pal16 : ∀ (s : State) (o : Nat) (v : Half), o % 2 = 0 → o < 0x400 → P s → P (s.palStore16 o v)
  io : ∀ (s : State) (o : Nat) (v : Half), o % 2 = 0 → o < 0x400 → dmaTrigger o v = none → P s →
    P (s.ioStore o v)

/-- A property that every Bus write of an instruction keeps: `Q n` holds while channel `n` transfers. -/
structure KeptByTransfers (P : State → Prop) (Q : Fin 4 → State → Prop) : Prop where
  stores : KeptByStores P
  inside : ∀ n, KeptByStores (Q n)
  enter : ∀ (s : State) (n : Fin 4) (o : Nat) (v : Half), o % 2 = 0 → o < 0x400 →
    dmaTrigger o v = some n → P s → Q n (s.ioStore o v)
  leave : ∀ (n : Fin 4) (s : State), Q n s → P (s.dmaClearEnable n)

/-- What a trigger does keeps a property. -/
def TriggerKeeps (onTrigger : Fin 4 → State → Result) (P : State → Prop) : Prop :=
  ∀ (s t : State) (n : Fin 4) (o : Nat) (v : Half), o % 2 = 0 → o < 0x400 → dmaTrigger o v = some n → P s →
    onTrigger n (s.ioStore o v) = .next t → P t

theorem nestedTrigger_keeps (P : State → Prop) : TriggerKeeps nestedTrigger P := by
  intro s t n o v _ _ _ _ h; cases h

section Kept

variable {P : State → Prop} {onTrigger : Fin 4 → State → Result}

theorem ioWrite16With_keeps (hP : KeptByStores P) (hf : TriggerKeeps onTrigger P) {s t : State} {o : Nat}
    {v : Half} (h1 : o % 2 = 0) (h2 : o < 0x400) (hs : P s) (h : ioWrite16With onTrigger o v s = .next t) :
    P t := by
  unfold ioWrite16With at h
  split at h
  · next hd => cases h; exact hP.io s o v h1 h2 hd hs
  · next n hd => exact hf s t n o v h1 h2 hd hs h

theorem write8With_keeps (hP : KeptByStores P) (hf : TriggerKeeps onTrigger P) {s t : State} {a : Word}
    {v : Byte} (hs : P s) (h : write8With onTrigger a v s = .next t) : P t := by
  unfold write8With at h
  split at h
  case h_1 | h_2 | h_3 => cases h; exact hs
  case h_8 hd => cases h; exact hP.pal8 _ _ _ (decodeAddr_lt_capacity hd) hs
  case h_9 o hd =>
    have : o < 0x400 := decodeAddr_lt_capacity hd
    exact ioWrite16With_keeps hP hf (by omega) (by omega) hs h
  all_goals
    rename_i hd
    cases h
    exact hP.plain _ _ _ _ rfl (decodeAddr_lt_capacity hd) hs

theorem ramStore16_keeps (hP : KeptByStores P) {s : State} {r : Region} {o : Nat} (v : Half)
    (hr : r.plain = true) (ho : o + 1 < r.capacity) (hs : P s) : P (s.ramStore16 r o v) :=
  hP.plain _ r (o + 1) _ hr ho (hP.plain _ r o _ hr (by omega) hs)

theorem write16With_keeps (hP : KeptByStores P) (hf : TriggerKeeps onTrigger P) {s t : State} {a : Word}
    {v : Half} (hs : P s) (h : write16With onTrigger a v s = .next t) : P t := by
  unfold write16With at h
  split at h
  case h_1 | h_2 | h_3 => cases h; exact hs
  case h_8 hd =>
    cases h
    have hk := decodeAddr_align2 hd (i := 1) (by decide)
    have := hk.2.2
    exact hP.pal16 _ _ _ hk.2.1 (by change _ < 0x400 at this; omega) hs
  case h_9 o hd =>
    have hk := decodeAddr_align2 hd (i := 1) (by decide)
    have := hk.2.2
    exact ioWrite16With_keeps hP hf hk.2.1 (by change _ < 0x400 at this; omega) hs h
  all_goals
    rename_i hd
    cases h
    exact ramStore16_keeps hP _ rfl (decodeAddr_align2 hd (i := 1) (by decide)).2.2 hs

theorem write32With_keeps (hP : KeptByStores P) (hf : TriggerKeeps onTrigger P) {s t : State} {a v : Word}
    (hs : P s) (h : write32With onTrigger a v s = .next t) : P t := by
  obtain ⟨u, h1, h2⟩ := andThen_eq_next.1 h
  exact write16With_keeps hP hf (write16With_keeps hP hf hs h1) h2

theorem writeUnitWith_keeps (hP : KeptByStores P) (hf : TriggerKeeps onTrigger P) {s t : State} {wide : Bool}
    {a v : Word} (hs : P s) (h : writeUnitWith onTrigger wide a v s = .next t) : P t := by
  unfold writeUnitWith at h
  split at h
  · exact write32With_keeps hP hf hs h
  · exact write16With_keeps hP hf hs h

theorem copyUnitsWith_keeps (hP : KeptByStores P) (hf : TriggerKeeps onTrigger P) {wide : Bool} {n : Nat}
    {src dst : Word} {s t : State} (hs : P s) (h : copyUnitsWith onTrigger wide n src dst s = .next t) :
    P t := by
  induction n generalizing src dst s with
  | zero => cases h; exact hs
  | succ n ih =>
    obtain ⟨u, h1, h2⟩ := andThen_eq_next.1 h
    exact ih (writeUnitWith_keeps hP hf hs h1) h2

theorem fillUnitsWith_keeps (hP : KeptByStores P) (hf : TriggerKeeps onTrigger P) {wide : Bool} {v : Word}
    {n : Nat} {dst : Word} {s t : State} (hs : P s) (h : fillUnitsWith onTrigger wide v n dst s = .next t) :
    P t := by
  induction n generalizing dst s with
  | zero => cases h; exact hs
  | succ n ih =>
    obtain ⟨u, h1, h2⟩ := andThen_eq_next.1 h
    exact ih (writeUnitWith_keeps hP hf hs h1) h2

variable {Q : Fin 4 → State → Prop}

/-- A transfer, from the trigger to the cleared enable bit. -/
theorem runTransfer_keeps (hk : KeptByTransfers P Q) : TriggerKeeps runTransfer P := by
  intro s t n o v h1 h2 hd hs h
  obtain ⟨u, hu, ht⟩ := andThen_eq_next.1 h
  cases ht
  exact hk.leave n u
    (copyUnitsWith_keeps (hk.inside n) (nestedTrigger_keeps _) (hk.enter s n o v h1 h2 hd hs) hu)

theorem write8_keeps (hk : KeptByTransfers P Q) {s t : State} {a : Word} {v : Byte} (hs : P s)
    (h : write8 a v s = .next t) : P t := write8With_keeps hk.stores (runTransfer_keeps hk) hs h

theorem write16_keeps (hk : KeptByTransfers P Q) {s t : State} {a : Word} {v : Half} (hs : P s)
    (h : write16 a v s = .next t) : P t := write16With_keeps hk.stores (runTransfer_keeps hk) hs h

theorem write32_keeps (hk : KeptByTransfers P Q) {s t : State} {a v : Word} (hs : P s)
    (h : write32 a v s = .next t) : P t := write32With_keeps hk.stores (runTransfer_keeps hk) hs h

theorem storeRegs_keeps (hk : KeptByTransfers P Q) {list : List Reg} {a : Word} {s t : State} (hs : P s)
    (h : storeRegs list a s = .next t) : P t := by
  induction list generalizing a s with
  | nil => cases h; exact hs
  | cons r rest ih =>
    obtain ⟨u, h1, h2⟩ := andThen_eq_next.1 h
    exact ih (write32_keeps hk hs h1) h2

theorem blockCopyFill_keeps (hk : KeptByTransfers P Q) {s t : State} (hs : P s)
    (h : blockCopyFill s = .next t) : P t := by
  unfold blockCopyFill at h
  dsimp only at h
  split at h
  · exact fillUnitsWith_keeps hk.stores (runTransfer_keeps hk) hs h
  · exact copyUnitsWith_keeps hk.stores (runTransfer_keeps hk) hs h

end Kept

/-! ### When a write is refused -/

/-- A refusal that only a trigger inside a transfer gives (R248). -/
def IsNested (e : Refusal) : Prop := ∃ n : Fin 4, e = .nestedDmaTransfer n

section Refused

variable {onTrigger : Fin 4 → State → Result}

/-- What a trigger is refused for. -/
def TriggerNested (onTrigger : Fin 4 → State → Result) : Prop :=
  ∀ (n : Fin 4) (s : State) (e : Refusal), onTrigger n s = .refused e → IsNested e

theorem nestedTrigger_nested : TriggerNested nestedTrigger := by
  intro n s e h; cases h; exact ⟨n, rfl⟩

theorem ioWrite16With_refused (hf : TriggerNested onTrigger) {s : State} {o : Nat} {v : Half} {e : Refusal}
    (h : ioWrite16With onTrigger o v s = .refused e) : IsNested e := by
  unfold ioWrite16With at h
  split at h
  · cases h
  · exact hf _ _ _ h

theorem write8With_refused (hf : TriggerNested onTrigger) {s : State} {a : Word} {v : Byte} {e : Refusal}
    (h : write8With onTrigger a v s = .refused e) : IsNested e := by
  unfold write8With at h
  split at h
  all_goals first | (cases h) | exact ioWrite16With_refused hf h

theorem write16With_refused (hf : TriggerNested onTrigger) {s : State} {a : Word} {v : Half} {e : Refusal}
    (h : write16With onTrigger a v s = .refused e) : IsNested e := by
  unfold write16With at h
  split at h
  all_goals first | (cases h) | exact ioWrite16With_refused hf h

theorem write32With_refused (hf : TriggerNested onTrigger) {s : State} {a v : Word} {e : Refusal}
    (h : write32With onTrigger a v s = .refused e) : IsNested e := by
  rcases andThen_eq_refused.1 h with h | ⟨u, _, h⟩ <;> exact write16With_refused hf h

theorem writeUnitWith_refused (hf : TriggerNested onTrigger) {s : State} {wide : Bool} {a v : Word}
    {e : Refusal} (h : writeUnitWith onTrigger wide a v s = .refused e) : IsNested e := by
  unfold writeUnitWith at h
  split at h
  · exact write32With_refused hf h
  · exact write16With_refused hf h

theorem copyUnitsWith_refused (hf : TriggerNested onTrigger) {wide : Bool} {n : Nat} {src dst : Word}
    {s : State} {e : Refusal} (h : copyUnitsWith onTrigger wide n src dst s = .refused e) : IsNested e := by
  induction n generalizing src dst s with
  | zero => cases h
  | succ n ih =>
    rcases andThen_eq_refused.1 h with h | ⟨u, _, h⟩
    · exact writeUnitWith_refused hf h
    · exact ih h

theorem fillUnitsWith_refused (hf : TriggerNested onTrigger) {wide : Bool} {v : Word} {n : Nat} {dst : Word}
    {s : State} {e : Refusal} (h : fillUnitsWith onTrigger wide v n dst s = .refused e) : IsNested e := by
  induction n generalizing dst s with
  | zero => cases h
  | succ n ih =>
    rcases andThen_eq_refused.1 h with h | ⟨u, _, h⟩
    · exact writeUnitWith_refused hf h
    · exact ih h

theorem runTransfer_nested : TriggerNested runTransfer := by
  intro n s e h
  rcases andThen_eq_refused.1 h with h | ⟨u, _, h⟩
  · exact copyUnitsWith_refused nestedTrigger_nested h
  · cases h

theorem storeRegs_refused {list : List Reg} {a : Word} {s : State} {e : Refusal}
    (h : storeRegs list a s = .refused e) : IsNested e := by
  induction list generalizing a s with
  | nil => cases h
  | cons r rest ih =>
    rcases andThen_eq_refused.1 h with h | ⟨u, _, h⟩
    · exact write32With_refused runTransfer_nested h
    · exact ih h

theorem blockCopyFill_refused {s : State} {e : Refusal} (h : blockCopyFill s = .refused e) : IsNested e := by
  unfold blockCopyFill at h
  dsimp only at h
  split at h
  · exact fillUnitsWith_refused runTransfer_nested h
  · exact copyUnitsWith_refused runTransfer_nested h

end Refused

/-! ### What every Bus write keeps -/

/-- A store of the Ppu's observer changes the picture, the mirrors and the status registers alone. -/
theorem ppuOnIoWrite_sameOutsideBus (s : State) (o : Nat) (v : Half) :
    SameOutsideBus s (s.ppuOnIoWrite o v) := by
  unfold State.ppuOnIoWrite
  split_ifs <;> constructor <;> simp

theorem ioStore_sameOutsideBus (s : State) (o : Nat) (v : Half) : SameOutsideBus s (s.ioStore o v) := by
  have h := ppuOnIoWrite_sameOutsideBus (s.setIo16 o v) o v
  constructor
  · exact h.cfg
  · exact h.regs
  · exact h.cpsr
  · exact h.rom
  · exact h.currentScanline
  · exact h.cyclesToNextHBlank

theorem SameOutsideBus.refl (s : State) : SameOutsideBus s s := by constructor <;> rfl

theorem SameOutsideBus.trans {s t u : State} (h1 : SameOutsideBus s t) (h2 : SameOutsideBus t u) :
    SameOutsideBus s u := by
  constructor
  · exact h2.cfg.trans h1.cfg
  · exact h2.regs.trans h1.regs
  · exact h2.cpsr.trans h1.cpsr
  · exact h2.rom.trans h1.rom
  · exact h2.currentScanline.trans h1.currentScanline
  · exact h2.cyclesToNextHBlank.trans h1.cyclesToNextHBlank

theorem keptByStores_sameOutsideBus (s : State) : KeptByStores (SameOutsideBus s) where
  plain u _ _ _ _ _ h := h.trans (by constructor <;> rfl)
  pal8 u _ _ _ h := h.trans (by constructor <;> rfl)
  pal16 u _ _ _ _ h := h.trans (by constructor <;> rfl)
  io u o v _ _ _ h := h.trans (ioStore_sameOutsideBus u o v)

/-- No Bus write touches the CPU, the parameters, the ROM image or the Ppu's time. -/
theorem keptByTransfers_sameOutsideBus (s : State) :
    KeptByTransfers (SameOutsideBus s) (fun _ => SameOutsideBus s) where
  stores := keptByStores_sameOutsideBus s
  inside _ := keptByStores_sameOutsideBus s
  enter u _ o v _ _ _ h := h.trans (ioStore_sameOutsideBus u o v)
  leave _ u h := h.trans (by constructor <;> simp)

/-! ### The canonical form of memory -/

theorem setIo16_mem_wf {s : State} {o : Nat} (v : Half) (ho : o + 1 < 0x400) (h : s.mem.wf = true) :
    (s.setIo16 o v).mem.wf = true :=
  Memory.wf_write _ (Memory.wf_write _ h (isStorage_of_lt (r := .io) rfl (by change o < 0x400; omega)))
    (isStorage_of_lt (r := .io) rfl (o := o + 1) ho)

theorem refreshStatus_mem_wf {s : State} (h : s.mem.wf = true) : s.refreshStatus.mem.wf = true :=
  setIo16_mem_wf (s := s.setIo16 0x004 s.dispstat) _ (by decide) (setIo16_mem_wf _ (by decide) h)

/-- What the observer does to memory: it refreshes the status registers or nothing. -/
theorem ppuOnIoWrite_mem (s : State) (o : Nat) (v : Half) :
    (s.ppuOnIoWrite o v).mem = if o = 0x004 ∨ o = 0x006 then s.refreshStatus.mem else s.mem := by
  unfold State.ppuOnIoWrite
  by_cases h4 : o = 0x004
  · subst h4; rfl
  by_cases h6 : o = 0x006
  · subst h6; rfl
  simp only [h4, h6, or_self, if_false]
  split_ifs <;> first | rfl | exact State.flushRenderQueue_mem s false

theorem ppuOnIoWrite_mem_wf {s : State} (o : Nat) (v : Half) (h : s.mem.wf = true) :
    (s.ppuOnIoWrite o v).mem.wf = true := by
  rw [ppuOnIoWrite_mem]
  split
  · exact refreshStatus_mem_wf h
  · exact h

theorem keptByStores_memWf : KeptByStores (fun s => s.mem.wf = true) where
  plain s r o v hr ho h := by
    refine Memory.wf_write _ h (isStorage_of_lt ?_ ho)
    revert hr; cases r <;> decide
  pal8 s o v ho h := Memory.wf_write _ h (isStorage_of_lt (r := .pal) rfl ho)
  pal16 s o v he ho h :=
    Memory.wf_write _ (Memory.wf_write _ h (isStorage_of_lt (r := .pal) rfl ho))
      (isStorage_of_lt (r := .pal) rfl (o := o + 1) (by change o + 1 < 0x400; omega))
  io s o v he ho _ h := ppuOnIoWrite_mem_wf o v (setIo16_mem_wf v (by omega) h)

theorem dmaControl_lt (n : Fin 4) : dmaControl n + 1 < 0x400 := by
  unfold dmaControl dmaWindow; omega

/-- Every Bus write keeps the canonical form of memory. -/
theorem keptByTransfers_memWf :
    KeptByTransfers (fun s => s.mem.wf = true) (fun _ s => s.mem.wf = true) where
  stores := keptByStores_memWf
  inside _ := keptByStores_memWf
  enter s _ o v he ho _ h := ppuOnIoWrite_mem_wf o v (setIo16_mem_wf v (by omega) h)
  leave n _ h := setIo16_mem_wf _ (dmaControl_lt n) h

end Sys2Proof.Machine
end

