-- ==== Sys2Proof/Laws/Time.lean ====
section
/-! SUPPORT. The laws of the Ppu's clock: what the end of a scanline changes, what a property must bear for
`advance` to keep it, and how the budget and the scanline move (47_ppu.md R206). -/

namespace Sys2Proof.Machine

/-! ### What the clock leaves alone -/

/-- Nothing differs but the Ppu's time, the picture and the two status registers. -/
structure SameOutsideTime (s t : State) : Prop where
  cfg : t.cfg = s.cfg
  regs : t.regs = s.regs
  cpsr : t.cpsr = s.cpsr
  rom : t.rom = s.rom
  paletteCache : t.paletteCache = s.paletteCache
  mDispcnt : t.mDispcnt = s.mDispcnt
  mBgcnt : t.mBgcnt = s.mBgcnt
  mem : ∀ a, (a < 0x04000004 ∨ 0x04000008 ≤ a) → t.mem.read a = s.mem.read a

theorem SameOutsideTime.refl (s : State) : SameOutsideTime s s := by constructor <;> simp

theorem SameOutsideTime.trans {s t u : State} (h1 : SameOutsideTime s t) (h2 : SameOutsideTime t u) :
    SameOutsideTime s u := by
  constructor
  · exact h2.cfg.trans h1.cfg
  · exact h2.regs.trans h1.regs
  · exact h2.cpsr.trans h1.cpsr
  · exact h2.rom.trans h1.rom
  · exact h2.paletteCache.trans h1.paletteCache
  · exact h2.mDispcnt.trans h1.mDispcnt
  · exact h2.mBgcnt.trans h1.mBgcnt
  · exact fun a ha => (h2.mem a ha).trans (h1.mem a ha)

theorem refreshStatus_sameOutsideTime (s : State) : SameOutsideTime s s.refreshStatus := by
  constructor
  case mem => exact fun a ha => s.refreshStatus_read_other ha
  all_goals simp

theorem flushRenderQueue_sameOutsideTime (s : State) (lap : Bool) :
    SameOutsideTime s (s.flushRenderQueue lap) := by
  constructor <;> simp

/-- The next scanline with its budget, before the status registers follow. -/
def State.nextLine (s : State) : State :=
  { s with
    cyclesToNextHBlank := s.cyclesToNextHBlank + s.cfg.hCycles
    currentScanline := s.currentScanline + 1 }

theorem State.endScanline_eq (s : State) : s.endScanline =
    if s.nextLine.refreshStatus.currentScanline = 160 then s.nextLine.refreshStatus.flushRenderQueue true
    else s.nextLine.refreshStatus := rfl

theorem endScanline_sameOutsideTime (s : State) : SameOutsideTime s s.endScanline := by
  have h : SameOutsideTime s s.nextLine.refreshStatus :=
    SameOutsideTime.trans (by constructor <;> simp [State.nextLine]) (refreshStatus_sameOutsideTime _)
  rw [State.endScanline_eq]
  split
  · exact h.trans (flushRenderQueue_sameOutsideTime _ _)
  · exact h

@[simp] theorem State.endScanline_currentScanline (s : State) :
    s.endScanline.currentScanline = s.currentScanline + 1 := by
  rw [State.endScanline_eq]
  split <;> simp [State.nextLine]

@[simp] theorem State.endScanline_cyclesToNextHBlank (s : State) :
    s.endScanline.cyclesToNextHBlank = s.cyclesToNextHBlank + s.cfg.hCycles := by
  rw [State.endScanline_eq]
  split <;> simp [State.nextLine]

@[simp] theorem State.endScanline_cfg (s : State) : s.endScanline.cfg = s.cfg :=
  (endScanline_sameOutsideTime s).cfg

/-! ### What advance keeps -/

/-- A property that the end of a scanline keeps, the loop keeps. -/
theorem endScanlines_keeps {P : State → Prop} (hP : ∀ s, P s → P s.endScanline) (n : Nat) {s : State}
    (h : P s) : P (State.endScanlines n s) := by
  induction n generalizing s with
  | zero => exact h
  | succ n ih =>
    unfold State.endScanlines
    split
    · exact ih (hP s h)
    · exact h

/-- The cycles of a step taken from the budget, before scanlines end. -/
def State.spend (s : State) (c : Nat) : State := { s with cyclesToNextHBlank := s.cyclesToNextHBlank - c }

theorem State.advance_eq (s : State) (c : Nat) : s.advance c =
    (State.endScanlines (1 - (s.spend c).cyclesToNextHBlank).toNat (s.spend c)).refreshStatus := rfl

theorem advance_sameOutsideTime (s : State) (c : Nat) : SameOutsideTime s (s.advance c) := by
  rw [State.advance_eq]
  have h0 : SameOutsideTime s (s.spend c) := by constructor <;> simp [State.spend]
  exact (endScanlines_keeps (P := SameOutsideTime s)
    (fun u hu => hu.trans (endScanline_sameOutsideTime u)) _ h0).trans (refreshStatus_sameOutsideTime _)

/-- The frame buffer stays opaque where rendering leaves opaque rows. -/
theorem renderedRow_opaque (s : State) (line : Nat) (x : Fin 240) : ((s.renderedRow line)[x.val]).a = 0xFF#8 := by
  have hb : ∀ x : Fin 240, (s.backdropRow[x.val]).a = 0xFF#8 := by
    intro x; simp [State.backdropRow, Rgb.opaquePixel]
  have hp : ∀ (n : Fin 4) (row : Row), (∀ x : Fin 240, (row[x.val]).a = 0xFF#8) →
      ∀ x : Fin 240, ((s.paintLayerIf n line row)[x.val]).a = 0xFF#8 := by
    intro n row hrow x
    unfold State.paintLayerIf
    split
    · simp only [State.paintLayer, Vector.getElem_ofFn]
      split
      · exact hrow x
      · rfl
    · exact hrow x
  unfold State.renderedRow
  split_ifs
  · exact hb x
  · simp [State.mode3Row, Rgb.opaquePixel]
  · exact hp 0 _ (hp 1 _ (hp 2 _ (hp 3 _ hb))) x
  · exact hb x

/-- Every pixel is opaque. -/
def State.Opaque (s : State) : Prop := ∀ (line : Fin 160) (x : Fin 240), (s.pixel line x).a = 0xFF#8

theorem renderScanLine_opaque {s : State} (line : Fin 160) (h : s.Opaque) : (s.renderScanLine line).Opaque := by
  intro l x
  by_cases hl : l.val = line.val
  · have : (s.renderScanLine line).pixel l x = (s.renderedRow line.val)[x.val] := by
      simp [State.pixel, State.renderScanLine, hl]
    rw [this]
    exact renderedRow_opaque s _ x
  · have : (s.renderScanLine line).pixel l x = s.pixel l x := by
      simp [State.pixel, State.renderScanLine, Vector.getElem_set, Ne.symm hl]
    rw [this]
    exact h l x

theorem renderLines_opaque (n : Nat) (line : Fin 228) {s : State} (h : s.Opaque) :
    (State.renderLines n line s).Opaque := by
  induction n generalizing line s with
  | zero => exact h
  | succ n ih =>
    unfold State.renderLines
    split
    · exact ih _ (renderScanLine_opaque _ h)
    · exact ih _ h

theorem flushRenderQueue_opaque (lap : Bool) {s : State} (h : s.Opaque) :
    (s.flushRenderQueue lap).Opaque := renderLines_opaque (s.flushCount lap) (s.lastRenderedLine + 1) h

theorem refreshStatus_opaque {s : State} (h : s.Opaque) : s.refreshStatus.Opaque := h

theorem endScanline_opaque {s : State} (h : s.Opaque) : s.endScanline.Opaque := by
  have h1 : s.nextLine.refreshStatus.Opaque := h
  rw [State.endScanline_eq]
  split
  · exact flushRenderQueue_opaque _ h1
  · exact h1

theorem advance_opaque {s : State} (c : Nat) (h : s.Opaque) : (s.advance c).Opaque := by
  rw [State.advance_eq]
  exact refreshStatus_opaque
    (endScanlines_keeps (P := State.Opaque) (fun _ => endScanline_opaque) _ (show (s.spend c).Opaque from h))

/-! ### How time moves -/

/-- The loop ends `k` scanlines, as few as make the budget positive. -/
theorem endScanlines_time (n : Nat) (s : State) (hH : 1 ≤ s.cfg.hCycles)
    (hn : 1 - s.cyclesToNextHBlank ≤ n) : ∃ k : Nat,
    (State.endScanlines n s).cyclesToNextHBlank = s.cyclesToNextHBlank + k * s.cfg.hCycles ∧
    (State.endScanlines n s).currentScanline.val = (s.currentScanline.val + k) % 228 ∧
    1 ≤ (State.endScanlines n s).cyclesToNextHBlank ∧
    (k = 0 ∨ (State.endScanlines n s).cyclesToNextHBlank ≤ s.cfg.hCycles) := by
  induction n generalizing s with
  | zero =>
    refine ⟨0, by simp [State.endScanlines], ?_, by simp [State.endScanlines]; omega, Or.inl rfl⟩
    have := s.currentScanline.isLt
    simp [State.endScanlines]
    omega
  | succ n ih =>
    unfold State.endScanlines
    split
    · next hle =>
      obtain ⟨k, h1, h2, h3, h4⟩ := ih s.endScanline (by simpa using hH) (by simp; omega)
      simp only [State.endScanline_cyclesToNextHBlank, State.endScanline_currentScanline,
        State.endScanline_cfg] at h1 h2 h4
      refine ⟨k + 1, ?_, ?_, h3, Or.inr ?_⟩
      · rw [h1]; push_cast; ring
      · rw [h2, Fin.val_add]; simp; omega
      · rcases h4 with rfl | h4
        · rw [h1]; simp; omega
        · exact h4
    · next hle =>
      refine ⟨0, by simp, ?_, by omega, Or.inl rfl⟩
      have := s.currentScanline.isLt
      simp
      omega

/-- `advance(c)`: the budget and the scanline after it (R206). -/
theorem advance_time (s : State) (c : Nat) (hH : 1 ≤ s.cfg.hCycles) : ∃ k : Nat,
    (s.advance c).cyclesToNextHBlank = s.cyclesToNextHBlank - c + k * s.cfg.hCycles ∧
    (s.advance c).currentScanline.val = (s.currentScanline.val + k) % 228 ∧
    1 ≤ (s.advance c).cyclesToNextHBlank ∧
    (k = 0 ∨ (s.advance c).cyclesToNextHBlank ≤ s.cfg.hCycles) := by
  rw [State.advance_eq]
  simp only [State.refreshStatus_cyclesToNextHBlank, State.refreshStatus_currentScanline]
  exact endScanlines_time _ (s.spend c) hH (by omega)

/-! ### Memory and the status registers -/

theorem endScanline_mem_wf {s : State} (h : s.mem.wf = true) : s.endScanline.mem.wf = true := by
  have h1 : s.nextLine.refreshStatus.mem.wf = true := refreshStatus_mem_wf (s := s.nextLine) h
  rw [State.endScanline_eq]
  split
  · simpa using h1
  · exact h1

theorem advance_mem_wf {s : State} (c : Nat) (h : s.mem.wf = true) : (s.advance c).mem.wf = true := by
  rw [State.advance_eq]
  exact refreshStatus_mem_wf
    (endScanlines_keeps (P := fun s => s.mem.wf = true) (fun _ => endScanline_mem_wf) _
      (show (s.spend c).mem.wf = true from h))

/-- The halfwords of the IO block outside the status registers survive the clock. -/
theorem advance_io16 (s : State) (c : Nat) {o : Nat} (h : o + 1 < 4 ∨ 8 ≤ o) :
    (s.advance c).io16 o = s.io16 o := by
  have hm := (advance_sameOutsideTime s c).mem
  unfold State.io16
  rw [hm _ (by omega), hm _ (by omega)]

/-! ### What the clock renders -/

theorem vramAddr_toNat {o : Nat} (h : o < 0x1000000) : (vramAddr o).toNat = 0x06000000 + o := by
  rw [vramAddr, BitVec.toNat_ofNat]; omega

/-- The Ppu's byte reads of VRAM do not see the status registers. -/
theorem SameOutsideTime.vram8 {s t : State} (h : SameOutsideTime s t) {o : Nat} (ho : o < 0x1000000) :
    t.read8 (vramAddr o) = s.read8 (vramAddr o) := by
  have hd : decodeAddr (vramAddr o) = some (.vram, (vramAddr o).toNat % 0x1000000 % 0x18000) :=
    (decodeAddr_eq_some _ _ _).2 ⟨by rw [vramAddr_toNat ho]; omega, rfl⟩
  simp only [State.read8, hd, State.regionByte]
  exact h.mem _ (Or.inr (by simp only [Region.base]; omega))

/-- The Ppu's halfword reads of VRAM do not see the status registers. -/
theorem SameOutsideTime.vram16 {s t : State} (h : SameOutsideTime s t) {o : Nat} (ho : o < 0x1000000) :
    t.read16 (vramAddr o) = s.read16 (vramAddr o) := by
  have hd : decodeAddr (align2 (vramAddr o)) =
      some (.vram, (align2 (vramAddr o)).toNat % 0x1000000 % 0x18000) :=
    (decodeAddr_eq_some _ _ _).2 ⟨by rw [align2_toNat, vramAddr_toNat ho]; omega, rfl⟩
  simp only [State.read16, hd, State.regionByte]
  rw [h.mem _ (Or.inr (by simp only [Region.base]; omega)), h.mem _ (Or.inr (by simp only [Region.base]; omega))]

theorem SameOutsideTime.colour {s t : State} (h : SameOutsideTime s t) (i : BitVec 8) : t.colour i = s.colour i := by
  simp [State.colour, h.paletteCache]

theorem SameOutsideTime.layerColour {s t : State} (h : SameOutsideTime s t) (n : Fin 4) {line x : Nat}
    (hl : line < 160) (hx : x < 240) : t.layerColour n line x = s.layerColour n line x := by
  have hc := ((s.mBgcnt[n.val]).extractLsb' 2 2).isLt
  have hs := ((s.mBgcnt[n.val]).extractLsb' 8 5).isLt
  have hb : t.mBgcnt[n.val] = s.mBgcnt[n.val] := by simp [h.mBgcnt]
  have htile : ∀ (tile : BitVec 10) (b8 : Bool) (tx ty : Nat), tx < 8 → ty < 8 →
      t.tilePixel (((s.mBgcnt[n.val]).extractLsb' 2 2).toNat * 0x4000) tile.toNat b8 tx ty =
        s.tilePixel (((s.mBgcnt[n.val]).extractLsb' 2 2).toNat * 0x4000) tile.toNat b8 tx ty := by
    intro tile b8 tx ty h1 h2
    have := tile.isLt
    unfold State.tilePixel
    rw [h.vram8 (by omega), h.vram8 (by omega)]
  simp only [State.layerColour, hb, h.colour]
  rw [h.vram16 (by omega), htile _ _ _ _ (by split <;> omega) (by split <;> omega)]

/-- Rendering does not see the Ppu's time and the status registers. -/
theorem SameOutsideTime.renderedRow {s t : State} (h : SameOutsideTime s t) {line : Nat} (hl : line < 160) :
    t.renderedRow line = s.renderedRow line := by
  have hb : t.backdropRow = s.backdropRow := by simp [State.backdropRow, h.colour]
  have hp : ∀ (n : Fin 4) (row : Row), t.paintLayerIf n line row = s.paintLayerIf n line row := by
    intro n row
    have : t.paintLayer n line row = s.paintLayer n line row := by
      unfold State.paintLayer
      congr 1; funext x
      rw [h.layerColour n hl x.isLt]
    simp [State.paintLayerIf, h.mDispcnt, this]
  have h3 : t.mode3Row line = s.mode3Row line := by
    unfold State.mode3Row
    congr 1; funext x
    have := x.isLt
    rw [h.vram16 (by omega)]
  simp only [State.renderedRow, State.mode0Row, hb, hp, h3, h.mDispcnt]

theorem renderLines_congr (n : Nat) (line : Fin 228) {s t : State} (h : SameOutsideTime s t)
    (hp : t.pixels = s.pixels) : (State.renderLines n line t).pixels = (State.renderLines n line s).pixels := by
  induction n generalizing line s t with
  | zero => exact hp
  | succ n ih =>
    unfold State.renderLines
    split
    · next hl =>
      refine ih _ ?_ ?_
      · constructor
        case mem => exact h.mem
        · exact h.cfg
        · exact h.regs
        · exact h.cpsr
        · exact h.rom
        · exact h.paletteCache
        · exact h.mDispcnt
        · exact h.mBgcnt
      · simp [State.renderScanLine, h.renderedRow hl, hp]
    · exact ih _ h hp

/-- A flush depends on the picture, the two lines it lies between, and what rendering sees. -/
theorem flushRenderQueue_congr (lap : Bool) {s t : State} (h : SameOutsideTime s t) (hp : t.pixels = s.pixels)
    (hl : t.lastRenderedLine = s.lastRenderedLine) (hc : t.currentScanline = s.currentScanline) :
    (t.flushRenderQueue lap).pixels = (s.flushRenderQueue lap).pixels := by
  have e : t.flushCount lap = s.flushCount lap := by simp [State.flushCount, hl, hc]
  simp only [State.flushRenderQueue, e, hl]
  exact renderLines_congr _ _ h hp

/-- The flush of the frame, on entering line 160 (R206, R209). -/
def State.frameFlush (s : State) : State := ({ s with currentScanline := 160 } : State).flushRenderQueue true

/-- The loop ends some number of scanlines, one after the other. -/
theorem endScanlines_iterate (n : Nat) (s : State) :
    ∃ k, State.endScanlines n s = Nat.iterate State.endScanline k s := by
  induction n generalizing s with
  | zero => exact ⟨0, rfl⟩
  | succ n ih =>
    unfold State.endScanlines
    split
    · obtain ⟨k, hk⟩ := ih s.endScanline
      exact ⟨k + 1, hk⟩
    · exact ⟨0, rfl⟩

/-- Whether line 160 is entered among the `k` lines after the current one. -/
def State.Enters160 (s : State) (k : Nat) : Prop := ∃ j, 1 ≤ j ∧ j ≤ k ∧ (s.currentScanline.val + j) % 228 = 160

theorem iterate_sameOutsideTime (k : Nat) (s : State) : SameOutsideTime s (Nat.iterate State.endScanline k s) := by
  induction k with
  | zero => exact SameOutsideTime.refl s
  | succ k ih => rw [Function.iterate_succ_apply']; exact ih.trans (endScanline_sameOutsideTime _)

theorem iterate_scanline (k : Nat) (s : State) :
    (Nat.iterate State.endScanline k s).currentScanline.val = (s.currentScanline.val + k) % 228 := by
  induction k with
  | zero => have := s.currentScanline.isLt; simp; omega
  | succ k ih => rw [Function.iterate_succ_apply', State.endScanline_currentScanline, Fin.val_add, ih]; simp; omega

theorem iterate_renders (k : Nat) (hk : k ≤ 228) (s : State) :
    (s.Enters160 k → (Nat.iterate State.endScanline k s).pixels = s.frameFlush.pixels ∧
      (Nat.iterate State.endScanline k s).lastRenderedLine = 160) ∧
    (¬ s.Enters160 k → (Nat.iterate State.endScanline k s).pixels = s.pixels ∧
      (Nat.iterate State.endScanline k s).lastRenderedLine = s.lastRenderedLine) := by
  induction k with
  | zero => exact ⟨fun ⟨j, h1, h2, _⟩ => by omega, fun _ => ⟨rfl, rfl⟩⟩
  | succ k ih =>
    obtain ⟨ih1, ih2⟩ := ih (by omega)
    rw [Function.iterate_succ_apply']
    have hline := iterate_scanline k s
    have hsame := iterate_sameOutsideTime k s
    generalize Nat.iterate State.endScanline k s = u at *
    have hnl : u.nextLine.refreshStatus.currentScanline = u.currentScanline + 1 := rfl
    have hval : (u.currentScanline + 1).val = (s.currentScanline.val + (k + 1)) % 228 := by
      rw [Fin.val_add, hline]; simp; omega
    rw [State.endScanline_eq, hnl]
    by_cases h160 : u.currentScanline + 1 = 160
    · rw [if_pos h160]
      have hv : (s.currentScanline.val + (k + 1)) % 228 = 160 := by rw [← hval, h160]; rfl
      have hne : ¬ s.Enters160 k := by rintro ⟨j, h1, h2, h3⟩; omega
      obtain ⟨hp, hl⟩ := ih2 hne
      refine ⟨fun _ => ⟨?_, ?_⟩, fun h => absurd ⟨k + 1, by omega, le_refl _, hv⟩ h⟩
      · refine flushRenderQueue_congr true ?_ hp hl h160
        have h1 : SameOutsideTime s u.nextLine.refreshStatus :=
          hsame.trans (SameOutsideTime.trans (by constructor <;> simp [State.nextLine]) (refreshStatus_sameOutsideTime _))
        exact SameOutsideTime.trans (t := s) (by constructor <;> simp) h1
      · rw [State.flushRenderQueue_lastRenderedLine, hnl, h160]
    · rw [if_neg h160]
      have hiff : s.Enters160 (k + 1) ↔ s.Enters160 k := by
        constructor
        · rintro ⟨j, h1, h2, h3⟩
          refine ⟨j, h1, ?_, h3⟩
          by_contra hj
          obtain rfl : j = k + 1 := by omega
          exact h160 (Fin.ext (by rw [hval, h3]; rfl))
        · rintro ⟨j, h1, h2, h3⟩; exact ⟨j, h1, by omega, h3⟩
      have e1 : u.nextLine.refreshStatus.pixels = u.pixels := by simp [State.nextLine]
      have e2 : u.nextLine.refreshStatus.lastRenderedLine = u.lastRenderedLine := by simp [State.nextLine]
      rw [hiff, e1, e2]
      exact ⟨ih1, ih2⟩

theorem iterate_budget (k : Nat) (s : State) : (Nat.iterate State.endScanline k s).cyclesToNextHBlank =
    s.cyclesToNextHBlank + k * s.cfg.hCycles := by
  induction k with
  | zero => simp
  | succ k ih =>
    rw [Function.iterate_succ_apply', State.endScanline_cyclesToNextHBlank, ih, (iterate_sameOutsideTime k s).cfg]
    push_cast
    ring

/-- What a call of `advance` renders: where line 160 is among the lines it enters, the frame as it stood at the
call; nothing else (R206, R209, R210). The `k` lines are those the budget counts. -/
theorem advance_renders (s : State) (c k : Nat) (hH : 1 ≤ s.cfg.hCycles)
    (hk : (s.advance c).cyclesToNextHBlank = s.cyclesToNextHBlank - c + k * s.cfg.hCycles) (hk228 : k ≤ 228) :
    (s.Enters160 k → (s.advance c).pixels = s.frameFlush.pixels ∧ (s.advance c).lastRenderedLine = 160) ∧
    (¬ s.Enters160 k → (s.advance c).pixels = s.pixels ∧ (s.advance c).lastRenderedLine = s.lastRenderedLine) := by
  obtain ⟨m, hm⟩ := endScanlines_iterate (1 - (s.spend c).cyclesToNextHBlank).toNat (s.spend c)
  have e : s.advance c = (Nat.iterate State.endScanline m (s.spend c)).refreshStatus := by
    rw [State.advance_eq, hm]
  have hb := iterate_budget m (s.spend c)
  have hmk : m = k := by
    rw [e, State.refreshStatus_cyclesToNextHBlank, hb] at hk
    have h : ((m : Int) - k) * s.cfg.hCycles = 0 := by
      have h2 : s.cyclesToNextHBlank - c + m * s.cfg.hCycles = s.cyclesToNextHBlank - c + k * s.cfg.hCycles := hk
      linarith
    rcases mul_eq_zero.1 h with h | h <;> omega
  subst hmk
  have hr := iterate_renders m hk228 (s.spend c)
  have hf : (s.spend c).frameFlush.pixels = s.frameFlush.pixels :=
    flushRenderQueue_congr true (by constructor <;> simp [State.spend]) rfl rfl rfl
  rw [e, State.refreshStatus_pixels, State.refreshStatus_lastRenderedLine]
  rw [hf] at hr
  exact hr

end Sys2Proof.Machine
end

