-- ==== Sys2Proof/Laws/Step.lean ====
section
/-! SUPPORT. The laws of whole instructions and steps: what a property must bear for every instruction, and
then every step, to keep it. -/

namespace Sys2Proof.Machine

/-! ### Instructions -/

/-- A property that does not look at the registers and the flags. -/
def BlindToCpu (P : State → Prop) : Prop := ∀ s t : State, SameOutsideCpu s t → P s → P t

theorem SameOutsideCpu.refl (s : State) : SameOutsideCpu s s := by constructor <;> rfl

theorem advancePc_sameOutsideCpu (s : State) : SameOutsideCpu s s.advancePc := by constructor <;> rfl

theorem nextInstr_sameOutsideCpu (s : State) (a : Word) : SameOutsideCpu s (s.nextInstr a) := by
  constructor <;> rfl

theorem writeRd_sameOutsideCpu (s : State) (rd : Reg) (v : Word) : SameOutsideCpu s (s.writeRd rd v) := by
  constructor <;> simp

theorem dpWrite_sameOutsideCpu (s : State) (b : Bool) (rd : Reg) (v : Word) :
    SameOutsideCpu s (s.dpWrite b rd v) := by
  constructor <;> simp

theorem setNZIf_advancePc_sameOutsideCpu (s : State) (b : Bool) (v : Word) :
    SameOutsideCpu s (s.setNZIf b v).advancePc := by
  constructor <;> simp

theorem setNZ_advancePc_sameOutsideCpu (s : State) (v : Word) : SameOutsideCpu s (s.setNZ v).advancePc := by
  constructor <;> rfl

theorem writeBackIf_advancePc_sameOutsideCpu (s : State) (b : Bool) (rn : Reg) (v : Word) :
    SameOutsideCpu s (s.writeBackIf b rn v).advancePc := by
  constructor <;> simp

section Exec

variable {P : State → Prop}

/-- An instruction under its condition keeps what its body keeps. -/
theorem whenPassed_keeps (hb : BlindToCpu P) {c : Cond} {s t : State} {body : Result} (hs : P s)
    (hbody : body = .next t → P t) (h : whenPassed c s body = .next t) : P t := by
  rcases whenPassed_next h with ⟨_, rfl⟩ | ⟨_, h⟩
  · exact hb _ _ (advancePc_sameOutsideCpu s) hs
  · exact hbody h

/-- An instruction that touches the CPU alone keeps every such property. -/
theorem whenPassed_cpu_keeps (hb : BlindToCpu P) {c : Cond} {s t u : State} (hs : P s)
    (hu : SameOutsideCpu s u) (h : whenPassed c s (.next u) = .next t) : P t :=
  whenPassed_keeps hb hs (fun e => by cases e; exact hb _ _ hu hs) h

/-- The end of a store keeps what the store keeps. -/
theorem thenAdvance_keeps (hb : BlindToCpu P) {r : Result} {t : State} (hr : ∀ u, r = .next u → P u)
    (h : thenAdvance r = .next t) : P t := by
  obtain ⟨u, hu, ht⟩ := andThen_eq_next.1 h
  cases ht
  exact hb _ _ (advancePc_sameOutsideCpu u) (hr u hu)

/-- Every instruction keeps a property of what lies outside the CPU that every Bus write keeps. -/
theorem exec_keeps {Q : Fin 4 → State → Prop} (hb : BlindToCpu P) (hk : KeptByTransfers P Q) {i : Instr}
    {s t : State} (hs : P s) (h : exec i s = .next t) : P t := by
  cases i
  case b => exact whenPassed_cpu_keeps hb hs (nextInstr_sameOutsideCpu s _) h
  case bl => exact whenPassed_cpu_keeps hb hs (by constructor <;> rfl) h
  case cmpImm => exact whenPassed_cpu_keeps hb hs (setNZ_advancePc_sameOutsideCpu s _) h
  case cmpReg => exact whenPassed_cpu_keeps hb hs (setNZ_advancePc_sameOutsideCpu s _) h
  case tstImm => exact whenPassed_cpu_keeps hb hs (setNZIf_advancePc_sameOutsideCpu s _ _) h
  case tstReg => exact whenPassed_cpu_keeps hb hs (setNZIf_advancePc_sameOutsideCpu s _ _) h
  case ldr => exact whenPassed_cpu_keeps hb hs (writeRd_sameOutsideCpu s _ _) h
  case ldrb => exact whenPassed_cpu_keeps hb hs (writeRd_sameOutsideCpu s _ _) h
  case ldrh => exact whenPassed_cpu_keeps hb hs (writeRd_sameOutsideCpu s _ _) h
  case str =>
    exact whenPassed_keeps hb hs (fun e => thenAdvance_keeps hb (fun u hu => write32_keeps hk hs hu) e) h
  case strb =>
    exact whenPassed_keeps hb hs (fun e => thenAdvance_keeps hb (fun u hu => write8_keeps hk hs hu) e) h
  case strh =>
    exact whenPassed_keeps hb hs (fun e => thenAdvance_keeps hb (fun u hu => write16_keeps hk hs hu) e) h
  case stm =>
    refine whenPassed_keeps hb hs (fun e => ?_) h
    split at e
    · cases e
    · obtain ⟨u, hu, ht⟩ := andThen_eq_next.1 e
      cases ht
      exact hb _ _ (writeBackIf_advancePc_sameOutsideCpu u _ _ _) (storeRegs_keeps hk hs hu)
  case swi =>
    refine whenPassed_keeps hb hs (fun e => thenAdvance_keeps hb (fun u hu => ?_) e) h
    split at hu
    · exact blockCopyFill_keeps hk hs hu
    · cases hu; exact hs
  case nopUnimplemented => exact whenPassed_cpu_keeps hb hs (advancePc_sameOutsideCpu s) h
  all_goals exact whenPassed_cpu_keeps hb hs (dpWrite_sameOutsideCpu s _ _ _) h

/-- A step is an instruction and then the clock. -/
theorem step_eq_next {s t : State} : step s = .next t ↔
    ∃ u, exec (decodeWord s.fetch) s = .next u ∧ t = u.advance (cyclesOf s.cfg s.fetch) := by
  unfold step
  rw [andThen_eq_next]
  simp only [Host.Outcome.next.injEq, eq_comm]

/-- Every step keeps a property of what lies outside the CPU that Bus writes and the clock keep. -/
theorem step_keeps {Q : Fin 4 → State → Prop} (hb : BlindToCpu P) (hk : KeptByTransfers P Q)
    (ht : ∀ (s : State) (c : Nat), P s → P (s.advance c)) {s t : State} (hs : P s)
    (h : step s = .next t) : P t := by
  obtain ⟨u, hu, rfl⟩ := step_eq_next.1 h
  exact ht u _ (exec_keeps hb hk hs hu)

end Exec

/-! ### Runs -/

theorem run_cons (M : Host.Core) (n : Nat) (s : M.State) : Host.Core.run M (n + 1) s =
    match M.step s with
    | .next t => Host.Core.run M n t
    | .fault r => .fault r
    | .refused r => .refused r := rfl

/-- A run is a step and then the rest of the run. -/
theorem run_succ (n : Nat) (s : State) :
    Host.Core.run core (n + 1) s = andThen (step s) fun t => Host.Core.run core n t := by
  refine (run_cons core n s).trans ?_
  have h : core.step s = step s := rfl
  rw [h]
  cases step s <;> rfl

end Sys2Proof.Machine
end

