-- ==== Sys2Proof/Laws/Invariant.lean ====
section
/-! SUPPORT. The part of the invariant that lies outside the CPU, and that every Bus write, every transfer and
the clock keep it. -/

namespace Sys2Proof.Machine

/-- What `State.Inv` says of the palette cache, the status registers, the mirrors, the DMA channels and the
frame buffer, where the channels in `ex` may be enabled: inside a transfer one is. -/
structure OutsideInv (ex : Fin 4 → Prop) (s : State) : Prop where
  palette : ∀ i : Fin 512, s.paletteCache[i.val] = expand (s.pal16 i.val)
  vcount : s.io16 0x006 = s.vcount ∧ s.mVcount = s.vcount
  status : (s.io16 0x004).extractLsb' 0 3 = s.statusBits ∧ s.mDispstat = s.io16 0x004
  mirrors : s.mDispcnt = s.io16 0x000 ∧ ∀ n : Fin 4, s.mBgcnt[n.val] = s.io16 (0x008 + 2 * n.val)
  dma : ∀ n : Fin 4, ¬ ex n → (s.io16 (dmaControl n)).getLsbD 15 = false
  pixels : s.Opaque

theorem State.pal16_congr {s t : State} (h : ∀ a, 0x05000000 ≤ a → a < 0x05000400 → t.mem.read a = s.mem.read a) (i : Fin 512) :
    t.pal16 i.val = s.pal16 i.val := by
  have := i.isLt
  unfold State.pal16
  rw [h _ (by omega) (by omega), h _ (by omega) (by omega)]

theorem State.io16_of_mem {s t : State} (h : ∀ a, 0x04000000 ≤ a → a < 0x04000400 → t.mem.read a = s.mem.read a) {o : Nat} (ho : o + 1 < 0x400) :
    t.io16 o = s.io16 o := by
  unfold State.io16
  rw [h _ (by omega) (by omega), h _ (by omega) (by omega)]

theorem dmaControl_eq (n : Fin 4) : dmaControl n = 0x0BA + 12 * n.val := by unfold dmaControl dmaWindow; omega

theorem OutsideInv.of_same_io {ex} {s t : State} (h : OutsideInv ex s)
    (hio : ∀ o, o + 1 < 0x400 → t.io16 o = s.io16 o)
    (hp : ∀ i : Fin 512, t.paletteCache[i.val] = expand (t.pal16 i.val))
    (h1 : t.currentScanline = s.currentScanline) (h2 : t.cyclesToNextHBlank = s.cyclesToNextHBlank) (h3 : t.cfg = s.cfg)
    (h4 : t.mVcount = s.mVcount) (h5 : t.mDispstat = s.mDispstat) (h6 : t.mDispcnt = s.mDispcnt) (h7 : t.mBgcnt = s.mBgcnt)
    (h8 : t.pixels = s.pixels) : OutsideInv ex t := by
  have hv : t.vcount = s.vcount := by simp [State.vcount, h1]
  have hs : t.statusBits = s.statusBits := State.statusBits_congr (by rw [hio 4 (by decide)]) h1 h2 h3
  constructor
  · exact hp
  · rw [hio 6 (by decide), hv, h4]; exact h.vcount
  · rw [hio 4 (by decide), hs, h5]; exact h.status
  · rw [hio 0 (by decide), h6, h7]
    exact ⟨h.mirrors.1, fun n => by rw [h.mirrors.2 n, hio _ (by omega)]⟩
  · intro n hn; rw [hio _ (dmaControl_lt n)]; exact h.dma n hn
  · intro l x; have := h.pixels l x; simpa [State.pixel, h8] using this

theorem OutsideInv.plain {ex} {s : State} {r : Region} {o : Nat} {v : Byte} (hr : r.plain = true) (ho : o < r.capacity) (h : OutsideInv ex s) :
    OutsideInv ex (s.setByte (r.base + o) v) := by
  have hne : ∀ a, 0x04000000 ≤ a → a < 0x04000400 ∨ (0x05000000 ≤ a ∧ a < 0x05000400) → a ≠ r.base + o := by
    intro a h1 h2
    cases r
    case ewram => change o < 0x40000 at ho; change a ≠ 0x02000000 + o; omega
    case iwram => change o < 0x8000 at ho; change a ≠ 0x03000000 + o; omega
    case vram => change o < 0x18000 at ho; change a ≠ 0x06000000 + o; omega
    case oam => change o < 0x400 at ho; change a ≠ 0x07000000 + o; omega
    all_goals cases hr
  refine h.of_same_io ?_ ?_ rfl rfl rfl rfl rfl rfl rfl rfl
  · intro p hp
    exact State.io16_of_mem (fun a h1 h2 => Memory.read_write_other _ _ (hne a h1 (Or.inl h2))) hp
  · intro i
    rw [State.pal16_congr (s := s) (fun a h1 h2 => Memory.read_write_other _ _ (hne a (by omega) (Or.inr ⟨h1, h2⟩)))]
    exact h.palette i

theorem OutsideInv.palStore {ex} {s : State} {m : Memory} {i : Nat} (h : OutsideInv ex s)
   (hm : ∀ a, (a < 0x05000000 + 2*i ∨ 0x05000000 + 2*i + 2 ≤ a) → m.read a = s.mem.read a) (hi : i < 512) :
    OutsideInv ex (({s with mem := m} : State).refreshPalette i) := by
  refine h.of_same_io ?_ ?_ rfl rfl rfl rfl rfl rfl rfl rfl
  · intro p hp
    refine State.io16_of_mem (fun a h1 h2 => hm a (by omega)) hp
  · intro j
    have e : (({s with mem := m} : State).refreshPalette i).pal16 j.val = ({s with mem := m} : State).pal16 j.val := rfl
    rw [e]
    have := j.isLt
    by_cases hj : i = j.val
    · subst hj; simp [State.refreshPalette]
    · have e2 : ({s with mem := m} : State).pal16 j.val = s.pal16 j.val := by
        unfold State.pal16; dsimp only; rw [hm _ (by omega), hm _ (by omega)]
      rw [e2, ← h.palette j]
      simp [State.refreshPalette, hi, hj, Vector.setIfInBounds]

theorem flushRenderQueue_outsideInv {ex} {s : State} (lap) (h : OutsideInv ex s) : OutsideInv ex (s.flushRenderQueue lap) := by
  have := flushRenderQueue_sameOutsideTime s lap
  constructor
  · intro i; simp only [State.flushRenderQueue_paletteCache]; rw [h.palette i]; simp [State.pal16]
  · simpa [State.io16, State.vcount] using h.vcount
  · have := h.status
    rw [State.statusBits_congr (s := s) (by simp [State.io16]) (by simp) (by simp) (by simp)]
    simpa [State.io16] using this
  · simpa [State.io16] using h.mirrors
  · simpa [State.io16] using h.dma
  · exact flushRenderQueue_opaque _ h.pixels

theorem refreshStatus_outsideInv {ex} {s : State} (hpal : ∀ i : Fin 512, s.paletteCache[i.val] = expand (s.pal16 i.val))
   (hmi : s.mDispcnt = s.io16 0x000 ∧ ∀ n : Fin 4, s.mBgcnt[n.val] = s.io16 (0x008 + 2 * n.val))
   (hdma : ∀ n : Fin 4, ¬ ex n → (s.io16 (dmaControl n)).getLsbD 15 = false) (hpx : s.Opaque) : OutsideInv ex s.refreshStatus := by
  have hsy := s.refreshStatus_synced
  constructor
  · intro i
    rw [State.pal16_congr (s := s) (fun a h1 h2 => s.refreshStatus_read_other (by omega))]
    simpa using hpal i
  · exact ⟨hsy.2.2.1, hsy.2.2.2⟩
  · exact ⟨hsy.1, hsy.2.1⟩
  · refine ⟨?_, fun n => ?_⟩
    · rw [State.refreshStatus_io_other _ (by decide) (by decide) (by decide)]; simpa using hmi.1
    · rw [State.refreshStatus_io_other _ (by omega) (by omega) (by omega)]; simpa using hmi.2 n
  · intro n hn
    rw [State.refreshStatus_io_other _ (by rw [dmaControl_eq]; omega) (by rw [dmaControl_eq]; omega) (by rw [dmaControl_eq]; omega)]
    exact hdma n hn
  · exact hpx

theorem ioStore_outsideInv {ex ex' : Fin 4 → Prop} {s : State} {o : Nat} {v : Half} (he : o % 2 = 0) (ho : o < 0x400) (h : OutsideInv ex s)
   (hex : ∀ n, ¬ ex' n → ¬ ex n ∧ (o = dmaControl n → v.getLsbD 15 = false)) : OutsideInv ex' (s.ioStore o v) := by
  have hdma : ∀ n : Fin 4, ¬ ex' n → ((s.setIo16 o v).io16 (dmaControl n)).getLsbD 15 = false := by
    intro n hn
    by_cases hon : o = dmaControl n
    · rw [← hon, State.io16_setIo16_same]; exact (hex n hn).2 hon
    · rw [State.io16_setIo16_other _ _ he (by rw [dmaControl_eq]; omega) (Ne.symm hon)]; exact h.dma n (hex n hn).1
  have hpal : ∀ i : Fin 512, (s.setIo16 o v).paletteCache[i.val] = expand ((s.setIo16 o v).pal16 i.val) := by
    intro i
    rw [State.pal16_congr (s := s) (fun a h1 h2 => State.read_setIo16_other _ _ (by omega) (by omega))]
    exact h.palette i
  have key : ∀ (t : State), t.mem = (s.setIo16 o v).mem → t.cfg = s.cfg → t.currentScanline = s.currentScanline → t.cyclesToNextHBlank = s.cyclesToNextHBlank →
      t.paletteCache = s.paletteCache → t.mVcount = s.mVcount → t.mDispstat = s.mDispstat → t.Opaque → o ≠ 4 → o ≠ 6 →
      (t.mDispcnt = (s.setIo16 o v).io16 0x000 ∧ ∀ n : Fin 4, t.mBgcnt[n.val] = (s.setIo16 o v).io16 (0x008 + 2 * n.val)) → OutsideInv ex' t := by
    intro t e1 e2 e3 e4 e5 e6 e7 e8 h4 h6 e9
    constructor
    · intro i; have := hpal i; simp only [State.pal16, e1, e5] at this ⊢; exact this
    · have := h.vcount
      have hv : t.vcount = s.vcount := by simp [State.vcount, e3]
      rw [State.io16_congr e1, State.io16_setIo16_other _ _ he (by decide) (Ne.symm h6), hv, e6]; exact this
    · have h4' : t.io16 4 = s.io16 4 := by rw [State.io16_congr e1, State.io16_setIo16_other _ _ he (by decide) (Ne.symm h4)]
      rw [State.statusBits_congr (s := s) (by rw [h4']) e3 e4 e2, h4', e7]; exact h.status
    · rw [State.io16_congr e1]; refine ⟨e9.1, fun n => ?_⟩; rw [State.io16_congr e1]; exact e9.2 n
    · intro n hn; rw [State.io16_congr e1]; exact hdma n hn
    · exact e8
  have fl : (({s.setIo16 o v with pixels := ((s.setIo16 o v).flushRenderQueue false).pixels}) : State).Opaque := flushRenderQueue_opaque (s := s.setIo16 o v) false h.pixels
  have bg : ∀ k : Fin 4, o = 8 + 2 * k.val → ∀ n : Fin 4, (s.mBgcnt.set k.val v)[n.val] = (s.setIo16 o v).io16 (0x008 + 2 * n.val) := by
    intro k hk n
    rw [Vector.getElem_set]
    split
    · next hkn => rw [← hkn, ← hk, State.io16_setIo16_same]
    · next hkn => rw [State.io16_setIo16_other _ _ he (by omega) (by omega)]; exact h.mirrors.2 n
  have bg' : (∀ k : Fin 4, o ≠ 8 + 2 * k.val) → ∀ n : Fin 4, s.mBgcnt[n.val] = (s.setIo16 o v).io16 (0x008 + 2 * n.val) := by
    intro hk n
    rw [State.io16_setIo16_other _ _ he (by omega) (Ne.symm (hk n))]; exact h.mirrors.2 n
  have d0 : o ≠ 0 → s.mDispcnt = (s.setIo16 o v).io16 0 := by
    intro h0; rw [State.io16_setIo16_other _ _ he (by decide) (Ne.symm h0)]; exact h.mirrors.1
  unfold State.ioStore State.ppuOnIoWrite
  split_ifs with c0 c8 cA cC cE c4 c6
  · refine key _ (by simp) (by simp) (by simp) (by simp) (by simp) (by simp) (by simp) fl (by omega) (by omega) ⟨?_, ?_⟩
    · subst c0; simp
    · simpa using bg' (fun k => by omega)
  · refine key _ (by simp) (by simp) (by simp) (by simp) (by simp) (by simp) (by simp) fl (by omega) (by omega) ⟨?_, ?_⟩
    · simpa using d0 c0
    · exact bg 0 (by simpa using c8)
  · refine key _ (by simp) (by simp) (by simp) (by simp) (by simp) (by simp) (by simp) fl (by omega) (by omega) ⟨?_, ?_⟩
    · simpa using d0 c0
    · exact bg 1 (by simpa using cA)
  · refine key _ (by simp) (by simp) (by simp) (by simp) (by simp) (by simp) (by simp) fl (by omega) (by omega) ⟨?_, ?_⟩
    · simpa using d0 c0
    · exact bg 2 (by simpa using cC)
  · refine key _ (by simp) (by simp) (by simp) (by simp) (by simp) (by simp) (by simp) fl (by omega) (by omega) ⟨?_, ?_⟩
    · simpa using d0 c0
    · exact bg 3 (by simpa using cE)
  · exact refreshStatus_outsideInv hpal ⟨d0 c0, bg' (fun k => by omega)⟩ hdma h.pixels
  · exact refreshStatus_outsideInv hpal ⟨d0 c0, bg' (fun k => by omega)⟩ hdma h.pixels
  · refine key _ rfl rfl rfl rfl rfl rfl rfl h.pixels c4 c6 ⟨d0 c0, bg' (fun k hk => ?_)⟩
    match k with
    | 0 => exact c8 hk
    | 1 => exact cA hk
    | 2 => exact cC hk
    | 3 => exact cE hk

/-- Every store short of a trigger keeps it. -/
theorem keptByStores_outsideInv (ex : Fin 4 → Prop) : KeptByStores (OutsideInv ex) where
  plain s r o v hr ho h := h.plain hr ho
  pal8 s o v ho h := by
    refine OutsideInv.palStore h (m := s.mem.write (0x05000000 + o) v) (fun a ha => Memory.read_write_other _ _ (by omega)) (by omega)
  pal16 s o v he ho h := by
    refine OutsideInv.palStore (s := s) (i := o / 2) h
      (m := (s.mem.write (0x05000000 + o) (byteOf v 0)).write (0x05000000 + o + 1) (byteOf v 1)) (fun a ha => ?_) (by omega)
    rw [Memory.read_write_other _ _ (by omega), Memory.read_write_other _ _ (by omega)]
  io s o v he ho hd h := by
    refine ioStore_outsideInv he ho h (fun n hn => ⟨hn, fun e => ?_⟩)
    unfold dmaTrigger at hd
    split at hd
    · have : ∀ m : Fin 4, dmaChannelAt (dmaControl m) ≠ none := by decide
      exact absurd (e ▸ hd) (this n)
    · next hv => exact Bool.eq_false_iff.2 hv

theorem dmaChannelAt_control (o : Nat) (n m : Fin 4) (h : dmaChannelAt o = some n) (hm : o = dmaControl m) : m = n := by
  subst hm; revert n m; decide

/-- Every Bus write of an instruction keeps it: a transfer clears the enable bit that started it. -/
theorem keptByTransfers_outsideInv : KeptByTransfers (OutsideInv fun _ => False) (fun n => OutsideInv (fun m => m = n)) where
  stores := keptByStores_outsideInv _
  inside n := keptByStores_outsideInv _
  enter s n o v he ho hd h := by
    refine ioStore_outsideInv he ho h (fun m hm => ⟨id, fun e => ?_⟩)
    unfold dmaTrigger at hd
    split at hd
    · exact absurd (dmaChannelAt_control o n m hd e) hm
    · cases hd
  leave n s h := by
    have hio : ∀ p, p % 2 = 0 → p ≠ dmaControl n → (s.dmaClearEnable n).io16 p = s.io16 p := by
      intro p hp hne
      exact State.io16_setIo16_other _ _ (by rw [dmaControl_eq]; omega) hp hne
    constructor
    · intro i
      have := dmaControl_eq n
      have e : (s.dmaClearEnable n).pal16 i.val = s.pal16 i.val :=
        State.pal16_congr (fun a h1 h2 => State.read_setIo16_other _ _ (by omega) (by omega)) i
      rw [e]; exact h.palette i
    · rw [hio 6 (by decide) (by rw [dmaControl_eq]; omega)]; exact h.vcount
    · have e4 := hio 4 (by decide) (by rw [dmaControl_eq]; omega)
      have es : (s.dmaClearEnable n).statusBits = s.statusBits := State.statusBits_congr (by rw [e4]) rfl rfl rfl
      rw [e4, es]; exact h.status
    · rw [hio 0 (by decide) (by rw [dmaControl_eq]; omega)]; refine ⟨h.mirrors.1, fun m => ?_⟩
      rw [hio _ (by omega) (by rw [dmaControl_eq]; omega)]; exact h.mirrors.2 m
    · intro m _
      by_cases hm : m = n
      · subst hm
        unfold State.dmaClearEnable
        rw [State.io16_setIo16_same]; simp
      · rw [hio _ (by rw [dmaControl_eq]; omega) (by rw [dmaControl_eq, dmaControl_eq]; omega)]
        exact h.dma m hm
    · exact h.pixels

/-- The clock keeps it. -/
theorem advance_outsideInv {s : State} (c : Nat) (h : OutsideInv (fun _ => False) s) :
    OutsideInv (fun _ => False) (s.advance c) := by
  have hf := advance_sameOutsideTime s c
  have := (State.refreshStatus_synced (State.endScanlines (1 - (s.spend c).cyclesToNextHBlank).toNat (s.spend c)))
  rw [← State.advance_eq] at this
  constructor
  · intro i
    rw [State.pal16_congr (s := s) (fun a h1 h2 => hf.mem a (by omega))]
    simpa [hf.paletteCache] using h.palette i
  · exact ⟨this.2.2.1, this.2.2.2⟩
  · exact ⟨this.1, this.2.1⟩
  · rw [advance_io16 _ _ (by omega)]; refine ⟨by rw [hf.mDispcnt]; exact h.mirrors.1, fun m => ?_⟩
    rw [advance_io16 _ _ (by omega)]; simpa [hf.mBgcnt] using h.mirrors.2 m
  · intro m hm; rw [advance_io16 _ _ (by rw [dmaControl_eq]; omega)]; exact h.dma m hm
  · exact advance_opaque c h.pixels
end Sys2Proof.Machine
end

