-- ==== Sys2Proof/Laws/Rows.lean ====
section
/-! SUPPORT. The mask and match of each row of 30_encoding.md R101, as the fields they test, and what follows
for the words of the catch-all row. -/

namespace Sys2Proof

theorem row_b (w : Word) : field w 0 28 &&& 0xf000000#28 = 0xa000000#28 ↔
    field w 25 3 = 5#3 ∧ field w 24 1 = 0#1 := by
  rw [rest_and_iff,
    show (0xf000000#28).setWidth 32 = place (BitVec.allOnes 3) 25 ||| place (BitVec.allOnes 1) 24 from by decide,
    show (0xa000000#28).setWidth 32 = place 5#3 25 ||| place 0#1 24 from by decide,
    and_or_iff _ _ _ _ _ (by decide) (by decide) (by decide),
    and_place_iff w 25 3 _ (by decide),
    and_place_iff w 24 1 _ (by decide)]

theorem row_bl (w : Word) : field w 0 28 &&& 0xf000000#28 = 0xb000000#28 ↔
    field w 25 3 = 5#3 ∧ field w 24 1 = 1#1 := by
  rw [rest_and_iff,
    show (0xf000000#28).setWidth 32 = place (BitVec.allOnes 3) 25 ||| place (BitVec.allOnes 1) 24 from by decide,
    show (0xb000000#28).setWidth 32 = place 5#3 25 ||| place 1#1 24 from by decide,
    and_or_iff _ _ _ _ _ (by decide) (by decide) (by decide),
    and_place_iff w 25 3 _ (by decide),
    and_place_iff w 24 1 _ (by decide)]

theorem row_andImm (w : Word) : field w 0 28 &&& 0xfe00000#28 = 0x2000000#28 ↔
    field w 25 3 = 1#3 ∧ field w 21 4 = 0#4 := by
  rw [rest_and_iff,
    show (0xfe00000#28).setWidth 32 = place (BitVec.allOnes 3) 25 ||| place (BitVec.allOnes 4) 21 from by decide,
    show (0x2000000#28).setWidth 32 = place 1#3 25 ||| place 0#4 21 from by decide,
    and_or_iff _ _ _ _ _ (by decide) (by decide) (by decide),
    and_place_iff w 25 3 _ (by decide),
    and_place_iff w 21 4 _ (by decide)]

theorem row_andReg (w : Word) : field w 0 28 &&& 0xfe00ff0#28 = 0x0#28 ↔
    field w 25 3 = 0#3 ∧ field w 21 4 = 0#4 ∧ field w 4 8 = 0#8 := by
  rw [rest_and_iff,
    show (0xfe00ff0#28).setWidth 32 = place (BitVec.allOnes 3) 25 ||| (place (BitVec.allOnes 4) 21 ||| place (BitVec.allOnes 8) 4) from by decide,
    show (0x0#28).setWidth 32 = place 0#3 25 ||| (place 0#4 21 ||| place 0#8 4) from by decide,
    and_or_iff _ _ _ _ _ (by decide) (by decide) (by decide),
    and_or_iff _ _ _ _ _ (by decide) (by decide) (by decide),
    and_place_iff w 25 3 _ (by decide),
    and_place_iff w 21 4 _ (by decide),
    and_place_iff w 4 8 _ (by decide)]

theorem row_subImm (w : Word) : field w 0 28 &&& 0xfe00000#28 = 0x2400000#28 ↔
    field w 25 3 = 1#3 ∧ field w 21 4 = 2#4 := by
  rw [rest_and_iff,
    show (0xfe00000#28).setWidth 32 = place (BitVec.allOnes 3) 25 ||| place (BitVec.allOnes 4) 21 from by decide,
    show (0x2400000#28).setWidth 32 = place 1#3 25 ||| place 2#4 21 from by decide,
    and_or_iff _ _ _ _ _ (by decide) (by decide) (by decide),
    and_place_iff w 25 3 _ (by decide),
    and_place_iff w 21 4 _ (by decide)]

theorem row_subReg (w : Word) : field w 0 28 &&& 0xfe00ff0#28 = 0x400000#28 ↔
    field w 25 3 = 0#3 ∧ field w 21 4 = 2#4 ∧ field w 4 8 = 0#8 := by
  rw [rest_and_iff,
    show (0xfe00ff0#28).setWidth 32 = place (BitVec.allOnes 3) 25 ||| (place (BitVec.allOnes 4) 21 ||| place (BitVec.allOnes 8) 4) from by decide,
    show (0x400000#28).setWidth 32 = place 0#3 25 ||| (place 2#4 21 ||| place 0#8 4) from by decide,
    and_or_iff _ _ _ _ _ (by decide) (by decide) (by decide),
    and_or_iff _ _ _ _ _ (by decide) (by decide) (by decide),
    and_place_iff w 25 3 _ (by decide),
    and_place_iff w 21 4 _ (by decide),
    and_place_iff w 4 8 _ (by decide)]

theorem row_addImm (w : Word) : field w 0 28 &&& 0xfe00000#28 = 0x2800000#28 ↔
    field w 25 3 = 1#3 ∧ field w 21 4 = 4#4 := by
  rw [rest_and_iff,
    show (0xfe00000#28).setWidth 32 = place (BitVec.allOnes 3) 25 ||| place (BitVec.allOnes 4) 21 from by decide,
    show (0x2800000#28).setWidth 32 = place 1#3 25 ||| place 4#4 21 from by decide,
    and_or_iff _ _ _ _ _ (by decide) (by decide) (by decide),
    and_place_iff w 25 3 _ (by decide),
    and_place_iff w 21 4 _ (by decide)]

theorem row_addReg (w : Word) : field w 0 28 &&& 0xfe00ff0#28 = 0x800000#28 ↔
    field w 25 3 = 0#3 ∧ field w 21 4 = 4#4 ∧ field w 4 8 = 0#8 := by
  rw [rest_and_iff,
    show (0xfe00ff0#28).setWidth 32 = place (BitVec.allOnes 3) 25 ||| (place (BitVec.allOnes 4) 21 ||| place (BitVec.allOnes 8) 4) from by decide,
    show (0x800000#28).setWidth 32 = place 0#3 25 ||| (place 4#4 21 ||| place 0#8 4) from by decide,
    and_or_iff _ _ _ _ _ (by decide) (by decide) (by decide),
    and_or_iff _ _ _ _ _ (by decide) (by decide) (by decide),
    and_place_iff w 25 3 _ (by decide),
    and_place_iff w 21 4 _ (by decide),
    and_place_iff w 4 8 _ (by decide)]

theorem row_orrImm (w : Word) : field w 0 28 &&& 0xfe00000#28 = 0x3800000#28 ↔
    field w 25 3 = 1#3 ∧ field w 21 4 = 12#4 := by
  rw [rest_and_iff,
    show (0xfe00000#28).setWidth 32 = place (BitVec.allOnes 3) 25 ||| place (BitVec.allOnes 4) 21 from by decide,
    show (0x3800000#28).setWidth 32 = place 1#3 25 ||| place 12#4 21 from by decide,
    and_or_iff _ _ _ _ _ (by decide) (by decide) (by decide),
    and_place_iff w 25 3 _ (by decide),
    and_place_iff w 21 4 _ (by decide)]

theorem row_orrReg (w : Word) : field w 0 28 &&& 0xfe00ff0#28 = 0x1800000#28 ↔
    field w 25 3 = 0#3 ∧ field w 21 4 = 12#4 ∧ field w 4 8 = 0#8 := by
  rw [rest_and_iff,
    show (0xfe00ff0#28).setWidth 32 = place (BitVec.allOnes 3) 25 ||| (place (BitVec.allOnes 4) 21 ||| place (BitVec.allOnes 8) 4) from by decide,
    show (0x1800000#28).setWidth 32 = place 0#3 25 ||| (place 12#4 21 ||| place 0#8 4) from by decide,
    and_or_iff _ _ _ _ _ (by decide) (by decide) (by decide),
    and_or_iff _ _ _ _ _ (by decide) (by decide) (by decide),
    and_place_iff w 25 3 _ (by decide),
    and_place_iff w 21 4 _ (by decide),
    and_place_iff w 4 8 _ (by decide)]

theorem row_movImm (w : Word) : field w 0 28 &&& 0xfe00000#28 = 0x3a00000#28 ↔
    field w 25 3 = 1#3 ∧ field w 21 4 = 13#4 := by
  rw [rest_and_iff,
    show (0xfe00000#28).setWidth 32 = place (BitVec.allOnes 3) 25 ||| place (BitVec.allOnes 4) 21 from by decide,
    show (0x3a00000#28).setWidth 32 = place 1#3 25 ||| place 13#4 21 from by decide,
    and_or_iff _ _ _ _ _ (by decide) (by decide) (by decide),
    and_place_iff w 25 3 _ (by decide),
    and_place_iff w 21 4 _ (by decide)]

theorem row_movReg (w : Word) : field w 0 28 &&& 0xfe00ff0#28 = 0x1a00000#28 ↔
    field w 25 3 = 0#3 ∧ field w 21 4 = 13#4 ∧ field w 4 8 = 0#8 := by
  rw [rest_and_iff,
    show (0xfe00ff0#28).setWidth 32 = place (BitVec.allOnes 3) 25 ||| (place (BitVec.allOnes 4) 21 ||| place (BitVec.allOnes 8) 4) from by decide,
    show (0x1a00000#28).setWidth 32 = place 0#3 25 ||| (place 13#4 21 ||| place 0#8 4) from by decide,
    and_or_iff _ _ _ _ _ (by decide) (by decide) (by decide),
    and_or_iff _ _ _ _ _ (by decide) (by decide) (by decide),
    and_place_iff w 25 3 _ (by decide),
    and_place_iff w 21 4 _ (by decide),
    and_place_iff w 4 8 _ (by decide)]

theorem row_cmpImm (w : Word) : field w 0 28 &&& 0xfe00000#28 = 0x3400000#28 ↔
    field w 25 3 = 1#3 ∧ field w 21 4 = 10#4 := by
  rw [rest_and_iff,
    show (0xfe00000#28).setWidth 32 = place (BitVec.allOnes 3) 25 ||| place (BitVec.allOnes 4) 21 from by decide,
    show (0x3400000#28).setWidth 32 = place 1#3 25 ||| place 10#4 21 from by decide,
    and_or_iff _ _ _ _ _ (by decide) (by decide) (by decide),
    and_place_iff w 25 3 _ (by decide),
    and_place_iff w 21 4 _ (by decide)]

theorem row_cmpReg (w : Word) : field w 0 28 &&& 0xfe00ff0#28 = 0x1400000#28 ↔
    field w 25 3 = 0#3 ∧ field w 21 4 = 10#4 ∧ field w 4 8 = 0#8 := by
  rw [rest_and_iff,
    show (0xfe00ff0#28).setWidth 32 = place (BitVec.allOnes 3) 25 ||| (place (BitVec.allOnes 4) 21 ||| place (BitVec.allOnes 8) 4) from by decide,
    show (0x1400000#28).setWidth 32 = place 0#3 25 ||| (place 10#4 21 ||| place 0#8 4) from by decide,
    and_or_iff _ _ _ _ _ (by decide) (by decide) (by decide),
    and_or_iff _ _ _ _ _ (by decide) (by decide) (by decide),
    and_place_iff w 25 3 _ (by decide),
    and_place_iff w 21 4 _ (by decide),
    and_place_iff w 4 8 _ (by decide)]

theorem row_tstImm (w : Word) : field w 0 28 &&& 0xfe00000#28 = 0x3000000#28 ↔
    field w 25 3 = 1#3 ∧ field w 21 4 = 8#4 := by
  rw [rest_and_iff,
    show (0xfe00000#28).setWidth 32 = place (BitVec.allOnes 3) 25 ||| place (BitVec.allOnes 4) 21 from by decide,
    show (0x3000000#28).setWidth 32 = place 1#3 25 ||| place 8#4 21 from by decide,
    and_or_iff _ _ _ _ _ (by decide) (by decide) (by decide),
    and_place_iff w 25 3 _ (by decide),
    and_place_iff w 21 4 _ (by decide)]

theorem row_tstReg (w : Word) : field w 0 28 &&& 0xfe00ff0#28 = 0x1000000#28 ↔
    field w 25 3 = 0#3 ∧ field w 21 4 = 8#4 ∧ field w 4 8 = 0#8 := by
  rw [rest_and_iff,
    show (0xfe00ff0#28).setWidth 32 = place (BitVec.allOnes 3) 25 ||| (place (BitVec.allOnes 4) 21 ||| place (BitVec.allOnes 8) 4) from by decide,
    show (0x1000000#28).setWidth 32 = place 0#3 25 ||| (place 8#4 21 ||| place 0#8 4) from by decide,
    and_or_iff _ _ _ _ _ (by decide) (by decide) (by decide),
    and_or_iff _ _ _ _ _ (by decide) (by decide) (by decide),
    and_place_iff w 25 3 _ (by decide),
    and_place_iff w 21 4 _ (by decide),
    and_place_iff w 4 8 _ (by decide)]

theorem row_str (w : Word) : field w 0 28 &&& 0xf700000#28 = 0x5000000#28 ↔
    field w 25 3 = 2#3 ∧ field w 24 1 = 1#1 ∧ field w 22 1 = 0#1 ∧ field w 21 1 = 0#1 ∧ field w 20 1 = 0#1 := by
  rw [rest_and_iff,
    show (0xf700000#28).setWidth 32 = place (BitVec.allOnes 3) 25 ||| (place (BitVec.allOnes 1) 24 ||| (place (BitVec.allOnes 1) 22 ||| (place (BitVec.allOnes 1) 21 ||| place (BitVec.allOnes 1) 20))) from by decide,
    show (0x5000000#28).setWidth 32 = place 2#3 25 ||| (place 1#1 24 ||| (place 0#1 22 ||| (place 0#1 21 ||| place 0#1 20))) from by decide,
    and_or_iff _ _ _ _ _ (by decide) (by decide) (by decide),
    and_or_iff _ _ _ _ _ (by decide) (by decide) (by decide),
    and_or_iff _ _ _ _ _ (by decide) (by decide) (by decide),
    and_or_iff _ _ _ _ _ (by decide) (by decide) (by decide),
    and_place_iff w 25 3 _ (by decide),
    and_place_iff w 24 1 _ (by decide),
    and_place_iff w 22 1 _ (by decide),
    and_place_iff w 21 1 _ (by decide),
    and_place_iff w 20 1 _ (by decide)]

theorem row_ldr (w : Word) : field w 0 28 &&& 0xf700000#28 = 0x5100000#28 ↔
    field w 25 3 = 2#3 ∧ field w 24 1 = 1#1 ∧ field w 22 1 = 0#1 ∧ field w 21 1 = 0#1 ∧ field w 20 1 = 1#1 := by
  rw [rest_and_iff,
    show (0xf700000#28).setWidth 32 = place (BitVec.allOnes 3) 25 ||| (place (BitVec.allOnes 1) 24 ||| (place (BitVec.allOnes 1) 22 ||| (place (BitVec.allOnes 1) 21 ||| place (BitVec.allOnes 1) 20))) from by decide,
    show (0x5100000#28).setWidth 32 = place 2#3 25 ||| (place 1#1 24 ||| (place 0#1 22 ||| (place 0#1 21 ||| place 1#1 20))) from by decide,
    and_or_iff _ _ _ _ _ (by decide) (by decide) (by decide),
    and_or_iff _ _ _ _ _ (by decide) (by decide) (by decide),
    and_or_iff _ _ _ _ _ (by decide) (by decide) (by decide),
    and_or_iff _ _ _ _ _ (by decide) (by decide) (by decide),
    and_place_iff w 25 3 _ (by decide),
    and_place_iff w 24 1 _ (by decide),
    and_place_iff w 22 1 _ (by decide),
    and_place_iff w 21 1 _ (by decide),
    and_place_iff w 20 1 _ (by decide)]

theorem row_strb (w : Word) : field w 0 28 &&& 0xf700000#28 = 0x5400000#28 ↔
    field w 25 3 = 2#3 ∧ field w 24 1 = 1#1 ∧ field w 22 1 = 1#1 ∧ field w 21 1 = 0#1 ∧ field w 20 1 = 0#1 := by
  rw [rest_and_iff,
    show (0xf700000#28).setWidth 32 = place (BitVec.allOnes 3) 25 ||| (place (BitVec.allOnes 1) 24 ||| (place (BitVec.allOnes 1) 22 ||| (place (BitVec.allOnes 1) 21 ||| place (BitVec.allOnes 1) 20))) from by decide,
    show (0x5400000#28).setWidth 32 = place 2#3 25 ||| (place 1#1 24 ||| (place 1#1 22 ||| (place 0#1 21 ||| place 0#1 20))) from by decide,
    and_or_iff _ _ _ _ _ (by decide) (by decide) (by decide),
    and_or_iff _ _ _ _ _ (by decide) (by decide) (by decide),
    and_or_iff _ _ _ _ _ (by decide) (by decide) (by decide),
    and_or_iff _ _ _ _ _ (by decide) (by decide) (by decide),
    and_place_iff w 25 3 _ (by decide),
    and_place_iff w 24 1 _ (by decide),
    and_place_iff w 22 1 _ (by decide),
    and_place_iff w 21 1 _ (by decide),
    and_place_iff w 20 1 _ (by decide)]

theorem row_ldrb (w : Word) : field w 0 28 &&& 0xf700000#28 = 0x5500000#28 ↔
    field w 25 3 = 2#3 ∧ field w 24 1 = 1#1 ∧ field w 22 1 = 1#1 ∧ field w 21 1 = 0#1 ∧ field w 20 1 = 1#1 := by
  rw [rest_and_iff,
    show (0xf700000#28).setWidth 32 = place (BitVec.allOnes 3) 25 ||| (place (BitVec.allOnes 1) 24 ||| (place (BitVec.allOnes 1) 22 ||| (place (BitVec.allOnes 1) 21 ||| place (BitVec.allOnes 1) 20))) from by decide,
    show (0x5500000#28).setWidth 32 = place 2#3 25 ||| (place 1#1 24 ||| (place 1#1 22 ||| (place 0#1 21 ||| place 1#1 20))) from by decide,
    and_or_iff _ _ _ _ _ (by decide) (by decide) (by decide),
    and_or_iff _ _ _ _ _ (by decide) (by decide) (by decide),
    and_or_iff _ _ _ _ _ (by decide) (by decide) (by decide),
    and_or_iff _ _ _ _ _ (by decide) (by decide) (by decide),
    and_place_iff w 25 3 _ (by decide),
    and_place_iff w 24 1 _ (by decide),
    and_place_iff w 22 1 _ (by decide),
    and_place_iff w 21 1 _ (by decide),
    and_place_iff w 20 1 _ (by decide)]

theorem row_strh (w : Word) : field w 0 28 &&& 0xf7000f0#28 = 0x14000b0#28 ↔
    field w 25 3 = 0#3 ∧ field w 24 1 = 1#1 ∧ field w 22 1 = 1#1 ∧ field w 21 1 = 0#1 ∧ field w 20 1 = 0#1 ∧ field w 4 4 = 11#4 := by
  rw [rest_and_iff,
    show (0xf7000f0#28).setWidth 32 = place (BitVec.allOnes 3) 25 ||| (place (BitVec.allOnes 1) 24 ||| (place (BitVec.allOnes 1) 22 ||| (place (BitVec.allOnes 1) 21 ||| (place (BitVec.allOnes 1) 20 ||| place (BitVec.allOnes 4) 4)))) from by decide,
    show (0x14000b0#28).setWidth 32 = place 0#3 25 ||| (place 1#1 24 ||| (place 1#1 22 ||| (place 0#1 21 ||| (place 0#1 20 ||| place 11#4 4)))) from by decide,
    and_or_iff _ _ _ _ _ (by decide) (by decide) (by decide),
    and_or_iff _ _ _ _ _ (by decide) (by decide) (by decide),
    and_or_iff _ _ _ _ _ (by decide) (by decide) (by decide),
    and_or_iff _ _ _ _ _ (by decide) (by decide) (by decide),
    and_or_iff _ _ _ _ _ (by decide) (by decide) (by decide),
    and_place_iff w 25 3 _ (by decide),
    and_place_iff w 24 1 _ (by decide),
    and_place_iff w 22 1 _ (by decide),
    and_place_iff w 21 1 _ (by decide),
    and_place_iff w 20 1 _ (by decide),
    and_place_iff w 4 4 _ (by decide)]

theorem row_ldrh (w : Word) : field w 0 28 &&& 0xf7000f0#28 = 0x15000b0#28 ↔
    field w 25 3 = 0#3 ∧ field w 24 1 = 1#1 ∧ field w 22 1 = 1#1 ∧ field w 21 1 = 0#1 ∧ field w 20 1 = 1#1 ∧ field w 4 4 = 11#4 := by
  rw [rest_and_iff,
    show (0xf7000f0#28).setWidth 32 = place (BitVec.allOnes 3) 25 ||| (place (BitVec.allOnes 1) 24 ||| (place (BitVec.allOnes 1) 22 ||| (place (BitVec.allOnes 1) 21 ||| (place (BitVec.allOnes 1) 20 ||| place (BitVec.allOnes 4) 4)))) from by decide,
    show (0x15000b0#28).setWidth 32 = place 0#3 25 ||| (place 1#1 24 ||| (place 1#1 22 ||| (place 0#1 21 ||| (place 1#1 20 ||| place 11#4 4)))) from by decide,
    and_or_iff _ _ _ _ _ (by decide) (by decide) (by decide),
    and_or_iff _ _ _ _ _ (by decide) (by decide) (by decide),
    and_or_iff _ _ _ _ _ (by decide) (by decide) (by decide),
    and_or_iff _ _ _ _ _ (by decide) (by decide) (by decide),
    and_or_iff _ _ _ _ _ (by decide) (by decide) (by decide),
    and_place_iff w 25 3 _ (by decide),
    and_place_iff w 24 1 _ (by decide),
    and_place_iff w 22 1 _ (by decide),
    and_place_iff w 21 1 _ (by decide),
    and_place_iff w 20 1 _ (by decide),
    and_place_iff w 4 4 _ (by decide)]

theorem row_stm (w : Word) : field w 0 28 &&& 0xe100000#28 = 0x8000000#28 ↔
    field w 25 3 = 4#3 ∧ field w 20 1 = 0#1 := by
  rw [rest_and_iff,
    show (0xe100000#28).setWidth 32 = place (BitVec.allOnes 3) 25 ||| place (BitVec.allOnes 1) 20 from by decide,
    show (0x8000000#28).setWidth 32 = place 4#3 25 ||| place 0#1 20 from by decide,
    and_or_iff _ _ _ _ _ (by decide) (by decide) (by decide),
    and_place_iff w 25 3 _ (by decide),
    and_place_iff w 20 1 _ (by decide)]

theorem row_swi (w : Word) : field w 0 28 &&& 0xf000000#28 = 0xf000000#28 ↔ field w 24 4 = 15#4 := by
  rw [rest_and_iff]
  exact and_place_iff w 24 4 15#4 (by decide)

theorem flagAt_eq_true (w : Word) (i : Nat) : flagAt w i = true ↔ field w i 1 = 1#1 := by simp [flagAt]

theorem flagAt_eq_false (w : Word) (i : Nat) : flagAt w i = false ↔ field w i 1 = 0#1 := by
  rw [flagAt]; generalize field w i 1 = b; revert b; decide

theorem flagAt_cases (w : Word) (i : Nat) :
    (flagAt w i = true ∧ field w i 1 = 1#1) ∨ (flagAt w i = false ∧ field w i 1 = 0#1) := by
  rw [flagAt_eq_true, flagAt_eq_false]; generalize field w i 1 = b; revert b; decide

/-- The fields that the words of the catch-all row avoid, class by class (R99, R100). -/
structure OffRows (w : Word) : Prop where
  branch : field w 25 3 ≠ 5#3
  dataImm : field w 25 3 = 1#3 → ∀ op ∈ [0#4, 2#4, 4#4, 8#4, 10#4, 12#4, 13#4], field w 21 4 ≠ op
  dataReg : field w 25 3 = 0#3 → field w 4 8 = 0#8 →
    ∀ op ∈ [0#4, 2#4, 4#4, 8#4, 10#4, 12#4, 13#4], field w 21 4 ≠ op
  transfer : field w 25 3 = 2#3 → ¬ (flagAt w 24 = true ∧ flagAt w 21 = false)
  halfword : field w 25 3 = 0#3 →
    ¬ (flagAt w 24 = true ∧ flagAt w 22 = true ∧ flagAt w 21 = false ∧ field w 4 4 = 11#4)
  stm : field w 25 3 = 4#3 → flagAt w 20 = true
  swi : field w 24 4 ≠ 15#4

/-- The bits of a word are on no row exactly where its fields avoid every class. -/
theorem onNoRow_iff (w : Word) : onNoRow (field w 0 28) = true ↔ OffRows w := by
  have e : onNoRow (field w 0 28) = true ↔
      ∀ row ∈ instructionRows, ¬ (field w 0 28 &&& row.1 = row.2) := by
    simp [onNoRow]
  rw [e]
  simp only [instructionRows, List.forall_mem_cons, row_b, row_bl, row_andImm, row_andReg, row_subImm,
    row_subReg, row_addImm, row_addReg, row_orrImm, row_orrReg, row_movImm, row_movReg, row_cmpImm,
    row_cmpReg, row_tstImm, row_tstReg, row_str, row_ldr, row_strb, row_ldrb, row_strh, row_ldrh, row_stm,
    row_swi]
  have f24 := flagAt_cases w 24
  have f22 := flagAt_cases w 22
  have f21 := flagAt_cases w 21
  have f20 := flagAt_cases w 20
  constructor
  · rintro ⟨h1, h2, h3, h4, h5, h6, h7, h8, h9, h10, h11, h12, h13, h14, h15, h16, h17, h18, h19, h20, h21,
      h22, h23, h24, -⟩
    refine ⟨?_, ?_, ?_, ?_, ?_, ?_, h24⟩
    · intro hc
      rcases f24 with ⟨-, f⟩ | ⟨-, f⟩
      exacts [h2 ⟨hc, f⟩, h1 ⟨hc, f⟩]
    · intro hc
      simp only [List.forall_mem_cons]
      exact ⟨fun h => h3 ⟨hc, h⟩, fun h => h5 ⟨hc, h⟩, fun h => h7 ⟨hc, h⟩, fun h => h15 ⟨hc, h⟩,
        fun h => h13 ⟨hc, h⟩, fun h => h9 ⟨hc, h⟩, fun h => h11 ⟨hc, h⟩, by simp⟩
    · intro hc h0
      simp only [List.forall_mem_cons]
      exact ⟨fun h => h4 ⟨hc, h, h0⟩, fun h => h6 ⟨hc, h, h0⟩, fun h => h8 ⟨hc, h, h0⟩,
        fun h => h16 ⟨hc, h, h0⟩, fun h => h14 ⟨hc, h, h0⟩, fun h => h10 ⟨hc, h, h0⟩,
        fun h => h12 ⟨hc, h, h0⟩, by simp⟩
    · rintro hc ⟨p24, p21⟩
      rw [flagAt_eq_true] at p24
      rw [flagAt_eq_false] at p21
      rcases f22 with ⟨-, f⟩ | ⟨-, f⟩ <;> rcases f20 with ⟨-, g⟩ | ⟨-, g⟩
      exacts [h20 ⟨hc, p24, f, p21, g⟩, h19 ⟨hc, p24, f, p21, g⟩, h18 ⟨hc, p24, f, p21, g⟩,
        h17 ⟨hc, p24, f, p21, g⟩]
    · rintro hc ⟨p24, p22, p21, p4⟩
      rw [flagAt_eq_true] at p24 p22
      rw [flagAt_eq_false] at p21
      rcases f20 with ⟨-, g⟩ | ⟨-, g⟩
      exacts [h22 ⟨hc, p24, p22, p21, g, p4⟩, h21 ⟨hc, p24, p22, p21, g, p4⟩]
    · intro hc
      rcases f20 with ⟨f, -⟩ | ⟨-, f⟩
      exacts [f, (h23 ⟨hc, f⟩).elim]
  · rintro ⟨hb, hi, hr, ht, hh, hs, hw⟩
    simp only [List.forall_mem_cons] at hi hr
    simp only [flagAt_eq_true, flagAt_eq_false] at ht hh hs
    refine ⟨fun h => hb h.1, fun h => hb h.1, fun h => (hi h.1).1 h.2, fun h => (hr h.1 h.2.2).1 h.2.1,
      fun h => (hi h.1).2.1 h.2, fun h => (hr h.1 h.2.2).2.1 h.2.1,
      fun h => (hi h.1).2.2.1 h.2, fun h => (hr h.1 h.2.2).2.2.1 h.2.1,
      fun h => (hi h.1).2.2.2.2.2.1 h.2, fun h => (hr h.1 h.2.2).2.2.2.2.2.1 h.2.1,
      fun h => (hi h.1).2.2.2.2.2.2.1 h.2, fun h => (hr h.1 h.2.2).2.2.2.2.2.2.1 h.2.1,
      fun h => (hi h.1).2.2.2.2.1 h.2, fun h => (hr h.1 h.2.2).2.2.2.2.1 h.2.1,
      fun h => (hi h.1).2.2.2.1 h.2, fun h => (hr h.1 h.2.2).2.2.2.1 h.2.1,
      fun h => ht h.1 ⟨h.2.1, h.2.2.2.1⟩, fun h => ht h.1 ⟨h.2.1, h.2.2.2.1⟩,
      fun h => ht h.1 ⟨h.2.1, h.2.2.2.1⟩, fun h => ht h.1 ⟨h.2.1, h.2.2.2.1⟩,
      fun h => hh h.1 ⟨h.2.1, h.2.2.1, h.2.2.2.1, h.2.2.2.2.2⟩,
      fun h => hh h.1 ⟨h.2.1, h.2.2.1, h.2.2.2.1, h.2.2.2.2.2⟩,
      fun h => by have := hs h.1; rw [h.2] at this; exact absurd this (by decide), hw, by simp⟩

/-- A word on no row decodes to the catch-all (R99, R195). -/
theorem decodeWord_of_offRows (w : Word) (h : OffRows w) :
    decodeWord w = decodeNop (Cond.ofBits (field w 28 4)) w := by
  have hi := h.dataImm
  have hr := h.dataReg
  simp only [List.forall_mem_cons] at hi hr
  unfold decodeWord
  simp only [if_neg h.branch, if_neg h.swi]
  split
  · next hc =>
    obtain ⟨h0, h1, h2, h3, h4, h5, h6, -⟩ := hi hc
    simp only [decodeDataImm, h0, h1, h2, h3, h4, h5, h6, if_false]
  · split
    · next hc =>
      split
      · next h8 =>
        obtain ⟨h0, h1, h2, h3, h4, h5, h6, -⟩ := hr hc h8
        simp only [decodeDataReg, h0, h1, h2, h3, h4, h5, h6, if_false]
      · rw [if_neg]
        intro hx
        simp only [Bool.and_eq_true, Bool.not_eq_true', beq_iff_eq] at hx
        exact h.halfword hc ⟨hx.1.1.1, hx.1.1.2, hx.1.2, hx.2⟩
    · split
      · next hc =>
        rw [if_neg]
        intro hx
        simp only [Bool.and_eq_true, Bool.not_eq_true'] at hx
        exact h.transfer hc hx
      · split
        · next hc => rw [h.stm hc]
        · rfl

end Sys2Proof
end

