-- ==== Sys2Proof/Laws/PerInstr.lean ====
section
/-! SUPPORT. The families of statements that hold instruction by instruction, one lemma for each
constructor of `Instr`. -/

namespace Sys2Proof.Laws

/-! ## RoundTrip: the word of a well-formed instruction decodes to the instruction (R93, R101) -/

/-- Decoding the word of the instruction gives it back. -/
def RoundTrip.Statement (i : Instr) : Prop := i.wf = true → decodeWord (encode i) = i

theorem RoundTrip.b (c : Cond) o :
    RoundTrip.Statement (.b c o) := by
  intro _
  simp (disch := omega) [decodeWord, encode, formatBr, flagAt, placeFlag, field_or, field_place_inside,
    field_place_beside]

theorem RoundTrip.bl (c : Cond) o :
    RoundTrip.Statement (.bl c o) := by
  intro _
  simp (disch := omega) [decodeWord, encode, formatBr, flagAt, placeFlag, field_or, field_place_inside,
    field_place_beside]

theorem RoundTrip.andImm (c : Cond) s rn rd rot imm :
    RoundTrip.Statement (.andImm c s rn rd rot imm) := by
  intro _
  simp (disch := omega) [decodeWord, encode, formatDpImm, decodeDataImm, flagAt, regAt, placeFlag, placeReg, field_or, field_place_inside,
    field_place_beside]

theorem RoundTrip.andReg (c : Cond) s rn rd rm :
    RoundTrip.Statement (.andReg c s rn rd rm) := by
  intro _
  simp (disch := omega) [decodeWord, encode, formatDpReg, decodeDataReg, flagAt, regAt, placeFlag, placeReg, field_or, field_place_inside,
    field_place_beside]

theorem RoundTrip.subImm (c : Cond) s rn rd rot imm :
    RoundTrip.Statement (.subImm c s rn rd rot imm) := by
  intro _
  simp (disch := omega) [decodeWord, encode, formatDpImm, decodeDataImm, flagAt, regAt, placeFlag, placeReg, field_or, field_place_inside,
    field_place_beside]

theorem RoundTrip.subReg (c : Cond) s rn rd rm :
    RoundTrip.Statement (.subReg c s rn rd rm) := by
  intro _
  simp (disch := omega) [decodeWord, encode, formatDpReg, decodeDataReg, flagAt, regAt, placeFlag, placeReg, field_or, field_place_inside,
    field_place_beside]

theorem RoundTrip.addImm (c : Cond) s rn rd rot imm :
    RoundTrip.Statement (.addImm c s rn rd rot imm) := by
  intro _
  simp (disch := omega) [decodeWord, encode, formatDpImm, decodeDataImm, flagAt, regAt, placeFlag, placeReg, field_or, field_place_inside,
    field_place_beside]

theorem RoundTrip.addReg (c : Cond) s rn rd rm :
    RoundTrip.Statement (.addReg c s rn rd rm) := by
  intro _
  simp (disch := omega) [decodeWord, encode, formatDpReg, decodeDataReg, flagAt, regAt, placeFlag, placeReg, field_or, field_place_inside,
    field_place_beside]

theorem RoundTrip.orrImm (c : Cond) s rn rd rot imm :
    RoundTrip.Statement (.orrImm c s rn rd rot imm) := by
  intro _
  simp (disch := omega) [decodeWord, encode, formatDpImm, decodeDataImm, flagAt, regAt, placeFlag, placeReg, field_or, field_place_inside,
    field_place_beside]

theorem RoundTrip.orrReg (c : Cond) s rn rd rm :
    RoundTrip.Statement (.orrReg c s rn rd rm) := by
  intro _
  simp (disch := omega) [decodeWord, encode, formatDpReg, decodeDataReg, flagAt, regAt, placeFlag, placeReg, field_or, field_place_inside,
    field_place_beside]

theorem RoundTrip.movImm (c : Cond) s rn rd rot imm :
    RoundTrip.Statement (.movImm c s rn rd rot imm) := by
  intro _
  simp (disch := omega) [decodeWord, encode, formatDpImm, decodeDataImm, flagAt, regAt, placeFlag, placeReg, field_or, field_place_inside,
    field_place_beside]

theorem RoundTrip.movReg (c : Cond) s rn rd rm :
    RoundTrip.Statement (.movReg c s rn rd rm) := by
  intro _
  simp (disch := omega) [decodeWord, encode, formatDpReg, decodeDataReg, flagAt, regAt, placeFlag, placeReg, field_or, field_place_inside,
    field_place_beside]

theorem RoundTrip.cmpImm (c : Cond) s rn rd rot imm :
    RoundTrip.Statement (.cmpImm c s rn rd rot imm) := by
  intro _
  simp (disch := omega) [decodeWord, encode, formatDpImm, decodeDataImm, flagAt, regAt, placeFlag, placeReg, field_or, field_place_inside,
    field_place_beside]

theorem RoundTrip.cmpReg (c : Cond) s rn rd rm :
    RoundTrip.Statement (.cmpReg c s rn rd rm) := by
  intro _
  simp (disch := omega) [decodeWord, encode, formatDpReg, decodeDataReg, flagAt, regAt, placeFlag, placeReg, field_or, field_place_inside,
    field_place_beside]

theorem RoundTrip.tstImm (c : Cond) s rn rd rot imm :
    RoundTrip.Statement (.tstImm c s rn rd rot imm) := by
  intro _
  simp (disch := omega) [decodeWord, encode, formatDpImm, decodeDataImm, flagAt, regAt, placeFlag, placeReg, field_or, field_place_inside,
    field_place_beside]

theorem RoundTrip.tstReg (c : Cond) s rn rd rm :
    RoundTrip.Statement (.tstReg c s rn rd rm) := by
  intro _
  simp (disch := omega) [decodeWord, encode, formatDpReg, decodeDataReg, flagAt, regAt, placeFlag, placeReg, field_or, field_place_inside,
    field_place_beside]

theorem RoundTrip.str (c : Cond) u rn rd imm :
    RoundTrip.Statement (.str c u rn rd imm) := by
  intro _
  simp (disch := omega) [decodeWord, encode, formatLsImm, decodeTransfer, flagAt, regAt, placeFlag, placeReg, field_or, field_place_inside,
    field_place_beside]

theorem RoundTrip.ldr (c : Cond) u rn rd imm :
    RoundTrip.Statement (.ldr c u rn rd imm) := by
  intro _
  simp (disch := omega) [decodeWord, encode, formatLsImm, decodeTransfer, flagAt, regAt, placeFlag, placeReg, field_or, field_place_inside,
    field_place_beside]

theorem RoundTrip.strb (c : Cond) u rn rd imm :
    RoundTrip.Statement (.strb c u rn rd imm) := by
  intro _
  simp (disch := omega) [decodeWord, encode, formatLsImm, decodeTransfer, flagAt, regAt, placeFlag, placeReg, field_or, field_place_inside,
    field_place_beside]

theorem RoundTrip.ldrb (c : Cond) u rn rd imm :
    RoundTrip.Statement (.ldrb c u rn rd imm) := by
  intro _
  simp (disch := omega) [decodeWord, encode, formatLsImm, decodeTransfer, flagAt, regAt, placeFlag, placeReg, field_or, field_place_inside,
    field_place_beside]

theorem RoundTrip.strh (c : Cond) u rn rd immH immL :
    RoundTrip.Statement (.strh c u rn rd immH immL) := by
  intro _
  have h4 : field (encode (.strh c u rn rd immH immL)) 4 8 ≠ 0#8 := by
    simp (disch := omega) only [encode, formatLshImm, placeFlag, placeReg, field_or, field_place_beside,
      field_place_covers, BitVec.zero_or, BitVec.or_zero]
    exact halfword_tag_ne_zero immH
  rw [decodeWord, if_neg, if_neg, if_pos, if_neg h4]
  all_goals
    simp (disch := omega) [encode, formatLshImm, decodeHalfword, flagAt, regAt, placeFlag, placeReg, field_or,
      field_place_inside, field_place_beside]

theorem RoundTrip.ldrh (c : Cond) u rn rd immH immL :
    RoundTrip.Statement (.ldrh c u rn rd immH immL) := by
  intro _
  have h4 : field (encode (.ldrh c u rn rd immH immL)) 4 8 ≠ 0#8 := by
    simp (disch := omega) only [encode, formatLshImm, placeFlag, placeReg, field_or, field_place_beside,
      field_place_covers, BitVec.zero_or, BitVec.or_zero]
    exact halfword_tag_ne_zero immH
  rw [decodeWord, if_neg, if_neg, if_pos, if_neg h4]
  all_goals
    simp (disch := omega) [encode, formatLshImm, decodeHalfword, flagAt, regAt, placeFlag, placeReg, field_or,
      field_place_inside, field_place_beside]

theorem RoundTrip.stm (c : Cond) p u s w rn list :
    RoundTrip.Statement (.stm c p u s w rn list) := by
  intro _
  simp (disch := omega) [decodeWord, encode, formatStm, flagAt, regAt, placeFlag, placeReg, field_or, field_place_inside,
    field_place_beside]

theorem RoundTrip.swi (c : Cond) comment :
    RoundTrip.Statement (.swi c comment) := by
  intro _
  simp (disch := omega) [decodeWord, encode, formatSwi, field_or, field_place_inside,
    field_place_beside]

theorem RoundTrip.nopUnimplemented (c : Cond) rest :
    RoundTrip.Statement (.nopUnimplemented c rest) := by
  intro h
  have hr : field (formatAny c rest) 0 28 = rest := by
    simp (disch := omega) [formatAny, field_or, field_place_inside, field_place_beside]
  have hc : field (formatAny c rest) 28 4 = c.bits := by
    simp (disch := omega) [formatAny, field_or, field_place_inside, field_place_beside]
  have hw : onNoRow (field (formatAny c rest) 0 28) = true := by rw [hr]; exact h
  have hd := decodeWord_of_offRows _ ((onNoRow_iff _).1 hw)
  simpa [encode, decodeNop, hr, hc] using hd

end Sys2Proof.Laws
end

