-- ==== Sys2Proof/Laws/Writes.lean ====
section
/-! SUPPORT. The Bus writes of the machine as data: what one write does, in terms of the channel it starts, and
that a transfer, a block service and an STM are such writes one after the other. -/

namespace Sys2Proof.Machine

/-! ### One write -/

/-- A Bus write, up to what a trigger does. -/
def BusWrite.performWith (f : Fin 4 → State → Result) : BusWrite → State → Result
  | .byte a v => write8With f a v
  | .half a v => write16With f a v
  | .word a v => write32With f a v

theorem BusWrite.perform_eq (b : BusWrite) (s : State) : b.perform s = b.performWith runTransfer s := by
  cases b <;> rfl

theorem halfChannel_cases (a : Word) (v : Half) : halfChannel (a, v) =
    if v.getLsbD 15 then
      if a = 0x040000BA#32 then some 0 else if a = 0x040000C6#32 then some 1
      else if a = 0x040000D2#32 then some 2 else if a = 0x040000DE#32 then some 3 else none
    else none := by
  have h : List.finRange 4 = [0, 1, 2, 3] := by decide
  unfold halfChannel
  rw [h]
  cases v.getLsbD 15 with
  | false => simp
  | true =>
    simp only [List.find?_cons, Bool.and_true, if_true]
    split_ifs <;> simp_all

/-- In the IO block, the channel an address and a value start is the one the observer finds. -/
theorem halfChannel_io {a : Word} {o : Nat} (v : Half) (h : decodeAddr a = some (.io, o)) :
    halfChannel (a, v) = dmaTrigger o v := by
  have hd := (decodeAddr_eq_some _ _ _).1 h
  have e (k : Nat) (hk : k < 0x400) : a = BitVec.ofNat 32 (0x04000000 + k) ↔ o = k := by
    have ha := a.isLt
    constructor
    · rintro rfl; rw [BitVec.toNat_ofNat] at hd; omega
    · intro ho; apply BitVec.eq_of_toNat_eq; rw [BitVec.toNat_ofNat]; omega
  rw [halfChannel_cases, dmaTrigger, dmaChannelAt]
  simp only [e 0xBA (by decide), e 0xC6 (by decide), e 0xD2 (by decide), e 0xDE (by decide)]
  rfl

/-- Outside the IO block nothing starts a channel. -/
theorem halfChannel_outside {a : Word} (v : Half) (h : ∀ o, decodeAddr a ≠ some (.io, o)) :
    halfChannel (a, v) = none := by
  have e (k : Nat) (hk : k < 0x400) : a ≠ BitVec.ofNat 32 (0x04000000 + k) := by
    rintro rfl
    refine h k ((decodeAddr_eq_some _ _ _).2 ?_)
    rw [BitVec.toNat_ofNat]; omega
  rw [halfChannel_cases]
  simp only [e 0xBA (by decide), e 0xC6 (by decide), e 0xD2 (by decide), e 0xDE (by decide), if_false, ite_self]

theorem ioStore_trigger {o : Nat} {v : Half} {n : Fin 4} (h : dmaTrigger o v = some n) (s : State) :
    s.ioStore o v = s.setIo16 o v := by
  have ho : 0x010 ≤ o := by
    unfold dmaTrigger at h
    split at h
    · by_contra hlt
      have : ∀ p < 0x010, dmaChannelAt p = none := by decide
      rw [this o (by omega)] at h; cases h
    · cases h
  unfold State.ioStore State.ppuOnIoWrite
  split_ifs <;> first | omega | rfl

/-- What a halfword write does: where it starts a channel, the trigger in the state that holds the halfword; else
the same next state whatever a trigger does (R50, R61, R241). -/
theorem write16With_spec (f : Fin 4 → State → Result) (a : Word) (v : Half) (s : State) :
    match halfChannel (align2 a, v) with
    | some n => write16With f a v s = f n (s.setIo16 ((align2 a).toNat % 0x1000000) v)
    | none => ∃ t, ∀ g, write16With g a v s = .next t := by
  cases hd : decodeAddr (align2 a) with
  | none =>
    rw [halfChannel_outside _ (by simp [hd])]
    exact ⟨s, fun g => by simp [write16With, hd]⟩
  | some p =>
    obtain ⟨r, o⟩ := p
    cases r
    case io =>
      rw [halfChannel_io _ hd]
      have ho : o = (align2 a).toNat % 0x1000000 := ((decodeAddr_eq_some _ _ _).1 hd).2.1
      cases ht : dmaTrigger o v with
      | none => exact ⟨s.ioStore o v, fun g => by simp [write16With, hd, ioWrite16With, ht]⟩
      | some n =>
        simp [write16With, hd, ioWrite16With, ht, ioStore_trigger ht, ← ho]
    all_goals
      rw [halfChannel_outside _ (by simp [hd])]
      exact ⟨_, fun g => by simp only [write16With, hd]; rfl⟩

/-- The low half of a word write starts no channel: a control register is the upper half of its word. -/
theorem halfChannel_align4 (a : Word) (v : Half) : halfChannel (align4 a, v) = none := by
  have h := align4_toNat a
  have e (k : Nat) (hk : k < 0x10000000) (h4 : k % 4 = 2) : align4 a ≠ BitVec.ofNat 32 k := by
    intro he
    rw [he, BitVec.toNat_ofNat] at h
    omega
  rw [halfChannel_cases]
  simp only [e 0x040000BA (by decide) rfl, e 0x040000C6 (by decide) rfl, e 0x040000D2 (by decide) rfl,
    e 0x040000DE (by decide) rfl, if_false, ite_self]

theorem BusWrite.channel_half (a : Word) (v : Half) (s : State) :
    BusWrite.channel (.half a v) s = halfChannel (align2 a, v) := by
  simp only [BusWrite.channel, BusWrite.halves, List.findSome?_cons, List.findSome?_nil]
  cases halfChannel (align2 a, v) <;> rfl

theorem BusWrite.channel_word (a v : Word) (s : State) :
    BusWrite.channel (.word a v) s = halfChannel (align4 a + 2#32, highHalf v) := by
  simp only [BusWrite.channel, BusWrite.halves, List.findSome?_cons, List.findSome?_nil, halfChannel_align4]
  cases halfChannel (align4 a + 2#32, highHalf v) <;> rfl

theorem BusWrite.channel_byte (a : Word) (v : Byte) (s : State) :
    BusWrite.channel (.byte a v) s = halfChannel (align2 a, mergedHalf a v s) := by
  simp only [BusWrite.channel, BusWrite.halves, List.findSome?_cons, List.findSome?_nil]
  cases halfChannel (align2 a, mergedHalf a v s) <;> rfl

theorem getLsbD_zero_eq (a : Word) : a.getLsbD 0 = decide (a.toNat % 2 = 1) := by
  simp [BitVec.getLsbD, Nat.testBit_zero]

theorem decodeAddr_align2_io {a : Word} {o : Nat} :
    decodeAddr (align2 a) = some (.io, o) ↔ ∃ p, decodeAddr a = some (.io, p) ∧ o = p - p % 2 := by
  simp only [decodeAddr_eq_some, align2_toNat]
  have ha := a.isLt
  constructor
  · intro h; exact ⟨a.toNat % 0x1000000, ⟨by omega, rfl, by omega⟩, by omega⟩
  · rintro ⟨p, h, rfl⟩; omega

/-- In the IO block a byte write is the halfword write of its register with the byte merged (R49, R61). -/
theorem write8With_io (f : Fin 4 → State → Result) {a : Word} {p : Nat} (h : decodeAddr a = some (.io, p))
    (v : Byte) (s : State) : write8With f a v s = write16With f a (mergedHalf a v s) s := by
  have h2 : decodeAddr (align2 a) = some (.io, p - p % 2) := decodeAddr_align2_io.2 ⟨p, h, rfl⟩
  have hp := (decodeAddr_eq_some _ _ _).1 h
  have hr : s.read16 a = s.io16 (p - p % 2) := by
    rw [State.read16_of_decode s h2 (by decide)]; rfl
  have hodd : a.getLsbD 0 = decide (p % 2 = 1) := by
    rw [getLsbD_zero_eq]; congr 1; simp only [eq_iff_iff]; omega
  have hm : s.mergedIo p v = mergedHalf a v s := by
    simp only [State.mergedIo, mergedHalf, hr, hodd, decide_eq_true_eq, byteOf]
  simp only [write8With, write16With, h, h2, hm]

/-- What a Bus write does: where it starts a channel, the trigger in the state that holds its halfwords; else the
same next state whatever a trigger does (R49, R50, R51, R61, R241). -/
theorem BusWrite.performWith_spec (f : Fin 4 → State → Result) (b : BusWrite) (s : State) :
    match b.channel s with
    | some n => b.performWith f s = f n (b.store s)
    | none => ∃ t, ∀ g, b.performWith g s = .next t := by
  cases b with
  | half a v =>
    rw [BusWrite.channel_half]
    have h := write16With_spec f a v s
    cases hc : halfChannel (align2 a, v) <;> rw [hc] at h <;> exact h
  | word a v =>
    rw [BusWrite.channel_word]
    have h1 := write16With_spec f (align4 a) (lowHalf v) s
    have hlow := halfChannel_align4 a (lowHalf v)
    rw [align2_align4, hlow] at h1
    obtain ⟨t, ht⟩ := h1
    have h2 := write16With_spec f (align4 a + 2#32) (highHalf v) t
    rw [align2_align4_add_two] at h2
    cases hc : halfChannel (align4 a + 2#32, highHalf v) with
    | none =>
      rw [hc] at h2
      obtain ⟨u, hu⟩ := h2
      exact ⟨u, fun g => by simp only [BusWrite.performWith, write32With, ht, andThen_next, hu]⟩
    | some n =>
      rw [hc] at h2
      have hs : t = s.setIo16 ((align4 a).toNat % 0x1000000) (lowHalf v) := by
        have hio : decodeAddr (align4 a + 2#32) ≠ none ∧ ∃ o, decodeAddr (align4 a + 2#32) = some (.io, o) := by
          by_contra hne
          rw [halfChannel_outside _ (fun o ho => hne ⟨by simp [ho], o, ho⟩)] at hc
          cases hc
        obtain ⟨o, ho⟩ := hio.2
        have hn := (decodeAddr_eq_some _ _ _).1 ho
        have h4 := align4_toNat a
        have h42 : (align4 a + 2#32).toNat = a.toNat / 4 * 4 + 2 := align4_add_toNat a (i := 2) (by decide)
        have ha := a.isLt
        have hlo : decodeAddr (align2 (align4 a)) = some (.io, (align4 a).toNat % 0x1000000) := by
          rw [align2_align4]; refine (decodeAddr_eq_some _ _ _).2 ⟨by omega, rfl, by omega⟩
        rw [halfChannel_io _ ho] at hc
        have hbig : 0x010 ≤ (align4 a).toNat % 0x1000000 := by
          unfold dmaTrigger at hc
          split at hc
          · by_contra hlt
            have : ∀ p < 0x013, dmaChannelAt p = none := by decide
            rw [this o (by omega)] at hc; cases hc
          · cases hc
        have hl := ht f
        rw [write16With] at hl
        simp only [hlo] at hl
        have htr : dmaTrigger ((align4 a).toNat % 0x1000000) (lowHalf v) = none := by
          rw [align2_align4] at hlo; rw [← halfChannel_io _ hlo, hlow]
        simp only [ioWrite16With, htr, Host.Outcome.next.injEq] at hl
        rw [← hl]
        unfold State.ioStore State.ppuOnIoWrite
        split_ifs <;> first | omega | rfl
      change write32With f a v s = _
      rw [write32With, ht, andThen_next, h2, hs]
      rfl
  | byte a v =>
    rw [BusWrite.channel_byte]
    by_cases hio : ∃ p, decodeAddr a = some (.io, p)
    · obtain ⟨p, hp⟩ := hio
      have h := write16With_spec f a (mergedHalf a v s) s
      cases hc : halfChannel (align2 a, mergedHalf a v s) with
      | some n => rw [hc] at h; exact (write8With_io f hp v s).trans h
      | none =>
        rw [hc] at h
        obtain ⟨t, ht⟩ := h
        exact ⟨t, fun g => (write8With_io g hp v s).trans (ht g)⟩
    · rw [halfChannel_outside _ (fun o ho => hio (by
        obtain ⟨p, hp, _⟩ := decodeAddr_align2_io.1 ho; exact ⟨p, hp⟩))]
      cases hd : decodeAddr a with
      | none => exact ⟨s, fun g => by simp [BusWrite.performWith, write8With, hd]⟩
      | some q =>
        obtain ⟨r, o⟩ := q
        cases r
        case io => exact absurd ⟨o, hd⟩ hio
        all_goals exact ⟨_, fun g => by simp only [BusWrite.performWith, write8With, hd]; rfl⟩

/-- A write inside a transfer is refused where it starts a channel, and only there (R248, U3). -/
theorem BusWrite.performInside_eq (b : BusWrite) (s : State) :
    b.performInside s = b.performWith nestedTrigger s := by
  have h := b.performWith_spec nestedTrigger s
  unfold BusWrite.performInside
  cases hc : b.channel s with
  | none =>
    rw [hc] at h
    obtain ⟨t, ht⟩ := h
    rw [ht]
    exact (b.perform_eq s).trans (ht _)
  | some n => rw [hc] at h; rw [h]; rfl

/-! ### Writes one after the other -/

theorem andThen_assoc (r : Result) (f g : State → Result) :
    andThen (andThen r f) g = andThen r fun s => andThen (f s) g := by
  cases r <;> rfl

theorem runWrites_append (write : BusWrite → State → Result) (l m : List (State → BusWrite)) (s : State) :
    runWrites write (l ++ m) s = andThen (runWrites write l s) (runWrites write m) := by
  induction l generalizing s with
  | nil => rfl
  | cons w rest ih =>
    simp only [List.cons_append, runWrites, andThen_assoc]
    congr 1
    funext t
    exact ih t

/-- A sequence of writes is refused exactly where one of them, met in its turn, is. -/
theorem runWrites_eq_refused {write : BusWrite → State → Result} {l : List (State → BusWrite)} {s : State}
    {e : Refusal} :
    runWrites write l s = .refused e ↔ ReachesWrite write l s fun b t => write b t = .refused e := by
  constructor
  · intro h
    induction l generalizing s with
    | nil => cases h
    | cons w rest ih =>
      rcases andThen_eq_refused.1 h with h | ⟨t, h1, h2⟩
      · exact ⟨[], rest, w, s, rfl, rfl, h⟩
      · obtain ⟨front, back, v, u, rfl, h3, h4⟩ := ih h2
        exact ⟨w :: front, back, v, u, rfl, by rw [runWrites, h1]; exact h3, h4⟩
  · rintro ⟨front, rest, w, t, rfl, h1, h2⟩
    rw [runWrites_append, h1, andThen_next]
    exact andThen_eq_refused.2 (Or.inl h2)

theorem unitWrite_performWith (f : Fin 4 → State → Result) (wide : Bool) (a v : Word) (s : State) :
    (unitWrite wide a v).performWith f s = writeUnitWith f wide a v s := by
  cases wide <;> rfl

theorem unit_step (wide : Bool) (a : Word) (k : Nat) : a + BitVec.ofNat 32 ((k + 1) * unitBytes wide) =
    a + unitSize wide + BitVec.ofNat 32 (k * unitBytes wide) := by
  have h : unitSize wide = BitVec.ofNat 32 (unitBytes wide) := by cases wide <;> rfl
  rw [h, Nat.add_mul, Nat.one_mul, Nat.add_comm, BitVec.ofNat_add, BitVec.add_assoc]

/-- A copy is the writes of its units (R187, R244). -/
theorem copyUnitsWith_eq (f : Fin 4 → State → Result) (wide : Bool) (n : Nat) (src dst : Word) (s : State) :
    copyUnitsWith f wide n src dst s = runWrites (BusWrite.performWith f) (copyWrites wide n src dst) s := by
  induction n generalizing src dst s with
  | zero => rfl
  | succ n ih =>
    have h : copyWrites wide (n + 1) src dst = (fun s => unitWrite wide dst (s.readUnit wide src)) ::
        copyWrites wide n (src + unitSize wide) (dst + unitSize wide) := by
      simp only [copyWrites, List.range_succ_eq_map, List.map_cons, List.map_map, Nat.zero_mul, BitVec.add_zero,
        Function.comp_def, unit_step, Nat.succ_eq_add_one]
    rw [h, runWrites, copyUnitsWith, unitWrite_performWith]
    congr 1
    funext t
    exact ih _ _ t

/-- A fill is the writes of its units (R187). -/
theorem fillUnitsWith_eq (f : Fin 4 → State → Result) (wide : Bool) (v : Word) (n : Nat) (dst : Word) (s : State) :
    fillUnitsWith f wide v n dst s = runWrites (BusWrite.performWith f) (fillWrites wide n v dst) s := by
  induction n generalizing dst s with
  | zero => rfl
  | succ n ih =>
    have h : fillWrites wide (n + 1) v dst = (fun _ => unitWrite wide dst v) ::
        fillWrites wide n v (dst + unitSize wide) := by
      simp only [fillWrites, List.range_succ_eq_map, List.map_cons, List.map_map, Nat.zero_mul, BitVec.add_zero,
        Function.comp_def, unit_step, Nat.succ_eq_add_one]
    rw [h, runWrites, fillUnitsWith, unitWrite_performWith]
    congr 1
    funext t
    exact ih _ t

theorem perform_funext : BusWrite.perform = BusWrite.performWith runTransfer := by
  funext b s; exact b.perform_eq s

theorem performInside_funext : BusWrite.performInside = BusWrite.performWith nestedTrigger := by
  funext b s; exact b.performInside_eq s

/-- A transfer is the writes of its units, made inside, and the cleared enable bit (R242, R244, R246). -/
theorem runTransfer_eq (n : Fin 4) (s : State) : runTransfer n s =
    andThen (runWrites BusWrite.performInside (channelWrites n s) s) fun t => .next (t.dmaClearEnable n) := by
  have e : 0x04000000 + dmaWindow n = 0x040000B0 + 12 * n.val := by unfold dmaWindow; omega
  rw [performInside_funext]
  simp only [runTransfer, copyUnitsWith_eq, channelWrites, State.dmaSource, State.dmaDest, State.dmaCount,
    State.dmaWide, e]

/-- The block service is the writes of its units (R187). -/
theorem blockCopyFill_eq (s : State) : blockCopyFill s =
    runWrites BusWrite.perform
      (if (s.reg 2).getLsbD 24 then
        fillWrites ((s.reg 2).getLsbD 26) ((s.reg 2).extractLsb' 0 21).toNat
          (s.readUnit ((s.reg 2).getLsbD 26) (s.reg 0)) (s.reg 1)
      else copyWrites ((s.reg 2).getLsbD 26) ((s.reg 2).extractLsb' 0 21).toNat (s.reg 0) (s.reg 1)) s := by
  rw [perform_funext]
  unfold blockCopyFill serviceFill serviceCount serviceWide
  dsimp only
  split
  · exact fillUnitsWith_eq ..
  · exact copyUnitsWith_eq ..

/-! ### STM -/

theorem write32_regs {a v : Word} {s t : State} (h : write32 a v s = .next t) : t.regs = s.regs :=
  (write32_keeps (keptByTransfers_sameOutsideBus s) (SameOutsideBus.refl s) h).regs

/-- The stores of listed registers, counted on from `c`, are word writes at the places of R176. -/
theorem storeRegs_filter (p : Reg → Bool) (s0 : State) (addr : Word) (l : List Reg) (hl : l.Pairwise (· < ·))
    (c : Nat) (s : State) (hs : s.regs = s0.regs) :
    storeRegs (l.filter p) (addr + BitVec.ofNat 32 (4 * c)) s =
      runWrites BusWrite.perform ((l.filter p).map fun r _ =>
        .word (addr + BitVec.ofNat 32 (4 * (c + l.countP fun i => p i && decide (i < r)))) (s0.reg r)) s := by
  induction l generalizing c s with
  | nil => rfl
  | cons x xs ih =>
    obtain ⟨hx, hxs⟩ := List.pairwise_cons.1 hl
    by_cases hp : p x = true
    · have h0 : (x :: xs).countP (fun i => p i && decide (i < x)) = 0 := by
        rw [List.countP_eq_zero]
        intro i hi
        rcases List.mem_cons.1 hi with rfl | hi
        · simp
        · simp [not_lt.2 (hx i hi).le]
      have hrest : (xs.filter p).map (fun r (_ : State) => BusWrite.word
            (addr + BitVec.ofNat 32 (4 * (c + (x :: xs).countP fun i => p i && decide (i < r)))) (s0.reg r)) =
          (xs.filter p).map (fun r (_ : State) => BusWrite.word
            (addr + BitVec.ofNat 32 (4 * (c + 1 + xs.countP fun i => p i && decide (i < r)))) (s0.reg r)) := by
        refine List.map_congr_left fun r hr => ?_
        have hlt : x < r := hx r (List.mem_filter.1 hr).1
        rw [List.countP_cons_of_pos (by simp [hp, hlt])]
        funext _
        congr 4
        omega
      rw [List.filter_cons_of_pos hp, List.map_cons, runWrites, storeRegs, h0, hrest, State.reg_congr hs]
      change andThen (write32 _ _ s) _ = andThen (write32 _ _ s) _
      have he : addr + BitVec.ofNat 32 (4 * c) + 4#32 = addr + BitVec.ofNat 32 (4 * (c + 1)) := by
        rw [Nat.mul_add, BitVec.ofNat_add, BitVec.add_assoc]
      rw [Nat.add_zero]
      cases hw : write32 (addr + BitVec.ofNat 32 (4 * c)) (s0.reg x) s with
      | next t =>
        simp only [andThen_next, he]
        exact ih hxs (c + 1) t ((write32_regs hw).trans hs)
      | fault f => rfl
      | refused e => rfl
    · have hrest : ∀ r, (x :: xs).countP (fun i => p i && decide (i < r)) =
          xs.countP (fun i => p i && decide (i < r)) := by
        intro r
        rw [List.countP_cons_of_neg]
        simp [hp]
      simp only [List.filter_cons_of_neg hp, hrest]
      exact ih hxs c s hs

theorem listedCount_eq (reglist : BitVec 16) : listedCount reglist = (listedRegs reglist).length := by
  rw [listedCount, listedRegs, List.countP_eq_length_filter]

theorem stmFirst_eq (base : Word) (p u : Bool) (reglist : BitVec 16) :
    stmFirst base p u (listedCount reglist) = stmStart base p u reglist := by
  cases p <;> cases u <;> simp [stmFirst, stmStart, stmBytes, listedCount_eq]

/-- The stores of an STM are its word writes (R176). -/
theorem storeRegs_eq (reglist : BitVec 16) (a : Word) (s : State) : storeRegs (listedRegs reglist) a s =
    runWrites BusWrite.perform (((List.finRange 16).filter fun r => reglist.getLsbD r.val).map fun r _ =>
      .word (a + BitVec.ofNat 32 (4 * listedBelow reglist r)) (s.reg r)) s := by
  have h := storeRegs_filter (fun r => reglist.getLsbD r.val) s a (List.finRange 16)
    (by decide) 0 s rfl
  simpa [listedRegs, listedBelow] using h

/-! ### Instructions -/

theorem condPassed_of_holds {c : Cond} {cpsr : Word} (h : CondHolds c cpsr) : condPassed c cpsr = some true := by
  cases c <;> simp_all [CondHolds, condPassed, flagN, flagZ]

theorem holds_of_condPassed {c : Cond} {cpsr : Word} (h : condPassed c cpsr = some true) : CondHolds c cpsr := by
  cases c <;> simp_all [CondHolds, condPassed, flagN, flagZ]

/-- What an instruction is refused for: its condition has no meaning, it is an STM that writes R15 back, or one
of its Bus writes is refused (R260). -/
theorem exec_refused {i : Instr} {s : State} {e : Refusal} (h : exec i s = .refused e) :
    (condPassed i.cond s.cpsr = none ∧ e = .unassignedCondition i.cond) ∨
    ((∃ c p u x list, i = .stm c p u x true 15 list) ∧ e = .stmWritebackToR15) ∨
    (i.writesBus = true ∧ runWrites BusWrite.perform (i.busWrites s) s = .refused e) := by
  cases i
  case str | strb | strh =>
    rcases whenPassed_refused h with h | ⟨_, h⟩
    · exact Or.inl h
    · rcases andThen_eq_refused.1 h with h | ⟨_, _, h⟩
      · exact Or.inr (Or.inr ⟨rfl, andThen_eq_refused.2 (Or.inl h)⟩)
      · cases h
  case stm c p u x w rn list =>
    rcases whenPassed_refused h with h | ⟨_, h⟩
    · exact Or.inl h
    · split at h
      · next hw =>
        cases h
        obtain ⟨rfl, rfl⟩ := hw
        exact Or.inr (Or.inl ⟨⟨_, _, _, _, _, rfl⟩, rfl⟩)
      · next hw =>
        rcases andThen_eq_refused.1 h with h | ⟨_, _, h⟩
        · refine Or.inr (Or.inr ⟨rfl, ?_⟩)
          rw [Instr.busWrites, if_neg hw, stmFirst_eq, ← storeRegs_eq]
          exact h
        · cases h
  case swi c comment =>
    rcases whenPassed_refused h with h | ⟨_, h⟩
    · exact Or.inl h
    · rcases andThen_eq_refused.1 h with h | ⟨_, _, h⟩
      · refine Or.inr (Or.inr ⟨rfl, ?_⟩)
        split at h
        · next hc =>
          rw [blockCopyFill_eq] at h
          simpa only [Instr.busWrites, hc, ne_eq, not_true_eq_false, if_false] using h
        · cases h
      · cases h
  all_goals
    rcases whenPassed_refused h with h | ⟨_, h⟩
    · exact Or.inl h
    · cases h

/-- An instruction whose condition holds is refused where one of its Bus writes is. -/
theorem exec_of_writes_refused {i : Instr} {s : State} {e : Refusal} (hc : CondHolds i.cond s.cpsr)
    (h : runWrites BusWrite.perform (i.busWrites s) s = .refused e) : exec i s = .refused e := by
  have hp := condPassed_of_holds hc
  cases i
  case str | strb | strh =>
    rcases andThen_eq_refused.1 h with h | ⟨_, _, h⟩
    · exact (whenPassed_true _ hp).trans (andThen_eq_refused.2 (Or.inl h))
    · cases h
  case stm c p u x w rn list =>
    refine (whenPassed_true _ hp).trans ?_
    by_cases hw : w = true ∧ rn = 15
    · simp [Instr.busWrites, hw, runWrites] at h
    · rw [if_neg hw]
      rw [Instr.busWrites, if_neg hw, stmFirst_eq, ← storeRegs_eq] at h
      exact andThen_eq_refused.2 (Or.inl h)
  case swi c comment =>
    refine (whenPassed_true _ hp).trans ?_
    by_cases hs : comment.extractLsb' 16 8 = s.cfg.swiCpuset
    · rw [if_pos hs, blockCopyFill_eq]
      simp only [Instr.busWrites, hs, ne_eq, not_true_eq_false, if_false] at h
      exact andThen_eq_refused.2 (Or.inl h)
    · simp [Instr.busWrites, hs, runWrites] at h
  all_goals cases h

/-- A write is refused for a transfer inside the transfer it starts, and for nothing else (R248, U3). -/
theorem BusWrite.perform_eq_refused {b : BusWrite} {s : State} {e : Refusal} :
    b.perform s = .refused e ↔ ∃ m, b.channel s = some m ∧
      runWrites BusWrite.performInside (channelWrites m (b.store s)) (b.store s) = .refused e := by
  rw [b.perform_eq]
  have h := b.performWith_spec runTransfer s
  cases hc : b.channel s with
  | none =>
    rw [hc] at h
    obtain ⟨t, ht⟩ := h
    simp [ht]
  | some n =>
    rw [hc] at h
    rw [h, runTransfer_eq, andThen_eq_refused]
    simp

/-- The refusals of a transfer's writes. -/
theorem BusWrite.performInside_eq_refused {b : BusWrite} {s : State} {e : Refusal} :
    b.performInside s = .refused e ↔ ∃ n, b.channel s = some n ∧ e = .nestedDmaTransfer n := by
  rw [b.performInside_eq]
  have h := b.performWith_spec nestedTrigger s
  cases hc : b.channel s with
  | none =>
    rw [hc] at h
    obtain ⟨t, ht⟩ := h
    simp [ht]
  | some n =>
    rw [hc] at h
    rw [h]
    simp [nestedTrigger, eq_comm]

/-- An instruction starts a transfer inside a transfer exactly where its writes are refused for it (U3). -/
theorem startsInside_iff (i : Instr) (s : State) (n : Fin 4) : i.StartsInside s n ↔
    runWrites BusWrite.perform (i.busWrites s) s = .refused (.nestedDmaTransfer n) := by
  rw [runWrites_eq_refused]
  unfold Instr.StartsInside
  simp only [BusWrite.perform_eq_refused, runWrites_eq_refused, BusWrite.performInside_eq_refused,
    Refusal.nestedDmaTransfer.injEq, exists_eq_right']

end Sys2Proof.Machine
end

