-- ==== Sys2Proof/Tests/Slice0.lean ====
section
/-! SUPPORT. The model's own tests: one step or one operation each, against the vectors of spec/95_test_vectors.md
(the section is named with each), and a witness for the hypotheses of every obligation. -/

namespace Sys2Proof.Tests

open Sys2Proof Sys2Proof.Machine

set_option maxRecDepth 20000

/-! ## Well-formedness: the check refuses a no-op term whose bits stand on another row, one for each row's
condition of 30_encoding.md R99 -/

theorem test_wf_refuses_branch_bits : (Instr.nopUnimplemented .al 0xAFFFFFE#28).wf = false := by decide
theorem test_wf_refuses_link_bits : (Instr.nopUnimplemented .al 0xB000002#28).wf = false := by decide
theorem test_wf_refuses_immediate_bits : (Instr.nopUnimplemented .al 0x3A00001#28).wf = false := by decide
theorem test_wf_refuses_register_bits : (Instr.nopUnimplemented .al 0x0800000#28).wf = false := by decide
theorem test_wf_refuses_transfer_bits : (Instr.nopUnimplemented .al 0x5901000#28).wf = false := by decide
theorem test_wf_refuses_halfword_bits : (Instr.nopUnimplemented .al 0x1C010B0#28).wf = false := by decide
theorem test_wf_refuses_stm_bits : (Instr.nopUnimplemented .al 0x92D0003#28).wf = false := by decide
theorem test_wf_refuses_swi_bits : (Instr.nopUnimplemented .al 0xF0B0000#28).wf = false := by decide
theorem test_wf_accepts_multiply_bits : (Instr.nopUnimplemented .al 0x0000291#28).wf = true := by decide

/-! ## Decoding: a word of every row, written out from 30_encoding.md R93 and R101 field by field -/

theorem test_decode_b : decodeWord 0b1110_1010_111111111111111111111110#32 = .b .al 0xFFFFFE#24 := by decide
theorem test_decode_bl : decodeWord 0b0000_1011_000000000000000000000010#32 = .bl .eq 2#24 := by decide
theorem test_decode_andImm :
    decodeWord 0b1110_0010000_1_0000_0001_0000_00000001#32 = .andImm .al true 0 1 0#4 1#8 := by decide
theorem test_decode_andReg :
    decodeWord 0b1110_0000000_0_0000_0010_00000000_0001#32 = .andReg .al false 0 2 1 := by decide
theorem test_decode_subImm :
    decodeWord 0b1110_0010010_1_0011_0100_1100_00000001#32 = .subImm .al true 3 4 12#4 1#8 := by decide
theorem test_decode_subReg :
    decodeWord 0b1110_0000010_1_0001_0000_00000000_0010#32 = .subReg .al true 1 0 2 := by decide
theorem test_decode_addImm :
    decodeWord 0b1110_0010100_0_1111_0000_0000_00000100#32 = .addImm .al false 15 0 0#4 4#8 := by decide
theorem test_decode_addReg :
    decodeWord 0b1110_0000100_0_0001_0010_00000000_0011#32 = .addReg .al false 1 2 3 := by decide
theorem test_decode_orrImm :
    decodeWord 0b1110_0011100_0_0010_0011_0000_00000010#32 = .orrImm .al false 2 3 0#4 2#8 := by decide
theorem test_decode_orrReg :
    decodeWord 0b1110_0001100_1_0000_0010_00000000_0001#32 = .orrReg .al true 0 2 1 := by decide
theorem test_decode_movImm :
    decodeWord 0b0100_0011101_1_0101_0011_0100_11111111#32 = .movImm .mi true 5 3 4#4 0xFF#8 := by decide
theorem test_decode_movReg :
    decodeWord 0b1110_0001101_0_0000_1111_00000000_1110#32 = .movReg .al false 0 15 14 := by decide
theorem test_decode_cmpImm :
    decodeWord 0b1110_0011010_1_0011_0000_0000_00000101#32 = .cmpImm .al true 3 0 0#4 5#8 := by decide
theorem test_decode_cmpReg :
    decodeWord 0b1110_0001010_0_1111_0000_00000000_0001#32 = .cmpReg .al false 15 0 1 := by decide
theorem test_decode_tstImm :
    decodeWord 0b0001_0011000_1_0010_0000_0000_10000000#32 = .tstImm .ne true 2 0 0#4 0x80#8 := by decide
theorem test_decode_tstReg :
    decodeWord 0b0101_0001000_0_1111_0000_00000000_0010#32 = .tstReg .pl false 15 0 2 := by decide
theorem test_decode_str :
    decodeWord 0b1110_0101_1000_0000_0001_000000000100#32 = .str .al true 0 1 4#12 := by decide
theorem test_decode_ldr :
    decodeWord 0b1110_0101_0001_0000_0001_000000000100#32 = .ldr .al false 0 1 4#12 := by decide
theorem test_decode_strb :
    decodeWord 0b1110_0101_1100_0000_0001_000000000001#32 = .strb .al true 0 1 1#12 := by decide
theorem test_decode_ldrb :
    decodeWord 0b1110_0101_0101_0010_0011_000000000111#32 = .ldrb .al false 2 3 7#12 := by decide
theorem test_decode_strh :
    decodeWord 0b1110_0001_1100_0000_0001_0010_1011_0011#32 = .strh .al true 0 1 2#4 3#4 := by decide
theorem test_decode_ldrh :
    decodeWord 0b1110_0001_0101_0000_0001_1111_1011_0010#32 = .ldrh .al false 0 1 15#4 2#4 := by decide
theorem test_decode_stm :
    decodeWord 0b1110_1001_0010_1101_1000000000000001#32 = .stm .al true false false true 13 0x8001#16 := by
  decide
theorem test_decode_swi : decodeWord 0b1110_1111_000010110000000000000000#32 = .swi .al 0x0B0000#24 := by decide

/-- The standard words of 46_unimplemented_nop.md R196 that are no-ops here: EOR, a shifted operand, MUL, LDM,
LDRSB, a post-indexed LDR, a register offset, a coprocessor word, BX. -/
theorem test_decode_noops :
    [0xE0200001#32, 0xE1A00081#32, 0xE0000291#32, 0xE8BD0003#32, 0xE1D010D4#32, 0xE4901004#32, 0xE7901002#32,
      0xEE000000#32, 0xE12FFF1E#32].all (fun w => (decodeWord w).row == 24) = true := by decide

/-- The decoder reads the bytes of a word from the lowest address up (R91). -/
theorem test_decodeTableWord : decodeTableWord 32 0xE3B00000 = some (.movImm .al true 0 0 0#4 0#8) := by decide

theorem test_decode_truncated : decode [0xFE#8, 0xFF#8, 0xFF#8] = .error .truncated := by decide

/-! ## Steps: the vectors of 95_test_vectors.md part 2 -/

/-- A check of the state a result carries. -/
def onNext (r : Result) (p : State → Bool) : Bool :=
  match r with
  | .next t => p t
  | .fault _ => false
  | .refused _ => false

/-- A check of the reason a result was refused for. -/
def onRefused (r : Result) (e : Refusal) : Bool :=
  match r with
  | .next _ => false
  | .fault _ => false
  | .refused d => d == e

/-- Registers set one after the other. -/
def withRegs (s : State) (l : List (Reg × Word)) : State := l.foldl (fun t e => t.setReg e.1 e.2) s

/-- Cells set one after the other from an address on. -/
def withBytes (s : State) : Nat → List Byte → State
  | _, [] => s
  | k, b :: rest => withBytes (s.setByte k b) (k + 1) rest

/-- The cells from an address on. -/
def bytesAt (s : State) (k n : Nat) : List Byte := (List.range n).map fun i => s.mem.read (k + i)

/-- The start state of part 2: reset, the word in ROM at `A = 0x08000100`. -/
def start (l : List (Reg × Word)) (w : Nat) : State :=
  (withRegs (State.reset.setReg 15 0x08000108#32) l).withFetchWord 32 w

/-- The start state of part 2.3 to 2.4, with eight bytes in EWRAM. -/
def startBytes (l : List (Reg × Word)) (w : Nat) : State :=
  withBytes (start l w) 0x02000000 [0x11#8, 0x22#8, 0x33#8, 0x44#8, 0x80#8, 0x66#8, 0x77#8, 0x88#8]

theorem test_b_self : onNext (step (start [] 0xEAFFFFFE)) (fun t => t.debugView.pc == 0x08000100#32) = true := by
  decide
theorem test_bl :
    onNext (step (start [] 0xEB000002)) (fun t => t.reg 14 == 0x08000104#32 && t.debugView.pc == 0x08000110#32)
      = true := by decide
theorem test_beq_not_taken :
    onNext (step (start [] 0x0A000002)) (fun t => t.debugView.pc == 0x08000104#32) = true := by decide

theorem test_ands_imm :
    onNext (step (start [(0, 0xFFFFFFFE#32)] 0xE2101001))
      (fun t => t.reg 1 == 0#32 && t.cpsr == 0x400000D3#32) = true := by decide
theorem test_and_reg :
    onNext (step (start [(0, 0xF0F0F0F0#32), (1, 0xFF00FF00#32)] 0xE0002001))
      (fun t => t.reg 2 == 0xF000F000#32 && t.cpsr == 0xD3#32) = true := by decide
theorem test_subs_imm_wraps :
    onNext (step (start [(0, 0#32)] 0xE2500001))
      (fun t => t.reg 0 == 0xFFFFFFFF#32 && t.cpsr == 0x800000D3#32) = true := by decide
theorem test_subs_imm_rotated :
    onNext (step (start [(3, 0x100#32)] 0xE2534C01))
      (fun t => t.reg 4 == 0#32 && t.cpsr == 0x400000D3#32) = true := by decide
theorem test_subs_reg_overflow :
    onNext (step (start [(1, 0x80000000#32), (2, 1#32)] 0xE0510002))
      (fun t => t.reg 0 == 0x7FFFFFFF#32 && t.cpsr == 0xD3#32) = true := by decide
theorem test_adds_imm_wraps :
    onNext (step (start [(0, 0xFFFFFFFF#32)] 0xE2900001))
      (fun t => t.reg 0 == 0#32 && t.cpsr == 0x400000D3#32) = true := by decide
theorem test_add_imm_reads_r15 :
    onNext (step (start [] 0xE28F0004)) (fun t => t.reg 0 == 0x0800010C#32) = true := by decide
theorem test_add_reg_same :
    onNext (step (start [(0, 0x21#32)] 0xE0800000)) (fun t => t.reg 0 == 0x42#32) = true := by decide
theorem test_orr_imm :
    onNext (step (start [(2, 0x04000000#32)] 0xE3822002)) (fun t => t.reg 2 == 0x04000002#32) = true := by decide
theorem test_orrs_reg_zero :
    onNext (step (start [] 0xE1900001)) (fun t => t.reg 0 == 0#32 && t.cpsr == 0x400000D3#32) = true := by decide
theorem test_movs_imm_zero :
    onNext (step (start [(0, 5#32)] 0xE3B00000)) (fun t => t.reg 0 == 0#32 && t.cpsr == 0x400000D3#32) = true := by
  decide
theorem test_mov_imm_rotation_wraps :
    onNext (step (start [] 0xE3A002FF)) (fun t => t.reg 0 == 0xF000000F#32) = true := by decide
theorem test_mov_r15_realigns :
    onNext (step (start [(14, 0x08000043#32)] 0xE1A0F00E))
      (fun t => t.debugView.pc == 0x08000040#32 && t.reg 15 == 0x08000048#32) = true := by decide
theorem test_movs_r15_flags :
    onNext (step (start [(14, 0#32)] 0xE1B0F00E))
      (fun t => t.debugView.pc == 0#32 && t.cpsr == 0x400000D3#32) = true := by decide
theorem test_cmp_imm_less :
    onNext (step (start [(0, 4#32)] 0xE3500005)) (fun t => t.cpsr == 0x800000D3#32) = true := by decide
theorem test_cmp_imm_rd15 :
    onNext (step (start [] 0xE350F000))
      (fun t => t.cpsr == 0x400000D3#32 && t.debugView.pc == 0x08000104#32) = true := by decide
theorem test_cmp_reg_without_s :
    onNext (step (start [(0, 0x08000108#32)] 0xE14F0000))
      (fun t => t.cpsr == 0x400000D3#32 && t.reg 0 == 0x08000108#32) = true := by decide
theorem test_tst_imm :
    onNext (step (start [(0, 0x7F#32)] 0xE3100080)) (fun t => t.cpsr == 0x400000D3#32) = true := by decide
theorem test_tst_reg :
    onNext (step (start [(0, 0x80000000#32)] 0xE1100000)) (fun t => t.cpsr == 0x800000D3#32) = true := by decide
theorem test_tst_reg_without_s :
    onNext (step (start [] 0xE10F0000)) (fun t => t.cpsr == 0xD3#32) = true := by decide
theorem test_mul_is_a_noop :
    onNext (step (start [(1, 3#32), (2, 3#32)] 0xE0000291))
      (fun t => t.reg 0 == 0#32 && t.reg 15 == 0x0800010C#32) = true := by decide
theorem test_nv_refused : onRefused (step (start [] 0xF0000000)) (.unassignedCondition .nv) = true := by decide

theorem test_ldr_unaligned :
    onNext (step (startBytes [(0, 0x02000001#32)] 0xE5901003)) (fun t => t.reg 1 == 0x88776680#32) = true := by
  decide
theorem test_ldr_r15 :
    onNext (step (startBytes [(0, 0x02000000#32)] 0xE590F000)) (fun t => t.reg 15 == 0x44332218#32) = true := by
  decide
theorem test_ldrb :
    onNext (step (startBytes [(0, 0x02000000#32)] 0xE5D01004)) (fun t => t.reg 1 == 0x80#32) = true := by decide
theorem test_ldrh_odd :
    onNext (step (startBytes [(0, 0x02000000#32)] 0xE1D010B5)) (fun t => t.reg 1 == 0x6680#32) = true := by decide
theorem test_ldrh_subtracts :
    onNext (step (startBytes [(0, 0x02000008#32)] 0xE15010B2)) (fun t => t.reg 1 == 0x8877#32) = true := by decide
theorem test_str_unaligned :
    onNext (step (start [(0, 0x02000000#32), (1, 0xAABBCCDD#32)] 0xE5801001))
      (fun t => bytesAt t 0x02000000 4 == [0xDD#8, 0xCC#8, 0xBB#8, 0xAA#8]) = true := by decide
theorem test_str_r15 :
    onNext (step (start [(0, 0x02000000#32)] 0xE580F000))
      (fun t => bytesAt t 0x02000000 4 == [0x08#8, 0x01#8, 0x00#8, 0x08#8]) = true := by decide
theorem test_strb :
    onNext (step (start [(0, 0x03000000#32), (1, 0x1234ABCD#32)] 0xE5C01001))
      (fun t => bytesAt t 0x03000000 4 == [0#8, 0xCD#8, 0#8, 0#8]) = true := by decide
theorem test_strb_status :
    onNext (step (start [(0, 0x04000000#32), (1, 0#32)] 0xE5C01005))
      (fun t => t.read16 0x04000004#32 == 0x0004#16) = true := by decide
theorem test_strh_palette :
    onNext (step (start [(0, 0x05000000#32), (1, 0x7FFF#32)] 0xE1C010B0))
      (fun t => bytesAt t 0x05000000 2 == [0xFF#8, 0x7F#8] && t.paletteCache[0] == ⟨0xFF, 0xFF, 0xFF⟩) = true := by
  decide
theorem test_strh_status :
    onNext (step (start [(0, 0x04000000#32), (1, 0xFFFF#32)] 0xE1C010B4))
      (fun t => t.read16 0x04000004#32 == 0xFFF8#16) = true := by decide

theorem test_stmdb :
    onNext (step (start [(0, 1#32), (1, 2#32), (13, 0x03007F00#32)] 0xE92D0003))
      (fun t => bytesAt t 0x03007EF8 8 == [1#8, 0#8, 0#8, 0#8, 2#8, 0#8, 0#8, 0#8] &&
        t.reg 13 == 0x03007EF8#32) = true := by decide
theorem test_stmda :
    onNext (step (start [(0, 1#32), (1, 2#32), (2, 0x02000010#32)] 0xE8220003))
      (fun t => bytesAt t 0x0200000C 8 == [1#8, 0#8, 0#8, 0#8, 2#8, 0#8, 0#8, 0#8] &&
        t.reg 2 == 0x02000008#32) = true := by decide
theorem test_stm_writeback_r15_refused :
    onRefused (step (start [] 0xE8AF0001)) .stmWritebackToR15 = true := by decide

theorem test_swi_fill :
    onNext (step (withBytes (start [(0, 0x02000000#32), (1, 0x02000010#32), (2, 0x05000003#32)] 0xEF0B0000)
        0x02000000 [0x78#8, 0x56#8, 0x34#8, 0x12#8]))
      (fun t => bytesAt t 0x02000010 16 == [0x78#8, 0x56#8, 0x34#8, 0x12#8, 0x78#8, 0x56#8, 0x34#8, 0x12#8,
        0x78#8, 0x56#8, 0x34#8, 0x12#8, 0#8, 0#8, 0#8, 0#8] && t.reg 1 == 0x02000010#32) = true := by decide
theorem test_swi_other :
    onNext (step (start [(0, 1#32), (1, 2#32), (2, 3#32)] 0xEF000000))
      (fun t => t.debugView.pc == 0x08000104#32 && t.mem == State.reset.mem) = true := by decide

/-! ## The Bus, the Ppu and DMA: parts 2.8 to 2.11 -/

theorem test_word_write_and_narrow_reads :
    onNext (write32 0x02000001#32 0xAABBCCDD#32 State.reset)
      (fun t => t.read32 0x02000003#32 == 0xAABBCCDD#32 && t.read16 0x02000003#32 == 0xAABB#16 &&
        t.read8 0x02000003#32 == 0xAA#8) = true := by decide
theorem test_vram_mirror :
    onNext (write16 0x06018000#32 0x5555#16 State.reset) (fun t => t.read16 0x06000000#32 == 0x5555#16) = true := by
  decide
theorem test_palette_byte :
    onNext (andThen (write16 0x05000400#32 0x8001#16 State.reset) (write8 0x05000001#32 0x7C#8))
      (fun t => t.read16 0x05000000#32 == 0x7C01#16 && t.paletteCache[0] == ⟨8, 0, 0xFF⟩) = true := by decide
/-- A ROM of six bytes, which the widths straddle. -/
def sixBytes : State := { State.reset with rom := some [0x11#8, 0x22#8, 0x33#8, 0x44#8, 0x55#8, 0x66#8] }
theorem test_rom_straddle :
    (sixBytes.read32 0x08000004#32 == 0xDEADBEEF#32 && sixBytes.read16 0x08000004#32 == 0x6655#16 &&
      sixBytes.read8 0x08000006#32 == 0x11#8 && sixBytes.read16 0x09FFFFFE#32 == 0x2211#16) = true := by decide
theorem test_bios_short :
    let s : State := { State.reset with cfg := { Config.default with
      bios := some [1#8, 2#8, 3#8, 4#8, 5#8, 6#8] } }
    (s.read32 0#32 == 0x04030201#32 && s.read32 4#32 == 0x00000605#32 && s.read32 8#32 == 0#32) = true := by decide

theorem test_advance_hblank :
    let s := State.reset.advance 960
    (s.cyclesToNextHBlank == 272 && s.read16 0x04000004#32 == 0x0006#16) = true := by decide
theorem test_advance_two_lines :
    let s := State.reset.advance 3000
    (s.currentScanline == 2 && s.cyclesToNextHBlank == 696 && s.read16 0x04000004#32 == 0#16 &&
      s.read16 0x04000006#32 == 2#16) = true := by decide
theorem test_match_value :
    onNext (write16 0x04000004#32 0x05FF#16 State.reset)
      (fun t => t.read16 0x04000004#32 == 0x05F8#16 && (t.advance 6160).read16 0x04000004#32 == 0x05FC#16) = true := by
  decide
theorem test_vcount_write :
    onNext (write16 0x04000006#32 0x1234#16 State.reset) (fun t => t.read16 0x04000006#32 == 0#16) = true := by decide

/-- Part 2.10, 4 bits per pixel: the palette entries, tile 1 and its map entries. -/
def tiles : State :=
  let s := withBytes (withBytes State.reset 0x06000020 [0x21#8])
    0x06000800 [0x01#8, 0x10#8, 0x01#8, 0x14#8, 0x01#8, 0x18#8]
  { s with
    mDispcnt := 0x0100#16, mBgcnt := s.mBgcnt.set 0 0x0100#16
    paletteCache := ((s.paletteCache.set 0 (expand 0x7C00#16)).set 17 (expand 0x001F#16)).set 18
      (expand 0x03E0#16) }
theorem test_mode0_line0 :
    [0, 1, 2, 14, 15, 16].map (fun x => (tiles.renderScanLine 0).pixel 0 x) =
      [⟨0xFF, 0, 0, 0xFF⟩, ⟨0, 0xFF, 0, 0xFF⟩, ⟨0, 0, 0xFF, 0xFF⟩, ⟨0, 0xFF, 0, 0xFF⟩, ⟨0xFF, 0, 0, 0xFF⟩,
        ⟨0, 0, 0xFF, 0xFF⟩] := by decide
theorem test_mode0_vflip :
    [15, 16, 17, 18].map (fun x => (tiles.renderScanLine 7).pixel 7 x) =
      [⟨0, 0, 0xFF, 0xFF⟩, ⟨0xFF, 0, 0, 0xFF⟩, ⟨0, 0xFF, 0, 0xFF⟩, ⟨0, 0, 0xFF, 0xFF⟩] := by decide
theorem test_mode3_pixel :
    let s := { withBytes State.reset 0x060001E2 [0x00#8, 0x7C#8] with mDispcnt := 3#16 }
    (s.renderScanLine 1).pixel 1 1 = ⟨0, 0, 0xFF, 0xFF⟩ := by decide
theorem test_flush_renders_old_mode :
    let s := { State.reset with
      currentScanline := 10, paletteCache := State.reset.paletteCache.set 0 ⟨0, 0xFF, 0⟩ }
    onNext (write16 0x04000000#32 0x0003#16 s)
      (fun t => t.pixel 10 0 == ⟨0, 0xFF, 0, 0xFF⟩ && t.pixel 11 0 == ⟨0, 0, 0, 0xFF⟩ &&
        t.pixel 0 0 == ⟨0, 0, 0, 0xFF⟩ && t.lastRenderedLine == 10 && t.mDispcnt == 3#16) = true := by decide

/-- Vector DMA-1 before its last write. -/
def dma1 : State :=
  withBytes (withBytes State.reset 0x03000000 [1#8, 2#8, 3#8, 4#8, 5#8, 6#8, 7#8, 8#8])
    0x040000D4 [0#8, 0#8, 0#8, 3#8, 2#8, 0#8, 0#8, 3#8, 3#8, 0#8]
theorem test_dma1_smears :
    onNext (write16 0x040000DE#32 0x8000#16 dma1)
      (fun t => bytesAt t 0x03000000 8 == [1#8, 2#8, 1#8, 2#8, 1#8, 2#8, 1#8, 2#8] &&
        t.read16 0x040000DE#32 == 0#16 && t.read32 0x040000D4#32 == 0x03000000#32 &&
        t.read32 0x040000D8#32 == 0x03000002#32 && t.read16 0x040000DC#32 == 3#16) = true := by decide
/-- Vector DMA-4 before its last write. -/
def dma4 : State :=
  withBytes (withBytes State.reset 0x02000000 [0#8, 0x80#8])
    0x040000D4 [0#8, 0#8, 0#8, 2#8, 0xDE#8, 0#8, 0#8, 4#8, 1#8, 0#8]
theorem test_dma4_refused :
    onRefused (write16 0x040000DE#32 0x8000#16 dma4) (.nestedDmaTransfer 3) = true := by decide
theorem test_dma5_no_trigger :
    onNext (write16 0x040000DE#32 0x7FFF#16 dma1)
      (fun t => t.read16 0x040000DE#32 == 0x7FFF#16 && bytesAt t 0x03000000 4 == [1#8, 2#8, 3#8, 4#8]) = true := by
  decide

/-! ## Reset and the host: part 2.12 -/

theorem test_reset_values :
    (State.reset.reg 15 == 0x08000008#32 && State.reset.cpsr == 0xD3#32 && State.reset.mem == [] &&
      State.reset.read16 0x04000004#32 == 4#16 && State.reset.read16 0x04000130#32 == 0x03FF#16) = true := by decide
theorem test_reset_with_bios :
    ((State.construct (Config.defaultWith (some [0#8]))).reg 15 == 8#32) = true := by decide
/-- With nothing loaded the first fetch is the sentinel, whose condition has no meaning (R293). -/
theorem test_first_step_refused : onRefused (step State.reset) (.unassignedCondition .le) = true := by decide
theorem test_loadRom_empty : (State.reset.loadRom []).toOption = none := by decide
theorem test_loadRom_one_byte :
    ((State.reset.loadRom [0xFE#8]).toOption.map fun t =>
      (t.read8 0x08000001#32, t.read16 0x08000000#32, t.read32 0x08000000#32)) =
      some (0xFE#8, 0xFFFF#16, 0xDEADBEEF#32) := by decide
theorem test_config_default_wf : Config.default.wf = true := by decide
theorem test_memory_canonical :
    ((State.reset.setByte 0x02000001 7#8).setByte 0x02000000 9#8).mem = [(0x02000000, 9#8), (0x02000001, 7#8)] ∧
      ((State.reset.setByte 0x02000001 7#8).setByte 0x02000001 0#8).mem = [] := by decide

/-! ## Witnesses: for each obligation with hypotheses, a state and operands that meet them together -/

/-- A result that a check accepts carries a state. -/
theorem next_of_onNext {r : Result} {p : State → Bool} (h : onNext r p = true) : ∃ t, r = .next t := by
  cases r with
  | next t => exact ⟨t, rfl⟩
  | fault f => cases h
  | refused e => cases h

theorem witness_DecodeOfEncode : (Instr.stm .eq true true true true 13 0x8001#16).wf = true := by decide

theorem witness_StepRunsTheDecodedInstruction :
    (Instr.movImm .al true 0 0 0#4 0#8).wf = true ∧
    decode (wordBytes ((start [] 0xE3B00000).read32 ((start [] 0xE3B00000).reg 15 - 8#32))) =
      .ok (.movImm .al true 0 0 0#4 0#8, []) ∧
    (∃ t, exec (.movImm .al true 0 0 0#4 0#8) (start [] 0xE3B00000) = .next t) :=
  ⟨by decide, by decide, next_of_onNext (p := fun _ => true) (by decide)⟩

theorem witness_StepLeavesTheStatusTrue : ∃ t, step (start [] 0xE3B00000) = .next t :=
  next_of_onNext (p := fun _ => true) (by decide)

theorem witness_SelfBranchStays :
    ((start [] 0xEAFFFFFE).reg 15).extractLsb' 0 2 = 0#2 ∧
    (start [] 0xEAFFFFFE).read32 ((start [] 0xEAFFFFFE).reg 15 - 8#32) = 0xEAFFFFFE#32 := by decide

theorem witness_UnassignedConditionIsRefused : CondUnassigned (Instr.b .nv 0#24).cond := by
  simp [CondUnassigned, Instr.cond]

theorem witness_FailedConditionOnlyAdvances : CondFails (Instr.b .eq 0#24).cond State.reset.cpsr := by
  change State.reset.cpsr.getLsbD 30 = false; decide

/-- A condition that reads a flag and holds: the hypothesis of the result statements. -/
theorem witness_CondHolds :
    CondHolds .al State.reset.cpsr ∧ CondHolds .ne State.reset.cpsr ∧ CondHolds .pl State.reset.cpsr ∧
    CondHolds .eq 0x400000D3#32 ∧ CondHolds .mi 0x800000D3#32 := by
  refine ⟨trivial, ?_, ?_, ?_, ?_⟩ <;> (simp only [CondHolds]; decide)

theorem witness_AndResult : CondHolds .ne State.reset.cpsr := witness_CondHolds.2.1
theorem witness_SubResult : CondHolds .ne State.reset.cpsr := witness_CondHolds.2.1
theorem witness_AddResult : CondHolds .ne State.reset.cpsr := witness_CondHolds.2.1
theorem witness_OrrResult : CondHolds .ne State.reset.cpsr := witness_CondHolds.2.1
theorem witness_MovResult : CondHolds .ne State.reset.cpsr := witness_CondHolds.2.1
theorem witness_CmpSetsFlags : CondHolds .ne State.reset.cpsr := witness_CondHolds.2.1
theorem witness_TstSetsFlags : CondHolds .ne State.reset.cpsr := witness_CondHolds.2.1
theorem witness_BranchGoesToTheTarget : CondHolds .ne State.reset.cpsr := witness_CondHolds.2.1
theorem witness_BranchWithLinkReturns : CondHolds .ne State.reset.cpsr := witness_CondHolds.2.1
theorem witness_LdrLoadsTheWord : CondHolds .ne State.reset.cpsr := witness_CondHolds.2.1
theorem witness_LdrbLoadsTheByte : CondHolds .ne State.reset.cpsr := witness_CondHolds.2.1
theorem witness_LdrhLoadsTheHalfword : CondHolds .ne State.reset.cpsr := witness_CondHolds.2.1

/-- The last byte of VRAM's page, the last of the IO block, and the last of the BIOS window. -/
theorem witness_ReadsAreLittleEndian :
    cellOf 0x06FFFFFF#32 ≠ none ∧ cellOf 0x040003FF#32 ≠ none ∧ (0x00003FFF#32 : Word).toNat < 0x4000 := by decide

/-- Both ends of the ROM window, with an image and without. -/
theorem witness_RomReads :
    (0x08000000#32 : Word).toNat / 0x1000000 = 8 ∧ (0x09FFFFFF#32 : Word).toNat / 0x1000000 = 9 ∧
    State.reset.rom = none ∧ sixBytes.rom = some [0x11#8, 0x22#8, 0x33#8, 0x44#8, 0x55#8, 0x66#8] ∧
    [0x11#8, 0x22#8, 0x33#8, 0x44#8, 0x55#8, 0x66#8] ≠ ([] : List Byte) := by decide

/-- Both sides of each boundary of the two clauses. -/
theorem witness_ReadsWithoutStorage :
    (0x00003FFF#32 : Word).toNat < 0x4000 ∧ 0x4000 ≤ (0x00004000#32 : Word).toNat ∧
    (0x01FFFFFF#32 : Word).toNat < 0x02000000 ∧ 0x04000400 ≤ (0x04000400#32 : Word).toNat ∧
    (0x04FFFFFF#32 : Word).toNat < 0x05000000 ∧ 0x0A000000 ≤ (0x0A000000#32 : Word).toNat := by decide

/-- The last word of EWRAM, through a mirror. -/
theorem witness_StrStoresTheWord :
    let s := start [(0, 0x02FFFFFE#32)] 0
    CondHolds .al s.cpsr ∧ cellOf (align4 (s.lsAddr true 0 0#12)) = some 0x0203FFFC ∧ ¬ IsIoCell 0x0203FFFC :=
  ⟨trivial, by decide, by simp [IsIoCell]⟩

/-- A word store into the IO block completes: it programs DMA3's count and then its control register. -/
theorem witness_StrStoresTheWord_io :
    let s := start [(0, 0x040000DC#32), (1, 0x80000001#32)] 0
    CondHolds .al s.cpsr ∧ cellOf (align4 (s.lsAddr true 0 0#12)) = some 0x040000DC ∧
    ∃ t, exec (.str .al true 0 1 0#12) s = .next t :=
  ⟨trivial, by decide, next_of_onNext (p := fun _ => true) (by decide)⟩

theorem witness_StrbStoresTheByte :
    let s := start [(0, 0x05000400#32)] 0
    CondHolds .al s.cpsr ∧ cellOf (s.lsAddr false 0 1#12) = some 0x050003FF ∧ ¬ IsIoCell 0x050003FF :=
  ⟨trivial, by decide, by simp [IsIoCell]⟩

theorem witness_StrhStoresTheHalfword :
    let s := start [(0, 0x06018001#32)] 0
    CondHolds .al s.cpsr ∧ cellOf (align2 (s.lshAddr true 0 0#4 0#4)) = some 0x06000000 ∧
    ¬ IsIoCell 0x06000000 := ⟨trivial, by decide, by simp [IsIoCell]⟩

/-- ROM for the word, an unmapped address for the byte, BIOS for the halfword. -/
theorem witness_StoresWithoutStorageAreIgnored :
    CondHolds .al State.reset.cpsr ∧
    cellOf (align4 ((start [(0, 0x08000000#32)] 0).lsAddr true 0 0#12)) = none ∧
    cellOf ((start [(0, 0x04000400#32)] 0).lsAddr true 0 0#12) = none ∧
    cellOf (align2 ((start [(0, 0x00003FFF#32)] 0).lshAddr true 0 0#4 0#4)) = none :=
  ⟨trivial, by decide, by decide, by decide⟩

/-- The halfword after DISPCNT, the first register after BG3CNT, the last of the block, and a DMA control register
without the enable bit. -/
theorem witness_StrhToOtherIoIsAStore :
    CondHolds .al State.reset.cpsr ∧
    cellOf (align2 ((start [(0, 0x04000003#32)] 0).lshAddr true 0 0#4 0#4)) = some (0x04000000 + 0x002) ∧
    cellOf (align2 ((start [(0, 0x04000011#32)] 0).lshAddr true 0 0#4 0#4)) = some (0x04000000 + 0x010) ∧
    cellOf (align2 ((start [(0, 0x040003FF#32)] 0).lshAddr true 0 0#4 0#4)) = some (0x04000000 + 0x3FE) ∧
    cellOf (align2 ((start [(0, 0x040000DE#32)] 0).lshAddr true 0 0#4 0#4)) = some (0x04000000 + 0x0DE) ∧
    ((start [(1, 0x7FFF#32)] 0).reg 1).getLsbD 15 = false :=
  ⟨trivial, by decide, by decide, by decide, by decide, by decide⟩

/-- DISPCNT and BG3CNT, the first and the last of the five. -/
theorem witness_DisplayRegisterWritesFlushFirst :
    CondHolds .al State.reset.cpsr ∧
    cellOf (align2 ((start [(0, 0x04000000#32)] 0).lshAddr true 0 0#4 0#4)) = some (0x04000000 + 0x000) ∧
    cellOf (align2 ((start [(0, 0x0400000E#32)] 0).lshAddr true 0 0#4 0#4)) = some (0x04000000 + 0x00E) :=
  ⟨trivial, by decide, by decide⟩

theorem witness_StatusRegisterWrites :
    CondHolds .al State.reset.cpsr ∧
    cellOf (align2 ((start [(0, 0x04000004#32)] 0).lshAddr true 0 0#4 0#4)) = some (0x04000000 + 0x004) ∧
    cellOf (align2 ((start [(0, 0x04000006#32)] 0).lshAddr true 0 0#4 0#4)) = some (0x04000000 + 0x006) :=
  ⟨trivial, by decide, by decide⟩

theorem witness_ByteWritesToIoMerge :
    0x3FF < 0x400 ∧ (0x040003FF#32 : Word) = 0x04000000#32 + BitVec.ofNat 32 0x3FF := by decide

theorem witness_WriteThenReadGivesTheValue :
    cellOf 0x07FFFFFF#32 = some 0x070003FF ∧ ¬ IsIoCell 0x070003FF := ⟨by decide, by simp [IsIoCell]⟩

/-- A DMA3 transfer of two words from IWRAM to EWRAM, and of halfwords with a count of 0. -/
def dmaReady (count : Byte) (control : Word) : State :=
  withRegs (withBytes State.reset 0x040000D4 [0#8, 0#8, 0#8, 3#8, 0#8, 0#8, 0#8, 2#8, count, 0#8])
    [(0, 0x040000DE#32), (1, control)]

theorem witness_DmaTransferCopies :
    let s := dmaReady 2#8 0x8400#32
    CondHolds .al s.cpsr ∧
    align2 (s.lshAddr true 0 0#4 0#4) = BitVec.ofNat 32 (0x040000BA + 12 * (3 : Fin 4).val) ∧
    (s.reg 1).getLsbD 15 = true ∧ (s.reg 1).getLsbD 10 = true ∧
    s.read32 0x040000D4#32 = 0x03000000#32 ∧ s.read32 0x040000D8#32 = 0x02000000#32 ∧
    s.read16 0x040000DC#32 = 2#16 ∧
    RamRange (unitAddr true 0x02000000#32 0) 8 ∧
    ApartFrom (unitAddr true 0x03000000#32 0) 8
      (fun k => CellRange 0x02000000 8 k ∨ CellRange (0x040000D4 + 10) 2 k) := by
  refine ⟨trivial, by decide, by decide, by decide, by decide, by decide, by decide,
    ⟨.ewram, Or.inl rfl, by decide, by decide⟩, ?_⟩
  have h : ∀ i < 8, cellOf (unitAddr true 0x03000000#32 0 + BitVec.ofNat 32 i) = some (0x03000000 + i) := by decide
  intro i k hi hk
  rw [h i hi] at hk
  cases hk
  simp only [CellRange]
  omega

/-- The boundary of the count: 0 stands for 16384 units, which fit into EWRAM. -/
theorem witness_DmaTransferCopies_count0 :
    (dmaReady 0#8 0x8000#32).read16 0x040000DC#32 = 0#16 ∧
    RamRange (unitAddr false 0x02000000#32 0) (16384 * unitBytes false) :=
  ⟨by decide, .ewram, Or.inl rfl, by decide, by decide⟩

theorem witness_NestedTransferIsRefused :
    let s := withRegs dma4 [(0, 0x040000DE#32), (1, 0x8000#32)]
    CondHolds .al s.cpsr ∧
    align2 (s.lshAddr true 0 0#4 0#4) = BitVec.ofNat 32 (0x040000BA + 12 * (3 : Fin 4).val) ∧
    (s.reg 1).getLsbD 15 = true ∧ (s.reg 1).getLsbD 10 = false ∧ s.read16 0x040000DC#32 = 1#16 ∧
    s.read32 0x040000D8#32 = BitVec.ofNat 32 (0x040000BA + 12 * (3 : Fin 4).val) ∧
    (s.read16 (s.read32 0x040000D4#32)).getLsbD 15 = true ∧
    (∀ k, cellOf (align2 (s.read32 0x040000D4#32)) = some k → ¬ IsIoCell k) := by
  refine ⟨trivial, by decide, by decide, by decide, by decide, by decide, by decide, ?_⟩
  intro k hk
  have h : cellOf (align2 ((withRegs dma4 [(0, 0x040000DE#32), (1, 0x8000#32)]).read32 0x040000D4#32)) =
      some 0x02000000 := by decide
  rw [h] at hk
  cases hk
  simp [IsIoCell]

/-- A result that a check finds refused is. -/
theorem refused_of_onRefused {r : Result} {e : Refusal} (h : onRefused r e = true) : r = .refused e := by
  cases r with
  | next t => cases h
  | fault f => cases h
  | refused d => rw [eq_of_beq h]

theorem witness_OnlyThreeRefusals :
    CondHolds (Instr.strh .al true 0 1 0#4 0#4).cond State.reset.cpsr ∧
    (Instr.strh .al true 0 1 0#4 0#4).StartsInside (withRegs dma4 [(0, 0x040000DE#32), (1, 0x8000#32)]) 3 :=
  ⟨trivial, (startsInside_iff _ _ _).2 (refused_of_onRefused (by decide))⟩

/-- Two registers below the top of IWRAM, and the empty list. -/
theorem witness_StmStoresTheListedRegisters :
    CondHolds .al State.reset.cpsr ∧ ¬ (true = true ∧ (13 : Reg) = 15) ∧ listedCount 0x0003#16 = 2 ∧
    RamRange (align4 (stmFirst 0x03008000#32 true false 2)) (4 * 2) ∧ listedCount 0x0000#16 = 0 :=
  ⟨trivial, by decide, by decide, ⟨.iwram, Or.inr (Or.inl rfl), by decide, by decide⟩, by decide⟩

theorem witness_StmIsWordStoresInOrder :
    CondHolds .al State.reset.cpsr ∧ ¬ (true = true ∧ (13 : Reg) = 15) ∧ (true = true ∧ (15 : Reg) = 15) :=
  ⟨trivial, by decide, by decide⟩

theorem witness_OtherServicesDoNothing :
    CondHolds .al State.reset.cpsr ∧ (0x0A0000#24).extractLsb' 16 8 ≠ State.reset.cfg.swiCpuset :=
  ⟨trivial, by decide⟩

/-- A copy of two words from IWRAM to EWRAM, and a count of 0. -/
theorem witness_SwiCopies :
    let s := withRegs State.reset [(0, 0x03000000#32), (1, 0x02000000#32), (2, 0x04000002#32)]
    CondHolds .al s.cpsr ∧ (0x0B0000#24).extractLsb' 16 8 = s.cfg.swiCpuset ∧ (s.reg 2).getLsbD 24 = false ∧
    (s.reg 2).getLsbD 26 = true ∧ ((s.reg 2).extractLsb' 0 21).toNat = 2 ∧
    RamRange (unitAddr true (s.reg 1) 0) 8 ∧
    ApartFrom (unitAddr true (s.reg 0) 0) 8 (CellRange 0x02000000 8) ∧
    (State.reset.reg 2).extractLsb' 0 21 = 0#21 := by
  refine ⟨trivial, by decide, by decide, by decide, by decide, ⟨.ewram, Or.inl rfl, by decide, by decide⟩, ?_,
    by decide⟩
  have h : ∀ i < 8, cellOf (0x03000000#32 + BitVec.ofNat 32 i) = some (0x03000000 + i) := by decide
  intro i k hi hk
  have e : unitAddr true ((withRegs State.reset
      [(0, 0x03000000#32), (1, 0x02000000#32), (2, 0x04000002#32)]).reg 0) 0 = 0x03000000#32 := by decide
  rw [e, h i hi] at hk
  cases hk
  simp only [CellRange]
  omega

theorem witness_SwiFills :
    let s := withRegs State.reset [(0, 0x08000000#32), (1, 0x05000400#32 - 6#32), (2, 0x01000003#32)]
    CondHolds .al s.cpsr ∧ (0x0B0000#24).extractLsb' 16 8 = s.cfg.swiCpuset ∧ (s.reg 2).getLsbD 24 = true ∧
    (s.reg 2).getLsbD 26 = false ∧ ((s.reg 2).extractLsb' 0 21).toNat = 3 ∧
    RamRange (unitAddr false (s.reg 1) 0) 6 :=
  ⟨trivial, by decide, by decide, by decide, by decide,
    ⟨.pal, Or.inr (Or.inr (Or.inl rfl)), by decide, by decide⟩⟩

theorem witness_UnimplementedWordsDoNothing :
    CondHolds .al State.reset.cpsr ∧ CondFails .eq State.reset.cpsr :=
  ⟨trivial, by change State.reset.cpsr.getLsbD 30 = false; decide⟩

/-- A store that completes, into the last byte of VRAM. -/
theorem witness_exec_next : ∃ t, exec (.strb .al true 0 1 0#12)
    (withRegs State.reset [(0, 0x06017FFF#32), (1, 7#32)]) = .next t :=
  next_of_onNext (p := fun _ => true) (by decide)

theorem witness_OnlyDestinationsAreWritten : (2 : Reg) ≠ 15 ∧ (2 : Reg) ∉
    (Instr.strb .al true 0 1 0#12).destinations ∧ ∃ t, exec (.strb .al true 0 1 0#12)
    (withRegs State.reset [(0, 0x06017FFF#32), (1, 7#32)]) = .next t :=
  ⟨by decide, by decide, witness_exec_next⟩

theorem witness_OnlyFlagSettersWriteTheStatus_sets : (Instr.movReg .al true 0 0 1).setsFlags = true ∧
    CondHolds (Instr.movReg .al true 0 0 1).cond State.reset.cpsr ∧
    ∃ t, exec (.movReg .al true 0 0 1) State.reset = .next t :=
  ⟨by decide, trivial, next_of_onNext (p := fun _ => true) (by decide)⟩

theorem witness_OnlyFlagSettersWriteTheStatus : (Instr.strb .al true 0 1 0#12).setsFlags = false ∧
    ∃ t, exec (.strb .al true 0 1 0#12) (withRegs State.reset [(0, 0x06017FFF#32), (1, 7#32)]) = .next t :=
  ⟨by decide, witness_exec_next⟩

theorem witness_OnlyBusWritesReachOutside : (Instr.movReg .al true 0 0 1).writesBus = false ∧
    ∃ t, exec (.movReg .al true 0 0 1) State.reset = .next t :=
  ⟨by decide, next_of_onNext (p := fun _ => true) (by decide)⟩

/-- The machine after reset with a ROM of one word. -/
def loaded (w : Word) : State := { State.reset with rom := some (wordBytes w) }

theorem loaded_inv (w : Word) : (loaded w).Inv where
  cfgWf := test_config_default_wf
  memWf := rfl
  romLoaded := by simp [loaded, wordBytes]
  pcAligned := by
    have h : (loaded w).reg 15 = State.reset.reg 15 := rfl
    rw [h]; decide
  cpsrFixed := rfl
  paletteSynced := by
    intro i
    have hm : (loaded w).mem = [] := (by decide : State.reset.mem = [])
    have h0 : ∀ k, 0x05000000 ≤ k → Memory.unlisted k = 0#8 := by
      intro k hk
      simp only [Memory.unlisted]
      split_ifs <;> first | omega | rfl
    have hp : (loaded w).pal16 i.val = 0#16 := by
      rw [State.pal16, hm, Memory.read_nil, Memory.read_nil, h0 _ (by omega), h0 _ (by omega)]; decide
    have hc : (loaded w).paletteCache[i.val] = ⟨0, 0, 0⟩ := by simp [loaded, State.reset, State.construct]
    rw [hp, hc]; decide
  budgetInRange := by
    have h : 1 ≤ State.reset.cyclesToNextHBlank ∧
        State.reset.cyclesToNextHBlank ≤ State.reset.cfg.hCycles := by decide
    exact h
  vcountSynced := by
    have h : State.reset.io16 0x006 = State.reset.vcount ∧ State.reset.mVcount = State.reset.vcount := by decide
    exact h
  statusSynced := by
    have h : (State.reset.io16 0x004).extractLsb' 0 3 = State.reset.statusBits ∧
        State.reset.mDispstat = State.reset.io16 0x004 := by decide
    exact h
  mirrorsSynced := by
    have h : State.reset.mDispcnt = State.reset.io16 0x000 ∧
        ∀ n : Fin 4, State.reset.mBgcnt[n.val] = State.reset.io16 (0x008 + 2 * n.val) := by decide
    exact h
  dmaIdle := by
    have h : ∀ n : Fin 4, (State.reset.io16 (dmaControl n)).getLsbD 15 = false := by decide
    exact h
  pixelsOpaque := by
    intro line x
    have h : (loaded w).pixel line x = ⟨0, 0, 0, 0xFF⟩ := by
      simp [loaded, State.reset, State.construct, State.pixel]
    rw [h]; rfl

theorem witness_StepKeepsTheInvariant :
    (loaded 0xEAFFFFFE#32).Inv ∧ ∃ t, step (loaded 0xEAFFFFFE#32) = .next t :=
  ⟨loaded_inv _, next_of_onNext (p := fun _ => true) (by decide)⟩

theorem witness_AdvanceMovesTime :
    1 ≤ State.reset.cfg.hCycles ∧ 1 ≤ State.reset.cyclesToNextHBlank ∧
    State.reset.cyclesToNextHBlank ≤ State.reset.cfg.hCycles := by decide

/-- Both cases of the rendering clause: from line 159 one scanline enters line 160, from line 160 it does not. -/
theorem witness_AdvanceMovesTime_frame :
    (∃ j, 1 ≤ j ∧ j ≤ 1 ∧ (159 + j) % 228 = 160) ∧ ¬ ∃ j, 1 ≤ j ∧ j ≤ 1 ∧ (160 + j) % 228 = 160 :=
  ⟨⟨1, by decide, by decide, by decide⟩, fun ⟨j, h1, h2, h3⟩ => by omega⟩

/-- Entering line 160 flushes (47_ppu.md R209). -/
theorem test_advance_flushes :
    (({ State.reset with currentScanline := 159 } : State).advance 1232).lastRenderedLine = 160 := by decide

theorem witness_ScanlinesCycle :
    1 ≤ State.reset.cfg.hCycles ∧ 1 ≤ State.reset.cyclesToNextHBlank ∧
    State.reset.cyclesToNextHBlank ≤ State.reset.cfg.hCycles ∧ 1 ≤ 228 := by decide

theorem witness_Mode3ShowsTheBitmap :
    let s : State := { State.reset with mDispcnt := 0x0003#16 }
    s.mDispcnt.getLsbD 7 = false ∧ s.mDispcnt.extractLsb' 0 3 = 3#3 := by decide

theorem witness_BlankLinesShowTheBackdrop :
    (0x0083#16).getLsbD 7 = true ∧ (0x0004#16).extractLsb' 0 3 ≠ 0#3 ∧ (0x0004#16).extractLsb' 0 3 ≠ 3#3 := by decide

theorem witness_Mode0ShowsTheTopLayer :
    tiles.mDispcnt.getLsbD 7 = false ∧ tiles.mDispcnt.extractLsb' 0 3 = 0#3 ∧
    tiles.mDispcnt.getLsbD 8 = true ∧ tiles.layerColour 0 0 0 = some ⟨0xFF, 0, 0⟩ ∧
    tiles.layerColour 0 0 2 = none := by decide

theorem witness_LoadRomResetsTheCpu : [0xFE#8] ≠ ([] : List Byte) := by decide

/-! ### A whole tick, for OneTickIsOneFrame: a branch to itself, with scanlines of one cycle -/

/-- The machine whose frame is 228 cycles, at a branch to itself. -/
def looping : State :=
  { State.construct { Config.default with hCycles := 1, hblankCycles := 0, frameCycles := 228 } with
    rom := some (wordBytes 0xEAFFFFFE#32) }

/-- What the loop keeps: where it is, and what it fetches. -/
def AtLoop (s : State) : Prop :=
  s.reg 15 = 0x08000008#32 ∧ s.rom = some (wordBytes 0xEAFFFFFE#32)

theorem step_atLoop {s : State} (h : AtLoop s) : ∃ t, step s = .next t ∧ AtLoop t := by
  have hw : s.fetch = 0xEAFFFFFE#32 := by
    have ha : s.instrAddr = 0x08000000#32 := by rw [State.instrAddr, h.1]; decide
    have hd : decodeAddr (align4 0x08000000#32) = some (.rom, 0) := by decide
    rw [State.fetch, ha, State.read32, hd]
    simp only [State.romCovers, h.2]
    decide
  have hi : decodeWord 0xEAFFFFFE#32 = .b .al 0xFFFFFE#24 := by decide
  refine ⟨(s.nextInstr (s.branchTarget 0xFFFFFE#24)).advance (cyclesOf s.cfg s.fetch), ?_, ?_, ?_⟩
  · rw [step, hw, hi]; rfl
  · have e := (advance_sameOutsideTime (s.nextInstr (s.branchTarget 0xFFFFFE#24)) (cyclesOf s.cfg s.fetch)).regs
    rw [State.reg_congr e, State.reg15_nextInstr, State.branchTarget, State.instrAddr, h.1]
    decide
  · rw [(advance_sameOutsideTime (s.nextInstr (s.branchTarget 0xFFFFFE#24)) (cyclesOf s.cfg s.fetch)).rom]
    exact h.2

theorem tickFrom_atLoop (n spent : Nat) {s : State} (h : AtLoop s) : ∃ t, tickFrom n spent s = .next t := by
  induction n generalizing spent s with
  | zero => exact ⟨s, rfl⟩
  | succ n ih =>
    unfold tickFrom
    split
    · obtain ⟨t, ht, hl⟩ := step_atLoop h
      rw [ht]
      exact ih _ hl
    · exact ⟨s, rfl⟩

theorem witness_OneTickIsOneFrame :
    looping.cfg.cyclesListed = [] ∧ looping.cfg.cyclesElse = 1 ∧ 1 ≤ looping.cfg.hCycles ∧
    looping.cfg.frameCycles = 228 * looping.cfg.hCycles ∧ 1 ≤ looping.cyclesToNextHBlank ∧
    looping.cyclesToNextHBlank ≤ looping.cfg.hCycles ∧ ∃ t, tick looping = .next t :=
  ⟨rfl, rfl, by decide, by decide, by decide, by decide, tickFrom_atLoop _ _ ⟨by decide, rfl⟩⟩

end Sys2Proof.Tests
end

/-! # Proofs: the state and its invariant (10_state.md) -/

namespace Sys2Proof.Machine

/-! ## What an instruction does to the CPU

One statement for all instructions: where the condition fails the machine only advances, and where it holds
the program counter, the registers and the flags change as `CpuEffect` says. -/

/-- `R15` moves as an instruction may move it: by the default advance or by a redirection (R14, R15). -/
def PcMoves (old new : Word) : Prop := new = old + 4#32 ∨ ∃ a : Word, new = (a &&& 0xFFFFFFFC#32) + 8#32

/-- A result write moves `R15` either way. -/
theorem State.pcMoves_writeRd (s : State) (rd : Reg) (v : Word) :
    PcMoves (s.reg 15) ((s.writeRd rd v).reg 15) := by
  rw [State.reg_writeRd, if_pos rfl]
  split
  · exact .inr ⟨v, rfl⟩
  · exact .inl rfl

/-- A result write leaves the registers alone that are neither `Rd` nor `R15`. -/
theorem State.reg_writeRd_other (s : State) {rd r : Reg} (v : Word) (h15 : r ≠ 15) (hr : r ≠ rd) :
    (s.writeRd rd v).reg r = s.reg r := by
  rw [State.reg_writeRd, if_neg h15, if_neg hr]

/-- What an executed instruction may do to the registers and the flags (R12, R14, R15, R18). -/
structure CpuEffect (i : Instr) (s t : State) : Prop where
  pc : PcMoves (s.reg 15) (t.reg 15)
  others : ∀ r : Reg, r ≠ 15 → r ∉ i.destinations → t.reg r = s.reg r
  flagsSet : i.setsFlags = true → ∃ v, i.result s = some v ∧ t.cpsr = nzCpsr s.cpsr v
  flagsKept : i.setsFlags = false → t.cpsr = s.cpsr

namespace CpuEffect

variable {i : Instr} {s u : State}

/-- A data-processing result goes to `Rd`, and the flags follow it where the S-bit asks for them (R132). -/
theorem of_dpWrite {b : Bool} {rd : Reg} {v : Word} (hd : i.destinations = [rd]) (hb : i.setsFlags = b)
    (hv : i.result s = some v) : CpuEffect i s (s.dpWrite b rd v) where
  pc := by
    rw [← State.reg_setNZIf s b v 15]
    exact State.pcMoves_writeRd _ rd v
  others r h15 hr := by
    rw [State.dpWrite, State.reg_writeRd_other _ _ h15 (by simpa [hd] using hr), State.reg_setNZIf]
  flagsSet h := ⟨v, hv, by simp [State.dpWrite, State.setNZIf_cpsr, ← hb, h]⟩
  flagsKept h := by simp [State.dpWrite, State.setNZIf_cpsr, ← hb, h]

/-- A comparison sets the flags from its result and advances (R138, R139). -/
theorem of_compare {b : Bool} {v : Word} (hb : i.setsFlags = b) (hv : i.result s = some v) :
    CpuEffect i s (s.setNZIf b v).advancePc where
  pc := .inl (by simp)
  others r h15 _ := by rw [State.reg_advancePc _ h15, State.reg_setNZIf]
  flagsSet h := ⟨v, hv, by simp [State.setNZIf_cpsr, ← hb, h]⟩
  flagsKept h := by simp [State.setNZIf_cpsr, ← hb, h]

/-- A load writes `Rd` as a data-processing instruction without the S-bit does (R153). -/
theorem of_load {rd : Reg} {v : Word} (hd : i.destinations = [rd]) (hb : i.setsFlags = false) :
    CpuEffect i s (s.writeRd rd v) where
  pc := State.pcMoves_writeRd s rd v
  others r h15 hr := State.reg_writeRd_other s v h15 (by simpa [hd] using hr)
  flagsSet h := by simp [hb] at h
  flagsKept _ := State.writeRd_cpsr s rd v

/-- Bus writes leave the CPU alone, and the machine then advances (R62, R98). -/
theorem of_advance (hu : SameOutsideBus s u) (hb : i.setsFlags = false) : CpuEffect i s u.advancePc where
  pc := .inl (by rw [State.reg15_advancePc, State.reg_congr hu.regs])
  others r h15 _ := by rw [State.reg_advancePc _ h15, State.reg_congr hu.regs]
  flagsSet h := by simp [hb] at h
  flagsKept _ := hu.cpsr

/-- An STM writes its base back after the stores, never into R15 (R176, R177, R179). -/
theorem of_writeBack {w : Bool} {rn : Reg} {v : Word} (hu : SameOutsideBus s u)
    (hn : ¬ (w = true ∧ rn = 15)) (hd : i.destinations = if w then [rn] else []) (hb : i.setsFlags = false) :
    CpuEffect i s (u.writeBackIf w rn v).advancePc := by
  cases w with
  | false => exact of_advance hu hb
  | true =>
    have hne : (15 : Reg) ≠ rn := fun e => hn ⟨rfl, e.symm⟩
    refine ⟨.inl ?_, fun r h15 hr => ?_, fun h => ?_, fun _ => hu.cpsr⟩
    · rw [State.reg15_advancePc, State.writeBackIf, if_pos rfl, State.reg_setReg_other _ _ hne,
        State.reg_congr hu.regs]
    · have hrn : r ≠ rn := by simpa [hd] using hr
      rw [State.reg_advancePc _ h15, State.writeBackIf, if_pos rfl, State.reg_setReg_other _ _ hrn,
        State.reg_congr hu.regs]
    · simp [hb] at h

/-- A branch redirects, from a state in which at most its destinations have changed (R121, R122). -/
theorem of_nextInstr (a : Word) (hu : ∀ r, r ∉ i.destinations → u.reg r = s.reg r) (hc : u.cpsr = s.cpsr)
    (hb : i.setsFlags = false) : CpuEffect i s (u.nextInstr a) where
  pc := .inr ⟨a, State.reg15_nextInstr u a⟩
  others r h15 hr := by rw [State.reg_nextInstr _ _ h15, hu r hr]
  flagsSet h := by simp [hb] at h
  flagsKept _ := hc

end CpuEffect

section Conditions

variable {P : State → Prop} {c : Cond} {s t : State}

/-- A conditional instruction that completes has advanced only, or its body has completed. -/
theorem whenPassed_split {body : Result} (h : whenPassed c s body = .next t) (hb : body = .next t → P t) :
    (condPassed c s.cpsr = some false ∧ t = s.advancePc) ∨ (condPassed c s.cpsr = some true ∧ P t) :=
  (whenPassed_next h).imp_right fun ⟨hc, e⟩ => ⟨hc, hb e⟩

/-- The same where the body always completes. -/
theorem whenPassed_pure_split {u : State} (h : whenPassed c s (.next u) = .next t) (hu : P u) :
    (condPassed c s.cpsr = some false ∧ t = s.advancePc) ∨ (condPassed c s.cpsr = some true ∧ P t) :=
  whenPassed_split h fun e => by cases e; exact hu

/-- The same where the body makes Bus writes and advances. -/
theorem whenPassed_store_split {r : Result} (h : whenPassed c s (thenAdvance r) = .next t)
    (hr : ∀ u, r = .next u → P u.advancePc) :
    (condPassed c s.cpsr = some false ∧ t = s.advancePc) ∨ (condPassed c s.cpsr = some true ∧ P t) :=
  whenPassed_split h fun e => by
    obtain ⟨u, hu, ht⟩ := andThen_eq_next.1 e
    cases ht
    exact hr u hu

end Conditions

section Exec

variable {i : Instr} {s t : State}

/-- What a completed instruction has done to the CPU: the advance alone where its condition failed, its own
effect where it held. -/
theorem exec_cpu (h : exec i s = .next t) :
    (condPassed i.cond s.cpsr = some false ∧ t = s.advancePc) ∨
      (condPassed i.cond s.cpsr = some true ∧ CpuEffect i s t) := by
  have hk := keptByTransfers_sameOutsideBus s
  have h0 := SameOutsideBus.refl s
  cases i
  case b => exact whenPassed_pure_split h (.of_nextInstr _ (fun _ _ => rfl) rfl rfl)
  case bl =>
    refine whenPassed_pure_split h (.of_nextInstr _ (fun r hr => ?_) rfl rfl)
    exact State.reg_setReg_other _ _ (by simpa [Instr.destinations] using hr)
  case cmpImm | cmpReg => exact whenPassed_pure_split h (.of_compare (b := true) rfl rfl)
  case tstImm | tstReg => exact whenPassed_pure_split h (.of_compare rfl rfl)
  case ldr | ldrb | ldrh => exact whenPassed_pure_split h (.of_load rfl rfl)
  case str => exact whenPassed_store_split h fun _ hu => .of_advance (write32_keeps hk h0 hu) rfl
  case strb => exact whenPassed_store_split h fun _ hu => .of_advance (write8_keeps hk h0 hu) rfl
  case strh => exact whenPassed_store_split h fun _ hu => .of_advance (write16_keeps hk h0 hu) rfl
  case swi =>
    refine whenPassed_store_split h fun u hu => .of_advance ?_ rfl
    split at hu
    · exact blockCopyFill_keeps hk h0 hu
    · cases hu; exact h0
  case stm =>
    refine whenPassed_split h fun e => ?_
    split at e
    · cases e
    · next hn =>
      obtain ⟨u, hu, ht⟩ := andThen_eq_next.1 e
      cases ht
      exact .of_writeBack (storeRegs_keeps hk h0 hu) hn rfl rfl
  case nopUnimplemented => exact whenPassed_pure_split h (.of_advance h0 rfl)
  all_goals exact whenPassed_pure_split h (.of_dpWrite rfl rfl rfl)

/-- Every instruction moves the program counter (R14, R15). -/
theorem exec_pc (h : exec i s = .next t) : PcMoves (s.reg 15) (t.reg 15) := by
  rcases exec_cpu h with ⟨_, rfl⟩ | ⟨_, he⟩
  · exact .inl (State.reg15_advancePc s)
  · exact he.pc

/-- An instruction leaves the registers alone that are not its own (R12). -/
theorem exec_reg_other (h : exec i s = .next t) {r : Reg} (h15 : r ≠ 15) (hr : r ∉ i.destinations) :
    t.reg r = s.reg r := by
  rcases exec_cpu h with ⟨_, rfl⟩ | ⟨_, he⟩
  · exact State.reg_advancePc s h15
  · exact he.others r h15 hr

/-- An instruction that sets no flag leaves the status register alone (R18). -/
theorem exec_cpsr_kept (h : exec i s = .next t) (hf : i.setsFlags = false) : t.cpsr = s.cpsr := by
  rcases exec_cpu h with ⟨_, rfl⟩ | ⟨_, he⟩
  · rfl
  · exact he.flagsKept hf

/-- An instruction that sets flags sets them from its result, where its condition holds (R18). -/
theorem exec_cpsr_set (h : exec i s = .next t) (hf : i.setsFlags = true) (hc : CondHolds i.cond s.cpsr) :
    ∃ v, i.result s = some v ∧ t.cpsr = nzCpsr s.cpsr v := by
  have hp := condPassed_of_holds hc
  rcases exec_cpu h with ⟨hp', _⟩ | ⟨_, he⟩
  · simp [hp] at hp'
  · exact he.flagsSet hf

/-- No instruction changes bits 29:0 of the status register (R17, R18). -/
theorem exec_cpsr_low (h : exec i s = .next t) : t.cpsr.extractLsb' 0 30 = s.cpsr.extractLsb' 0 30 := by
  rcases exec_cpu h with ⟨_, rfl⟩ | ⟨_, he⟩
  · rfl
  · cases hf : i.setsFlags with
    | false => rw [he.flagsKept hf]
    | true =>
      obtain ⟨v, _, hv⟩ := he.flagsSet hf
      rw [hv, nzCpsr_low]

end Exec

/-- Settles O45: each instruction's effect on the registers is its own destinations and R15. -/
theorem onlyDestinationsAreWritten : Obligations.OnlyDestinationsAreWritten :=
  fun _ _ _ h _ h15 hr => exec_reg_other h h15 hr

/-! ## The flags -/

/-- `SetNZ` in the words of the claims: N and Z from the value, bits 29:0 kept (R18). -/
theorem flagsFrom_of_nzCpsr {s t : State} {v : Word} (h : t.cpsr = nzCpsr s.cpsr v) : FlagsFrom s t true v where
  n := by rw [h]; exact flagN_nzCpsr s.cpsr v
  z := by rw [h]; exact flagZ_nzCpsr s.cpsr v
  others := by rw [h, nzCpsr_low]

/-- Settles O46: the effect of an instruction on the flags, and the frame of the clock and of the key write. -/
theorem onlyFlagSettersWriteTheStatus : Obligations.OnlyFlagSettersWriteTheStatus := by
  refine ⟨fun s v => flagsFrom_of_nzCpsr (State.setNZ_cpsr s v), fun i s t h => ⟨exec_cpsr_low h, ?_, ?_⟩, ?_⟩
  · intro hf hc
    obtain ⟨v, hv, ht⟩ := exec_cpsr_set h hf hc
    exact ⟨v, hv, flagsFrom_of_nzCpsr ht⟩
  · exact exec_cpsr_kept h
  · exact fun s c keys => ⟨(advance_sameOutsideTime s c).cpsr, State.setIo16_cpsr s 0x130 keys⟩

/-! ## The status registers -/

/-- The address of an IO register decodes to its offset. -/
theorem decodeAddr_io {o : Nat} (he : o % 2 = 0) (ho : o < 0x400) :
    decodeAddr (align2 (BitVec.ofNat 32 (0x04000000 + o))) = some (.io, o) := by
  have hn : (align2 (BitVec.ofNat 32 (0x04000000 + o))).toNat = 0x04000000 + o := by
    rw [align2_toNat, BitVec.toNat_ofNat]; omega
  rw [decodeAddr_eq_some]
  dsimp only
  omega

/-- The Bus reads an IO register as the block holds it (R47). -/
theorem State.read16_io (s : State) {o : Nat} (he : o % 2 = 0) (ho : o < 0x400) :
    s.read16 (BitVec.ofNat 32 (0x04000000 + o)) = s.io16 o := by
  rw [State.read16_of_decode s (decodeAddr_io he ho) (by decide)]
  simp only [State.regionByte, State.io16, Region.base, Nat.add_assoc]

/-- Three flags joined into a field are its bits, the last one the lowest. -/
theorem getLsbD_threeFlags (a b c : Bool) :
    (BitVec.ofBool a ++ BitVec.ofBool b ++ BitVec.ofBool c).getLsbD 0 = c ∧
    (BitVec.ofBool a ++ BitVec.ofBool b ++ BitVec.ofBool c).getLsbD 1 = b ∧
    (BitVec.ofBool a ++ BitVec.ofBool b ++ BitVec.ofBool c).getLsbD 2 = a := by
  revert a b c; decide

/-- The three status bits, each with its place (R202). -/
theorem State.statusBits_getLsbD (s : State) :
    s.statusBits.getLsbD 0 = decide (160 ≤ s.currentScanline.val) ∧
    s.statusBits.getLsbD 1 = decide (s.cyclesToNextHBlank ≤ s.cfg.hblankCycles) ∧
    s.statusBits.getLsbD 2 = decide (s.currentScanline.val = ((s.io16 0x004).extractLsb' 8 8).toNat) :=
  getLsbD_threeFlags _ _ _

/-- A low bit of DISPSTAT is a status bit where the low three are the computed ones. -/
theorem getLsbD_of_low {v : Half} {b : BitVec 3} (h : v.extractLsb' 0 3 = b) {k : Nat} (hk : k < 3) :
    v.getLsbD k = b.getLsbD k := by
  simp [← h, hk]

/-- After the clock the status registers and their mirrors are the computed ones: it ends in a refresh (R206). -/
theorem advance_synced (s : State) (c : Nat) :
    ((s.advance c).io16 0x004).extractLsb' 0 3 = (s.advance c).statusBits ∧
      (s.advance c).mDispstat = (s.advance c).io16 0x004 ∧
      (s.advance c).io16 0x006 = (s.advance c).vcount ∧ (s.advance c).mVcount = (s.advance c).vcount := by
  rw [State.advance_eq]
  exact State.refreshStatus_synced _

/-- Settles O6: a step ends in the clock, which ends in a refresh of the status registers. -/
theorem stepLeavesTheStatusTrue : Obligations.StepLeavesTheStatusTrue := by
  intro s t h
  obtain ⟨u, _, rfl⟩ := step_eq_next.1 h
  obtain ⟨hlow, hstat, hcount, hmirror⟩ := advance_synced u (cyclesOf s.cfg s.fetch)
  generalize u.advance (cyclesOf s.cfg s.fetch) = t at *
  have h4 : t.read16 0x04000004#32 = t.io16 0x004 := t.read16_io (o := 0x004) (by decide) (by decide)
  have h6 : t.read16 0x04000006#32 = t.io16 0x006 := t.read16_io (o := 0x006) (by decide) (by decide)
  obtain ⟨vblank, hblank, vmatch⟩ := t.statusBits_getLsbD
  rw [h4, h6]
  exact ⟨hcount, (getLsbD_of_low hlow (by decide)).trans vblank, (getLsbD_of_low hlow (by decide)).trans hblank,
    (getLsbD_of_low hlow (by decide)).trans vmatch, hmirror.trans hcount.symm, hstat⟩

/-! ## The invariant -/

/-- A property that looks only at what no Bus write touches is kept by every Bus write of an instruction. -/
theorem keptByTransfers_of_sameOutsideBus {P : State → Prop}
    (hP : ∀ s t : State, SameOutsideBus s t → P s → P t) : KeptByTransfers P (fun _ => P) := by
  have hs : KeptByStores P :=
    { plain := fun s r o v hr ho => hP _ _ ((keptByStores_sameOutsideBus s).plain s r o v hr ho (.refl s))
      pal8 := fun s o v ho => hP _ _ ((keptByStores_sameOutsideBus s).pal8 s o v ho (.refl s))
      pal16 := fun s o v he ho => hP _ _ ((keptByStores_sameOutsideBus s).pal16 s o v he ho (.refl s))
      io := fun s o v _ _ _ => hP _ _ (ioStore_sameOutsideBus s o v) }
  exact
    { stores := hs
      inside := fun _ => hs
      enter := fun s _ o v _ _ _ => hP _ _ (ioStore_sameOutsideBus s o v)
      leave := fun n s => hP _ _ ((keptByTransfers_sameOutsideBus s).leave n s (.refl s)) }

/-- What no instruction changes: the parameters, the ROM image and the Ppu's time. -/
structure SameSetup (s t : State) : Prop where
  cfg : t.cfg = s.cfg
  rom : t.rom = s.rom
  currentScanline : t.currentScanline = s.currentScanline
  cyclesToNextHBlank : t.cyclesToNextHBlank = s.cyclesToNextHBlank

/-- No instruction changes the parameters, the ROM image or the Ppu's time (R64, R249). -/
theorem exec_sameSetup {i : Instr} {s t : State} (h : exec i s = .next t) : SameSetup s t := by
  have hb : BlindToCpu (SameSetup s) := fun u v huv hu =>
    ⟨huv.cfg.trans hu.cfg, huv.rom.trans hu.rom, huv.currentScanline.trans hu.currentScanline,
      huv.cyclesToNextHBlank.trans hu.cyclesToNextHBlank⟩
  have hk : KeptByTransfers (SameSetup s) fun _ => SameSetup s :=
    keptByTransfers_of_sameOutsideBus fun u v huv hu =>
      ⟨huv.cfg.trans hu.cfg, huv.rom.trans hu.rom, huv.currentScanline.trans hu.currentScanline,
        huv.cyclesToNextHBlank.trans hu.cyclesToNextHBlank⟩
  exact exec_keeps hb hk ⟨rfl, rfl, rfl, rfl⟩ h

/-! ### The parts of the invariant -/

/-- The part of the invariant that lies outside the CPU does not look at it. -/
theorem blindToCpu_outsideInv (ex : Fin 4 → Prop) : BlindToCpu (OutsideInv ex) := by
  intro s t h hs
  refine hs.of_same_io (fun o _ => State.io16_congr h.mem o) (fun i => ?_) h.currentScanline
    h.cyclesToNextHBlank h.cfg h.mVcount h.mDispstat h.mDispcnt h.mBgcnt h.pixels
  simpa only [State.pal16, h.mem, h.paletteCache] using hs.palette i

/-- The canonical form of memory does not look at the CPU. -/
theorem blindToCpu_memWf : BlindToCpu fun s => s.mem.wf = true := by
  intro s t h hs
  simpa only [h.mem] using hs

/-- The part of the invariant that lies outside the CPU. -/
theorem State.Inv.outside {s : State} (h : s.Inv) : OutsideInv (fun _ => False) s where
  palette := h.paletteSynced
  vcount := h.vcountSynced
  status := h.statusSynced
  mirrors := h.mirrorsSynced
  dma n _ := h.dmaIdle n
  pixels := h.pixelsOpaque

/-- A scanline has a cycle (R4). -/
theorem one_le_hCycles {c : Config} (h : c.wf = true) : 1 ≤ c.hCycles := by
  simp only [Config.wf, Bool.and_eq_true, decide_eq_true_eq] at h
  omega

/-- The default advance keeps the low bits of an address. -/
theorem low_add_four (a : Word) : (a + 4#32).extractLsb' 0 2 = a.extractLsb' 0 2 := by
  rw [BitVec.extractLsb'_add (by decide)]
  simp

/-- A redirection is to a multiple of 4 (R15). -/
theorem low_redirection (a : Word) : ((a &&& 0xFFFFFFFC#32) + 8#32).extractLsb' 0 2 = 0#2 := by
  rw [BitVec.extractLsb'_add (by decide), BitVec.extractLsb'_and]
  simp

/-- An instruction keeps R15 a multiple of 4 (R13, R15). -/
theorem exec_pcAligned {i : Instr} {s t : State} (h : exec i s = .next t)
    (hs : (s.reg 15).extractLsb' 0 2 = 0#2) : (t.reg 15).extractLsb' 0 2 = 0#2 := by
  rcases exec_pc h with e | ⟨a, e⟩
  · rw [e, low_add_four, hs]
  · rw [e, low_redirection]

/-- The clock keeps the budget in its range (R206). -/
theorem advance_budgetInRange (s : State) (c : Nat) (hH : 1 ≤ s.cfg.hCycles)
    (hs : s.cyclesToNextHBlank ≤ s.cfg.hCycles) :
    1 ≤ (s.advance c).cyclesToNextHBlank ∧ (s.advance c).cyclesToNextHBlank ≤ s.cfg.hCycles := by
  obtain ⟨k, hk, _, hpos, hle⟩ := advance_time s c hH
  refine ⟨hpos, ?_⟩
  rcases hle with rfl | hle
  · rw [hk]; push_cast; omega
  · exact hle

/-- Settles O48: outside the CPU the instruction and the clock keep `OutsideInv` and the form of memory; the
CPU's part follows from what an instruction does to it, and the budget from how time moves. -/
theorem stepKeepsTheInvariant : Obligations.StepKeepsTheInvariant := by
  intro s t hs h
  have hout : OutsideInv (fun _ => False) t := step_keeps (blindToCpu_outsideInv _) keptByTransfers_outsideInv
    (fun _ c => advance_outsideInv c) hs.outside h
  have hmem : t.mem.wf = true := step_keeps blindToCpu_memWf keptByTransfers_memWf
    (fun _ c => advance_mem_wf c) hs.memWf h
  obtain ⟨u, hu, rfl⟩ := step_eq_next.1 h
  have hset := exec_sameSetup hu
  have hclock := advance_sameOutsideTime u (cyclesOf s.cfg s.fetch)
  have hcfg := hclock.cfg.trans hset.cfg
  exact {
    cfgWf := by rw [hcfg]; exact hs.cfgWf
    memWf := hmem
    romLoaded := by rw [hclock.rom, hset.rom]; exact hs.romLoaded
    pcAligned := by
      rw [State.reg_congr hclock.regs]
      exact exec_pcAligned hu hs.pcAligned
    cpsrFixed := by rw [hclock.cpsr, exec_cpsr_low hu, hcfg, hs.cpsrFixed]
    paletteSynced := hout.palette
    budgetInRange := by
      have hH : 1 ≤ u.cfg.hCycles := hset.cfg ▸ one_le_hCycles hs.cfgWf
      rw [hclock.cfg]
      refine advance_budgetInRange u _ hH ?_
      rw [hset.cyclesToNextHBlank, hset.cfg]
      exact hs.budgetInRange.2
    vcountSynced := hout.vcount
    statusSynced := hout.status
    mirrorsSynced := hout.mirrors
    dmaIdle := fun n => hout.dma n not_false
    pixelsOpaque := hout.pixels }

/-! ## Reset -/

/-- Memory lists nothing at reset (R35). -/
@[simp] theorem reset_mem : State.reset.mem = [] := by decide

/-- An unlisted byte is 0 outside DISPSTAT and KEYINPUT (R35). -/
theorem Memory.unlisted_eq_zero {k : Nat} (h1 : k ≠ 0x04000004) (h2 : k ≠ 0x04000130)
    (h3 : k ≠ 0x04000131) : Memory.unlisted k = 0#8 := by
  simp [Memory.unlisted, h1, h2, h3]

/-- An IO register at reset is made of what its bytes read as unlisted. -/
theorem reset_io16 (o : Nat) : State.reset.io16 o =
    le16 (Memory.unlisted (0x04000000 + o)) (Memory.unlisted (0x04000000 + o + 1)) := by
  simp [State.io16]

/-- A palette entry is 0 at reset. -/
theorem reset_pal16 (i : Nat) : State.reset.pal16 i = 0#16 := by
  rw [State.pal16, reset_mem, Memory.read_nil, Memory.read_nil,
    Memory.unlisted_eq_zero (by omega) (by omega) (by omega),
    Memory.unlisted_eq_zero (by omega) (by omega) (by omega)]
  rfl

/-- The palette cache is black at reset (R35). -/
theorem reset_paletteCache (i : Fin 512) : State.reset.paletteCache[i.val] = ⟨0, 0, 0⟩ := by
  simp [State.reset, State.construct]

/-- The frame buffer is black and opaque at reset (R35). -/
theorem reset_pixel (line : Fin 160) (x : Fin 240) : State.reset.pixel line x = ⟨0, 0, 0, 0xFF#8⟩ := by
  simp [State.pixel, State.reset, State.construct]

/-- The mirrors of BG0CNT to BG3CNT are 0 at reset (R35). -/
theorem reset_mBgcnt (n : Fin 4) : State.reset.mBgcnt[n.val] = 0#16 := by
  simp [State.reset, State.construct]

/-- Every other IO register is 0 at reset (R35). -/
theorem reset_io16_zero {o : Nat} (he : o % 2 = 0) (h1 : o ≠ 0x004) (h2 : o ≠ 0x130) :
    State.reset.io16 o = 0#16 := by
  rw [reset_io16, Memory.unlisted_eq_zero (by omega) (by omega) (by omega),
    Memory.unlisted_eq_zero (by omega) (by omega) (by omega)]
  rfl

/-- The general registers are 0 at reset (R35). -/
theorem reset_reg {i : Reg} (h : i ≠ 15) : State.reset.reg i = 0#32 := by
  have hi : i.val < 15 := by
    have := Fin.val_ne_of_ne h
    omega
  simp [State.reg, State.reset, State.construct, Config.default, Config.defaultWith, hi]

theorem reset_reg15 : State.reset.reg 15 = 0x08000008#32 := by decide

/-- Settles O49: memory lists nothing, so every register the invariant reads is what unlisted bytes give. -/
theorem resetMeetsTheInvariant : Obligations.ResetMeetsTheInvariant where
  cfgWf := by decide
  memWf := rfl
  romLoaded := by simp [State.reset, State.construct]
  pcAligned := by rw [reset_reg15]; decide
  cpsrFixed := rfl
  paletteSynced i := by rw [reset_paletteCache, reset_pal16]; decide
  budgetInRange := by decide
  vcountSynced := ⟨reset_io16_zero (by decide) (by decide) (by decide), rfl⟩
  statusSynced := by rw [reset_io16]; decide
  mirrorsSynced := by
    refine ⟨(reset_io16_zero (by decide) (by decide) (by decide)).symm, fun n => ?_⟩
    rw [reset_mBgcnt, reset_io16_zero (by omega) (by omega) (by omega)]
  dmaIdle n := by
    have := dmaControl_eq n
    rw [reset_io16_zero (by omega) (by omega) (by omega)]
    rfl
  pixelsOpaque line x := by rw [reset_pixel]

/-- Settles O57: each value from the construction, the two IO registers from what unlisted bytes give. -/
theorem resetValues : Obligations.ResetValues := by
  have hstat : State.reset.read16 0x04000004#32 = State.reset.io16 0x004 :=
    State.read16_io _ (o := 0x004) (by decide) (by decide)
  have hkeys : State.reset.read16 0x04000130#32 = State.reset.io16 0x130 :=
    State.read16_io _ (o := 0x130) (by decide) (by decide)
  have hcells : ∀ k : Nat, k ≠ 0x04000004 → k ≠ 0x04000130 → k ≠ 0x04000131 →
      State.reset.mem.read k = 0#8 := by
    intro k h1 h2 h3
    rw [reset_mem, Memory.read_nil, Memory.unlisted_eq_zero h1 h2 h3]
  rw [Obligations.ResetValues, hstat, hkeys, reset_io16, reset_io16]
  exact ⟨fun _ => reset_reg, reset_reg15, rfl, rfl, reset_mem, by decide, by decide, hcells,
    reset_paletteCache, rfl, rfl, rfl, rfl, rfl, rfl, reset_mBgcnt, reset_pixel⟩

end Sys2Proof.Machine

/-! # Proofs: memory and the Bus (20_memory.md) -/

namespace Sys2Proof.Machine

/-! ## The address map -/

/-- The cell behind an address of a writable region. -/
theorem cellOf_of_decode {a : Word} {r : Region} {o : Nat} (hd : decodeAddr a = some (r, o))
    (hr : r.writable = true) : cellOf a = some (r.base + o) := by
  refine (cellOf_eq_some a _).2 ⟨r, o, hd, ?_, ?_, rfl⟩ <;> rintro rfl <;> cases hr

/-- An address with a cell lies in a writable region. -/
theorem decode_of_cellOf {a : Word} {k : Nat} (h : cellOf a = some k) :
    ∃ r o, decodeAddr a = some (r, o) ∧ r.writable = true ∧ o < r.capacity ∧ k = r.base + o := by
  obtain ⟨r, o, hd, hb, hr, hk⟩ := (cellOf_eq_some a k).1 h
  exact ⟨r, o, hd, by simp [Region.writable, hb, hr], decodeAddr_lt_capacity hd, hk⟩

/-- The addresses that nothing answers for (R41, R42). -/
theorem decodeAddr_eq_none (a : Word) : decodeAddr a = none ↔
    (0x4000 ≤ a.toNat ∧ a.toNat < 0x02000000) ∨ (0x04000400 ≤ a.toNat ∧ a.toNat < 0x05000000) ∨
      0x0A000000 ≤ a.toNat := by
  constructor
  · intro h
    have hne (r : Region) (o : Nat) : ¬ decodeAddr a = some (r, o) := by simp [h]
    simp only [decodeAddr_eq_some] at hne
    have hbios := hne .bios a.toNat
    have hio := hne .io (a.toNat % 0x1000000)
    have hewram := hne .ewram (a.toNat % 0x1000000 % 0x40000)
    have hiwram := hne .iwram (a.toNat % 0x1000000 % 0x8000)
    have hpal := hne .pal (a.toNat % 0x1000000 % 0x400)
    have hvram := hne .vram (a.toNat % 0x1000000 % 0x18000)
    have hoam := hne .oam (a.toNat % 0x1000000 % 0x400)
    have hrom := hne .rom (a.toNat - 0x08000000)
    simp only [and_true, true_and] at hbios hio hewram hiwram hpal hvram hoam hrom
    omega
  · intro h
    by_contra hne
    obtain ⟨⟨r, o⟩, hd⟩ := Option.ne_none_iff_exists'.1 hne
    rw [decodeAddr_eq_some] at hd
    cases r <;> dsimp only at hd <;> omega

/-- Settles O24: region by region, the cell is the base and the offset that address decode gives. -/
theorem addressMap : Obligations.AddressMap := by
  intro a
  have hcell {r : Region} {o : Nat} (hr : r.writable = true) (hd : decodeAddr a = some (r, o)) :
      cellOf a = some (r.base + o) := cellOf_of_decode hd hr
  split_ifs with h2 h3 h4 h5 h6 h7
  · exact hcell rfl ((decodeAddr_eq_some a .ewram _).2 ⟨h2, rfl⟩)
  · exact hcell rfl ((decodeAddr_eq_some a .iwram _).2 ⟨h3, rfl⟩)
  · rw [hcell rfl ((decodeAddr_eq_some a .io _).2 ⟨h4.1, rfl, h4.2⟩), Region.base]
    congr 1
    omega
  · exact hcell rfl ((decodeAddr_eq_some a .pal _).2 ⟨h5, rfl⟩)
  · exact hcell rfl ((decodeAddr_eq_some a .vram _).2 ⟨h6, rfl⟩)
  · exact hcell rfl ((decodeAddr_eq_some a .oam _).2 ⟨h7, rfl⟩)
  · by_contra hne
    obtain ⟨k, hk⟩ := Option.ne_none_iff_exists'.1 hne
    obtain ⟨r, o, hd, hr, -, -⟩ := decode_of_cellOf hk
    rw [decodeAddr_eq_some] at hd
    cases r <;> dsimp only at hd
    case bios | rom => cases hr
    all_goals omega

/-- A cell of storage is the cell behind its own address: it lies in the first image of its region (R40). -/
theorem cellOf_of_isStorage {x : Nat} (h : isStorage x = true) : cellOf (BitVec.ofNat 32 x) = some x := by
  simp only [isStorage, Bool.or_eq_true, decide_eq_true_eq] at h
  have hn : (BitVec.ofNat 32 x).toNat = x := by
    rw [BitVec.toNat_ofNat]
    omega
  rw [addressMap, hn]
  split_ifs
  case neg => omega
  all_goals exact congrArg some (by omega)

/-! ### Aligned addresses -/

/-- The aligned word of an address lies in the region of the address: bases, capacities and wraps are multiples
of 4 (R41, R45). -/
theorem decodeAddr_align4_of_decode {a : Word} {r : Region} {o : Nat} (h : decodeAddr a = some (r, o)) :
    decodeAddr (align4 a) = some (r, o / 4 * 4) := by
  rw [decodeAddr_eq_some] at h ⊢
  rw [align4_toNat]
  cases r <;> dsimp only at h ⊢ <;> omega

/-- The aligned halfword of an address lies in the region of the address (R41, R45). -/
theorem decodeAddr_align2_of_decode {a : Word} {r : Region} {o : Nat} (h : decodeAddr a = some (r, o)) :
    decodeAddr (align2 a) = some (r, o / 2 * 2) := by
  rw [decodeAddr_eq_some] at h ⊢
  rw [align2_toNat]
  cases r <;> dsimp only at h ⊢ <;> omega

/-- The base of a region is a multiple of 4. -/
theorem Region.base_mod_four (r : Region) : r.base % 4 = 0 := by cases r <;> rfl

/-- The cell behind the aligned word of an address (R45). -/
theorem cellOf_align4 {a : Word} {k : Nat} (h : cellOf a = some k) : cellOf (align4 a) = some (k / 4 * 4) := by
  obtain ⟨r, o, hd, hr, -, rfl⟩ := decode_of_cellOf h
  have := r.base_mod_four
  rw [cellOf_of_decode (decodeAddr_align4_of_decode hd) hr]
  congr 1
  omega

/-- The cell behind the aligned halfword of an address (R45). -/
theorem cellOf_align2 {a : Word} {k : Nat} (h : cellOf a = some k) : cellOf (align2 a) = some (k / 2 * 2) := by
  obtain ⟨r, o, hd, hr, -, rfl⟩ := decode_of_cellOf h
  have := r.base_mod_four
  rw [cellOf_of_decode (decodeAddr_align2_of_decode hd) hr]
  congr 1
  omega

/-- The cells of an aligned word stand side by side. -/
theorem cellOf_align4_add {a : Word} {k i : Nat} (h : cellOf (align4 a) = some k) (hi : i < 4) :
    cellOf (align4 a + BitVec.ofNat 32 i) = some (k + i) := by
  obtain ⟨r, o, hd, hr, -, rfl⟩ := decode_of_cellOf h
  rw [cellOf_of_decode (decodeAddr_align4 hd hi).1 hr, Nat.add_assoc]

/-- The cells of an aligned halfword stand side by side. -/
theorem cellOf_align2_add {a : Word} {k i : Nat} (h : cellOf (align2 a) = some k) (hi : i < 2) :
    cellOf (align2 a + BitVec.ofNat 32 i) = some (k + i) := by
  obtain ⟨r, o, hd, hr, -, rfl⟩ := decode_of_cellOf h
  rw [cellOf_of_decode (decodeAddr_align2 hd hi).1 hr, Nat.add_assoc]

/-- The second halfword of an aligned word belongs to that word. -/
theorem align4_align4_add_two (a : Word) : align4 (align4 a + 2#32) = align4 a := by
  apply BitVec.eq_of_toNat_eq
  rw [align4_toNat, align4_add_toNat a (by decide), align4_toNat]
  omega

/-- Beside an aligned word without a cell there is none for its second halfword either. -/
theorem cellOf_align4_add_two_eq_none {a : Word} (h : cellOf (align4 a) = none) :
    cellOf (align4 a + 2#32) = none := by
  by_contra hne
  obtain ⟨k, hk⟩ := Option.ne_none_iff_exists'.1 hne
  have := cellOf_align4 hk
  rw [align4_align4_add_two, h] at this
  cases this

/-! ## Reads -/

/-- A byte in one region other than the ROM reads as that region's byte (R46). -/
theorem State.read8_of_decode (s : State) {a : Word} {r : Region} {o : Nat}
    (h : decodeAddr a = some (r, o)) (hr : r ≠ .rom) : s.read8 a = s.regionByte r o := by
  cases r
  case rom => exact absurd rfl hr
  all_goals simp only [State.read8, h]

/-- A word in one region other than the ROM is the bytes of its aligned address (R44, R48). -/
theorem State.read32_eq_bytes (s : State) {a : Word} {r : Region} {o : Nat}
    (h : decodeAddr (align4 a) = some (r, o)) (hr : r ≠ .rom) :
    s.read32 a = le32 (s.read8 (align4 a)) (s.read8 (align4 a + 1#32)) (s.read8 (align4 a + 2#32))
      (s.read8 (align4 a + 3#32)) := by
  have hbyte {i : Nat} (hi : i < 4) : s.read8 (align4 a + BitVec.ofNat 32 i) = s.regionByte r (o + i) :=
    s.read8_of_decode (decodeAddr_align4 h hi).1 hr
  rw [s.read32_of_decode h hr, s.read8_of_decode h hr, hbyte (by decide), hbyte (by decide), hbyte (by decide)]

/-- A halfword in one region other than the ROM is the bytes of its aligned address (R44, R47). -/
theorem State.read16_eq_bytes (s : State) {a : Word} {r : Region} {o : Nat}
    (h : decodeAddr (align2 a) = some (r, o)) (hr : r ≠ .rom) :
    s.read16 a = le16 (s.read8 (align2 a)) (s.read8 (align2 a + 1#32)) := by
  have hbyte : s.read8 (align2 a + 1#32) = s.regionByte r (o + 1) :=
    s.read8_of_decode (decodeAddr_align2 h (i := 1) (by decide)).1 hr
  rw [s.read16_of_decode h hr, s.read8_of_decode h hr, hbyte]

/-- An address with a cell or in the BIOS window lies in a region other than the ROM. -/
theorem decode_of_cell_or_bios {a : Word} (h : cellOf a ≠ none ∨ a.toNat < 0x4000) :
    ∃ r o, decodeAddr a = some (r, o) ∧ r ≠ .rom := by
  rcases h with h | h
  · obtain ⟨k, hk⟩ := Option.ne_none_iff_exists'.1 h
    obtain ⟨r, o, hd, -, hr, -⟩ := (cellOf_eq_some a k).1 hk
    exact ⟨r, o, hd, hr⟩
  · exact ⟨.bios, a.toNat, (decodeAddr_eq_some a .bios _).2 ⟨by omega, rfl, h⟩, by decide⟩

/-- Settles O25: the aligned address lies in the region of the address, and its bytes side by side in it. -/
theorem readsAreLittleEndian : Obligations.ReadsAreLittleEndian := by
  intro s a h
  obtain ⟨r, o, hd, hr⟩ := decode_of_cell_or_bios h
  exact ⟨s.read32_eq_bytes (decodeAddr_align4_of_decode hd) hr,
    s.read16_eq_bytes (decodeAddr_align2_of_decode hd) hr⟩

/-! ### ROM, BIOS and unmapped addresses -/

/-- The ROM window's offsets are counted from its base (R41). -/
theorem decodeAddr_rom {a : Word} (h : a.toNat / 0x1000000 = 8 ∨ a.toNat / 0x1000000 = 9) :
    decodeAddr a = some (.rom, a.toNat - 0x08000000) :=
  (decodeAddr_eq_some a .rom _).2 ⟨h, rfl⟩

section Rom

variable {s : State} {a : Word} {image : List Byte} {o : Nat}

/-- A byte of the ROM window lies inside a loaded image after the wrap (R54). -/
theorem State.read8_rom_loaded (hrom : s.rom = some image) (hne : image ≠ [])
    (h : decodeAddr a = some (.rom, o)) : s.read8 a = image.getD (o % image.length) 0#8 := by
  have hlt := Nat.mod_lt o (List.length_pos_iff.2 hne)
  simp only [State.read8, h, State.romCovers, hrom, if_pos (show o % image.length + 1 ≤ image.length from hlt),
    romByte, Nat.add_zero]

/-- A halfword of the ROM window is the image's where it does not run past its end (R54, R55). -/
theorem State.read16_rom_loaded (hrom : s.rom = some image) (h : decodeAddr (align2 a) = some (.rom, o)) :
    s.read16 a = if o % image.length + 2 ≤ image.length then
      image.getD (o % image.length + 1) 0#8 ++ image.getD (o % image.length) 0#8 else 0xFFFF#16 := by
  simp only [State.read16, h, State.romCovers, hrom]
  split_ifs
  · simp only [le16, romByte, Nat.add_zero]
  · rfl

/-- A word of the ROM window is the image's where it does not run past its end (R54, R55). -/
theorem State.read32_rom_loaded (hrom : s.rom = some image) (h : decodeAddr (align4 a) = some (.rom, o)) :
    s.read32 a = if o % image.length + 4 ≤ image.length then
      image.getD (o % image.length + 3) 0#8 ++ image.getD (o % image.length + 2) 0#8 ++
        image.getD (o % image.length + 1) 0#8 ++ image.getD (o % image.length) 0#8 else 0xDEADBEEF#32 := by
  simp only [State.read32, h, State.romCovers, hrom]
  split_ifs
  · simp only [le32, romByte, Nat.add_zero]
  · rfl

end Rom

/-- Settles O26: an access to the window is at its aligned offset, and whether the image covers it decides
between the bytes and the sentinel. -/
theorem romReads : Obligations.RomReads := by
  intro s a h
  have h8 : decodeAddr a = some (.rom, a.toNat - 0x08000000) := decodeAddr_rom h
  have h16 : decodeAddr (align2 a) = some (.rom, a.toNat / 2 * 2 - 0x08000000) := by
    rw [← align2_toNat]
    exact decodeAddr_rom (by rw [align2_toNat]; omega)
  have h32 : decodeAddr (align4 a) = some (.rom, a.toNat / 4 * 4 - 0x08000000) := by
    rw [← align4_toNat]
    exact decodeAddr_rom (by rw [align4_toNat]; omega)
  constructor
  · intro hrom
    simp only [State.read8, State.read16, State.read32, h8, h16, h32, State.romCovers, hrom, and_self]
  · intro image hrom hne
    exact ⟨State.read8_rom_loaded hrom hne h8, State.read16_rom_loaded hrom h16,
      State.read32_rom_loaded hrom h32⟩

/-- Settles O27: a BIOS address reads the image's byte, and an unmapped address has unmapped aligned ones. -/
theorem readsWithoutStorage : Obligations.ReadsWithoutStorage := by
  intro s a
  constructor
  · intro h
    rw [s.read8_of_decode ((decodeAddr_eq_some a .bios a.toNat).2 ⟨by omega, rfl, h⟩) (by decide)]
    simp only [State.regionByte, State.biosByte]
    cases s.cfg.bios <;> rfl
  · intro h
    have h8 : decodeAddr a = none := (decodeAddr_eq_none a).2 h
    have h16 : decodeAddr (align2 a) = none := (decodeAddr_eq_none _).2 (by rw [align2_toNat]; omega)
    have h32 : decodeAddr (align4 a) = none := (decodeAddr_eq_none _).2 (by rw [align4_toNat]; omega)
    simp only [State.read8, State.read16, State.read32, h8, h16, h32, and_self]

/-! ## Byte writes to the IO block -/

/-- The address of an IO offset decodes to the offset. -/
theorem decodeAddr_ioOffset {o : Nat} (ho : o < 0x400) :
    decodeAddr (0x04000000#32 + BitVec.ofNat 32 o) = some (.io, o) := by
  have hn : (0x04000000#32 + BitVec.ofNat 32 o).toNat = 0x04000000 + o := by
    rw [BitVec.toNat_add, BitVec.toNat_ofNat, BitVec.toNat_ofNat]
    omega
  rw [decodeAddr_eq_some, hn]
  dsimp only
  omega

/-- Settles O35: a byte write in the IO block is the halfword write of the merged halfword. -/
theorem byteWritesToIoMerge : Obligations.ByteWritesToIoMerge := by
  rintro _ v s o ho rfl
  have hd := decodeAddr_ioOffset ho
  have hodd : (0x04000000#32 + BitVec.ofNat 32 o).toNat % 2 = 1 ↔ o % 2 = 1 := by
    have := (decodeAddr_eq_some _ .io o).1 hd
    omega
  refine (write8With_io runTransfer hd v s).trans ?_
  simp only [mergedHalf, getLsbD_zero_eq, decide_eq_true_eq, hodd]
  rfl

/-! ## The frame of an instruction -/

theorem SameOutsideCpu.trans {s t u : State} (h1 : SameOutsideCpu s t) (h2 : SameOutsideCpu t u) :
    SameOutsideCpu s u where
  cfg := h2.cfg.trans h1.cfg
  mem := h2.mem.trans h1.mem
  rom := h2.rom.trans h1.rom
  paletteCache := h2.paletteCache.trans h1.paletteCache
  currentScanline := h2.currentScanline.trans h1.currentScanline
  cyclesToNextHBlank := h2.cyclesToNextHBlank.trans h1.cyclesToNextHBlank
  lastRenderedLine := h2.lastRenderedLine.trans h1.lastRenderedLine
  mDispcnt := h2.mDispcnt.trans h1.mDispcnt
  mDispstat := h2.mDispstat.trans h1.mDispstat
  mVcount := h2.mVcount.trans h1.mVcount
  mBgcnt := h2.mBgcnt.trans h1.mBgcnt
  pixels := h2.pixels.trans h1.pixels

/-- The Bus reads nothing of the CPU. -/
theorem SameOutsideCpu.sameBytes {s t : State} (h : SameOutsideCpu s t) : SameBytes s t :=
  State.read8_congr h.mem h.cfg h.rom

/-- An instruction that makes no Bus write changes the CPU alone (R64). -/
theorem exec_sameOutsideCpu {i : Instr} {s t : State} (h : exec i s = .next t) (hw : i.writesBus = false) :
    SameOutsideCpu s t := by
  have hb : BlindToCpu (SameOutsideCpu s) := fun _ _ huv hu => hu.trans huv
  have h0 := SameOutsideCpu.refl s
  cases i
  case str | strb | strh | stm | swi => cases hw
  case b => exact whenPassed_cpu_keeps hb h0 (nextInstr_sameOutsideCpu s _) h
  case bl => exact whenPassed_cpu_keeps hb h0 (by constructor <;> rfl) h
  case cmpImm | cmpReg => exact whenPassed_cpu_keeps hb h0 (setNZ_advancePc_sameOutsideCpu s _) h
  case tstImm | tstReg => exact whenPassed_cpu_keeps hb h0 (setNZIf_advancePc_sameOutsideCpu s _ _) h
  case ldr | ldrb | ldrh => exact whenPassed_cpu_keeps hb h0 (writeRd_sameOutsideCpu s _ _) h
  case nopUnimplemented => exact whenPassed_cpu_keeps hb h0 (advancePc_sameOutsideCpu s) h
  all_goals exact whenPassed_cpu_keeps hb h0 (dpWrite_sameOutsideCpu s _ _ _) h

/-- Settles O47: the frame of an instruction without a Bus write, and what no instruction changes. -/
theorem onlyBusWritesReachOutside : Obligations.OnlyBusWritesReachOutside := by
  intro i s t h
  have hset := exec_sameSetup h
  refine ⟨fun hw => ?_, hset.cfg, hset.rom, hset.currentScanline, hset.cyclesToNextHBlank⟩
  have hcpu := exec_sameOutsideCpu h hw
  exact ⟨hcpu, hcpu.sameBytes⟩

/-! ## The fetch -/

/-- The bytes of a word decode to the instruction of the word (R91). -/
theorem decode_wordBytes (w : Word) : decode (wordBytes w) = .ok (decodeWord w, []) := by
  simp only [wordBytes, decode, le32_bytes]

/-- Settles O5: the step's fetch is the word at `R15 - 8`, and its first part the instruction of that word. -/
theorem stepRunsTheDecodedInstruction : Obligations.StepRunsTheDecodedInstruction := by
  intro s i _ hd
  rw [decode_wordBytes] at hd
  have hi : decodeWord s.fetch = i := congrArg Prod.fst (Except.ok.inj hd)
  have hstep : step s = andThen (exec i s) fun t => .next (t.advance (cyclesOf s.cfg s.fetch)) := by
    rw [step, hi]
  refine ⟨fun t h => ?_, fun e h => ?_, fun f h => ?_⟩ <;> rw [hstep, h] <;> rfl

/-! ## Stores

`StoresBytes` says what a store does. Each way of storing meets it, and two stores side by side are one. -/

theorem SamePpu.trans {s t u : State} (h1 : SamePpu s t) (h2 : SamePpu t u) : SamePpu s u where
  currentScanline := h2.currentScanline.trans h1.currentScanline
  cyclesToNextHBlank := h2.cyclesToNextHBlank.trans h1.cyclesToNextHBlank
  lastRenderedLine := h2.lastRenderedLine.trans h1.lastRenderedLine
  mDispcnt := h2.mDispcnt.trans h1.mDispcnt
  mDispstat := h2.mDispstat.trans h1.mDispstat
  mVcount := h2.mVcount.trans h1.mVcount
  mBgcnt := h2.mBgcnt.trans h1.mBgcnt
  pixels := h2.pixels.trans h1.pixels

/-- The low half of a zero-extended halfword is the halfword. -/
@[simp] theorem lowHalf_setWidth (v : Half) : lowHalf (v.setWidth 32) = v := by
  ext i hi
  have : i < 32 := by omega
  simp [lowHalf, hi, this]

/-- The low byte of a zero-extended byte is the byte. -/
@[simp] theorem byteOf_setWidth_zero (v : Byte) : byteOf (v.setWidth 32) 0 = v := by
  ext i hi
  have : i < 32 := by omega
  simp [byteOf, hi, this]

/-- Two memories that differ in the `n` bytes from `k` on alone, which are those of `v` in the second. -/
def Memory.Stores (m m' : Memory) (k n : Nat) (v : Word) : Prop :=
  ∀ x, m'.read x = if k ≤ x ∧ x < k + n then byteOf v (x - k) else m.read x

theorem Memory.stores_write (m : Memory) (k : Nat) (v : Word) : m.Stores (m.write k (byteOf v 0)) k 1 v := by
  intro x
  rw [Memory.read_write]
  by_cases h : x = k
  · subst h
    simp
  · rw [if_neg h, if_neg (by omega)]

theorem Memory.stores_write_write (m : Memory) (k : Nat) (v : Word) :
    m.Stores ((m.write k (byteOf v 0)).write (k + 1) (byteOf v 1)) k 2 v := by
  intro x
  rw [Memory.read_write, Memory.read_write]
  by_cases h1 : x = k + 1
  · subst h1
    simp
  · by_cases h0 : x = k
    · subst h0
      simp
    · rw [if_neg h1, if_neg h0, if_neg (by omega)]

/-- The cells of palette entry `j` are among the `n` from `k` on (R58). -/
abbrev TouchesEntry (k n j : Nat) : Prop := k < 0x05000000 + 2 * j + 2 ∧ 0x05000000 + 2 * j < k + n

/-- A store of bytes is one of memory that keeps the rest of the machine, with the palette cache following. -/
theorem storesBytes_of_mem {s t : State} {k n : Nat} {v : Word} (hm : s.mem.Stores t.mem k n v)
    (hc : t.cfg = s.cfg) (hr : t.rom = s.rom) (hp : SamePpu s t)
    (hin : ∀ j : Fin 512, TouchesEntry k n j.val → t.paletteCache[j.val] = expand (t.pal16 j.val))
    (hout : ∀ j : Fin 512, ¬ TouchesEntry k n j.val → t.paletteCache[j.val] = s.paletteCache[j.val]) :
    StoresBytes s t k n v where
  stored a i hi ha := by
    rw [State.read8_of_cell t ha, hm, if_pos (by omega), Nat.add_sub_cancel_left]
  kept a ha := by
    cases hk : cellOf a with
    | none => exact State.read8_of_no_cell hk hc hr
    | some x =>
      have hx : ¬ (k ≤ x ∧ x < k + n) := fun h => ha (x - k) (by omega) (by rw [hk]; congr 1; omega)
      rw [State.read8_of_cell t hk, State.read8_of_cell s hk, hm, if_neg hx]
  cfg := hc
  rom := hr
  palette j := by
    split
    · next h => exact hin j h
    · next h => exact hout j h
  ppu := hp

/-- Away from palette RAM a byte store is a plain one. -/
theorem storesBytes_setByte (s : State) {k : Nat} (v : Word) (hk : k < 0x05000000 ∨ 0x05000400 ≤ k) :
    StoresBytes s (s.setByte k (byteOf v 0)) k 1 v := by
  refine storesBytes_of_mem (Memory.stores_write _ k v) rfl rfl (by constructor <;> rfl) (fun j h => ?_)
    fun _ _ => rfl
  omega

/-- Away from palette RAM a halfword store is a plain one. -/
theorem storesBytes_setByte_setByte (s : State) {k : Nat} (v : Word)
    (hk : k + 1 < 0x05000000 ∨ 0x05000400 ≤ k) :
    StoresBytes s ((s.setByte k (byteOf v 0)).setByte (k + 1) (byteOf v 1)) k 2 v := by
  refine storesBytes_of_mem (Memory.stores_write_write _ k v) rfl rfl (by constructor <;> rfl) (fun j h => ?_)
    fun _ _ => rfl
  omega

/-- A store inside one palette entry, followed by the refresh of its cache entry (R58). -/
theorem storesBytes_refreshPalette {s : State} {m : Memory} {i k n : Nat} {v : Word}
    (hm : s.mem.Stores m k n v) (hi : ∀ j, TouchesEntry k n j ↔ j = i) (hlt : i < 512) :
    StoresBytes s (({ s with mem := m } : State).refreshPalette i) k n v := by
  refine storesBytes_of_mem hm rfl rfl (by constructor <;> rfl) (fun j h => ?_) fun j h => ?_
  · obtain rfl : j.val = i := (hi _).1 h
    simp [State.refreshPalette, State.pal16]
  · have hne : i ≠ j.val := fun e => h ((hi _).2 e.symm)
    simp [State.refreshPalette, hne]

theorem storesBytes_palStore8 (s : State) {o : Nat} (v : Word) (ho : o < 0x400) :
    StoresBytes s (s.palStore8 o (byteOf v 0)) (0x05000000 + o) 1 v :=
  storesBytes_refreshPalette (Memory.stores_write _ _ v) (fun j => by omega) (by omega)

theorem storesBytes_palStore16 (s : State) {o : Nat} (v : Word) (he : o % 2 = 0) (ho : o < 0x400) :
    StoresBytes s (s.palStore16 o (lowHalf v)) (0x05000000 + o) 2 v := by
  rw [State.palStore16, byteOf_lowHalf_zero, byteOf_lowHalf_one]
  exact storesBytes_refreshPalette (Memory.stores_write_write _ _ v) (fun j => by omega)
    (by omega)

/-- A store leaves every other cell alone. -/
theorem StoresBytes.read_kept {s t : State} {k n : Nat} {v : Word} (h : StoresBytes s t k n v) {x : Nat}
    (hs : isStorage x = true) (hx : ¬ (k ≤ x ∧ x < k + n)) : t.mem.read x = s.mem.read x := by
  have hc := cellOf_of_isStorage hs
  rw [← State.read8_of_cell t hc, ← State.read8_of_cell s hc]
  refine h.kept _ fun i hi e => hx ?_
  rw [hc, Option.some.injEq] at e
  omega

/-- A palette entry none of whose cells is stored to is as it was. -/
theorem StoresBytes.pal16_kept {s t : State} {k n : Nat} {v : Word} (h : StoresBytes s t k n v) (j : Fin 512)
    (hj : ¬ TouchesEntry k n j.val) : t.pal16 j.val = s.pal16 j.val := by
  have hs0 : isStorage (0x05000000 + 2 * j.val) = true :=
    isStorage_of_lt (r := .pal) rfl (show 2 * j.val < 0x400 by omega)
  have hs1 : isStorage (0x05000000 + 2 * j.val + 1) = true :=
    isStorage_of_lt (r := .pal) rfl (show 2 * j.val + 1 < 0x400 by omega)
  rw [State.pal16, State.pal16, h.read_kept hs0 (by omega), h.read_kept hs1 (by omega)]

/-- Two stores side by side are one of all their bytes. -/
theorem StoresBytes.append {s t u : State} {k m n : Nat} {v w : Word} (h1 : StoresBytes s t k m v)
    (h2 : StoresBytes t u (k + m) n w) (hw : ∀ i, i < n → byteOf w i = byteOf v (m + i)) :
    StoresBytes s u k (m + n) v where
  stored a i hi ha := by
    by_cases him : i < m
    · rw [h2.kept a fun l _ e => by rw [ha, Option.some.injEq] at e; omega]
      exact h1.stored a i him ha
    · have hmi : m + (i - m) = i := by omega
      rw [h2.stored a (i - m) (by omega) (by rw [Nat.add_assoc, hmi]; exact ha), hw _ (by omega), hmi]
  kept a ha := by
    rw [h2.kept a fun i hi => by rw [Nat.add_assoc]; exact ha _ (by omega)]
    exact h1.kept a fun i hi => ha i (by omega)
  cfg := h2.cfg.trans h1.cfg
  rom := h2.rom.trans h1.rom
  palette j := by
    by_cases hj2 : TouchesEntry (k + m) n j.val
    · rw [h2.palette j, if_pos hj2, if_pos (by omega)]
    · rw [h2.palette j, if_neg hj2, h1.palette j, h2.pal16_kept j hj2]
      congr 1
      simp only [eq_iff_iff]
      omega
  ppu := h1.ppu.trans h2.ppu

/-- The advance leaves alone what a store speaks of. -/
theorem StoresBytes.advancePc {s t : State} {k n : Nat} {v : Word} (h : StoresBytes s t k n v) :
    StoresBytes s t.advancePc k n v where
  stored a i hi ha := (State.read8_congr rfl rfl rfl a).trans (h.stored a i hi ha)
  kept a ha := (State.read8_congr rfl rfl rfl a).trans (h.kept a ha)
  cfg := h.cfg
  rom := h.rom
  palette := h.palette
  ppu := h.ppu.trans (by constructor <;> rfl)

/-! ### The Bus writes outside the IO block -/

/-- The regions whose bytes are cells are the plain ones, palette RAM and the IO block. -/
theorem Region.writable_cases {r : Region} (hr : r.writable = true) : r.plain = true ∨ r = .pal ∨ r = .io := by
  revert hr
  cases r <;> decide

/-- The cells of a plain region lie away from palette RAM. -/
theorem Region.plain_apart {r : Region} {o : Nat} (hr : r.plain = true) (ho : o < r.capacity) :
    r.base + o < 0x05000000 ∨ 0x05000400 ≤ r.base + o := by
  cases r <;> simp [Region.plain, Region.base, Region.capacity] at * <;> omega

section Writes

variable {f : Fin 4 → State → Result} {a : Word} {k : Nat}

theorem write8With_plain {r : Region} {o : Nat} (hd : decodeAddr a = some (r, o)) (hr : r.plain = true)
    (v : Byte) (s : State) : write8With f a v s = .next (s.setByte (r.base + o) v) := by
  cases r
  case ewram | iwram | vram | oam => simp only [write8With, hd]
  all_goals cases hr

theorem write16With_plain {r : Region} {o : Nat} (hd : decodeAddr (align2 a) = some (r, o))
    (hr : r.plain = true) (v : Half) (s : State) : write16With f a v s = .next (s.ramStore16 r o v) := by
  cases r
  case ewram | iwram | vram | oam => simp only [write16With, hd]
  all_goals cases hr

/-- A cell outside the IO block lies in a plain region or in palette RAM. -/
theorem decode_of_cell_outside_io (hk : cellOf a = some k) (hio : ¬ IsIoCell k) :
    ∃ r o, decodeAddr a = some (r, o) ∧ (r.plain = true ∨ r = .pal) ∧ o < r.capacity ∧ k = r.base + o := by
  obtain ⟨r, o, hd, hr, ho, rfl⟩ := decode_of_cellOf hk
  refine ⟨r, o, hd, ?_, ho, rfl⟩
  rcases Region.writable_cases hr with h | h | rfl
  · exact .inl h
  · exact .inr h
  · exact absurd ⟨Nat.le_add_right _ _, Nat.add_lt_add_left ho 0x04000000⟩ hio

/-- A byte write outside the IO block completes and stores its byte (R49, R56, R58). -/
theorem write8With_storesBytes (hk : cellOf a = some k) (hio : ¬ IsIoCell k) (v : Word) (s : State) :
    ∃ t, write8With f a (byteOf v 0) s = .next t ∧ StoresBytes s t k 1 v := by
  obtain ⟨r, o, hd, hr | rfl, ho, rfl⟩ := decode_of_cell_outside_io hk hio
  · exact ⟨_, write8With_plain hd hr _ s, storesBytes_setByte s v (Region.plain_apart hr ho)⟩
  · exact ⟨_, by simp only [write8With, hd], storesBytes_palStore8 s v ho⟩

/-- A halfword write outside the IO block completes and stores its two bytes (R50, R56, R58). -/
theorem write16With_storesBytes (hk : cellOf (align2 a) = some k) (hio : ¬ IsIoCell k) (v : Word) (s : State) :
    ∃ t, write16With f a (lowHalf v) s = .next t ∧ StoresBytes s t k 2 v := by
  obtain ⟨r, o, hd, hr | rfl, ho, rfl⟩ := decode_of_cell_outside_io hk hio
  · refine ⟨_, write16With_plain hd hr _ s, ?_⟩
    rw [State.ramStore16, byteOf_lowHalf_zero, byteOf_lowHalf_one]
    have h0 := Region.plain_apart hr ho
    have h1 := Region.plain_apart hr (decodeAddr_align2 hd (i := 1) (by decide)).2.2
    exact storesBytes_setByte_setByte s v (by omega)
  · exact ⟨_, by simp only [write16With, hd],
      storesBytes_palStore16 s v (decodeAddr_align2 hd (i := 0) (by decide)).2.1 ho⟩

/-- A word write outside the IO block completes and stores its four bytes (R51, R56, R58). -/
theorem write32With_storesBytes (hk : cellOf (align4 a) = some k) (hio : ¬ IsIoCell k) (v : Word) (s : State) :
    ∃ t, write32With f a v s = .next t ∧ StoresBytes s t k 4 v := by
  have h4 : k / 4 * 4 = k := by
    have := cellOf_align4 hk
    rw [align4_align4, hk, Option.some.injEq] at this
    exact this.symm
  have hk0 : cellOf (align2 (align4 a)) = some k := by rwa [align2_align4]
  have hk2 : cellOf (align2 (align4 a + 2#32)) = some (k + 2) := by
    rw [align2_align4_add_two]
    exact cellOf_align4_add hk (by decide)
  have hio2 : ¬ IsIoCell (k + 2) := by
    unfold IsIoCell at hio ⊢
    omega
  obtain ⟨t, ht, hlo⟩ := write16With_storesBytes (f := f) hk0 hio v s
  obtain ⟨u, hu, hhi⟩ := write16With_storesBytes (f := f) hk2 hio2 ((highHalf v).setWidth 32) t
  rw [lowHalf_setWidth] at hu
  have hall : StoresBytes s u k (2 + 2) v := by
    refine hlo.append hhi fun i hi => ?_
    obtain rfl | rfl : i = 0 ∨ i = 1 := by omega
    · rw [← byteOf_lowHalf_zero, lowHalf_setWidth, byteOf_highHalf_zero]
    · rw [← byteOf_lowHalf_one, lowHalf_setWidth, byteOf_highHalf_one]
  refine ⟨u, ?_, hall⟩
  rw [write32With, ht, andThen_next, hu]

end Writes

/-- Settles O36: the store's bytes stand in the cells that the read of the same width takes them from. -/
theorem writeThenReadGivesTheValue : Obligations.WriteThenReadGivesTheValue := by
  intro a s k hk hio
  have hne : cellOf a ≠ none ∨ a.toNat < 0x4000 := .inl (by simp [hk])
  have hk2 := cellOf_align2 hk
  have hk4 := cellOf_align4 hk
  have hio2 : ¬ IsIoCell (k / 2 * 2) := by
    unfold IsIoCell at hio ⊢
    omega
  have hio4 : ¬ IsIoCell (k / 4 * 4) := by
    unfold IsIoCell at hio ⊢
    omega
  refine ⟨fun v => ?_, fun v => ?_, fun v => ?_⟩
  · obtain ⟨t, ht, hst⟩ := write8With_storesBytes (f := runTransfer) hk hio (v.setWidth 32) s
    rw [byteOf_setWidth_zero] at ht
    exact ⟨t, ht, (hst.stored a 0 (by decide) hk).trans (byteOf_setWidth_zero v)⟩
  · obtain ⟨t, ht, hst⟩ := write16With_storesBytes (f := runTransfer) hk2 hio2 (v.setWidth 32) s
    rw [lowHalf_setWidth] at ht
    refine ⟨t, ht, (readsAreLittleEndian t a hne).2.trans ?_⟩
    rw [hst.stored _ 0 (by decide) hk2, hst.stored _ 1 (by decide) (cellOf_align2_add hk2 (by decide)),
      ← byteOf_lowHalf_zero, ← byteOf_lowHalf_one, lowHalf_setWidth]
    exact le16_bytes v
  · obtain ⟨t, ht, hst⟩ := write32With_storesBytes (f := runTransfer) hk4 hio4 v s
    refine ⟨t, ht, (readsAreLittleEndian t a hne).1.trans ?_⟩
    rw [hst.stored _ 0 (by decide) hk4, hst.stored _ 1 (by decide) (cellOf_align4_add hk4 (by decide)),
      hst.stored _ 2 (by decide) (cellOf_align4_add hk4 (by decide)),
      hst.stored _ 3 (by decide) (cellOf_align4_add hk4 (by decide))]
    exact le32_bytes v

/-! ### Store instructions -/

section Stores

variable {c : Cond} {u : Bool} {rn rd : Reg} {s : State}

/-- STR, where its condition holds: the word write, then the advance (R151). -/
theorem exec_str (h : CondHolds c s.cpsr) (imm12 : BitVec 12) : exec (.str c u rn rd imm12) s =
    thenAdvance (write32 (s.lsAddr u rn imm12) (s.reg rd) s) := whenPassed_true _ (condPassed_of_holds h)

/-- STRB, where its condition holds: the byte write, then the advance (R154). -/
theorem exec_strb (h : CondHolds c s.cpsr) (imm12 : BitVec 12) : exec (.strb c u rn rd imm12) s =
    thenAdvance (write8 (s.lsAddr u rn imm12) (byteOf (s.reg rd) 0) s) := whenPassed_true _ (condPassed_of_holds h)

/-- STRH, where its condition holds: the halfword write, then the advance (R166). -/
theorem exec_strh (h : CondHolds c s.cpsr) (immH immL : BitVec 4) : exec (.strh c u rn rd immH immL) s =
    thenAdvance (write16 (s.lshAddr u rn immH immL) (lowHalf (s.reg rd)) s) :=
  whenPassed_true _ (condPassed_of_holds h)

end Stores

/-- A store that has returned advances. -/
@[simp] theorem thenAdvance_next (s : State) : thenAdvance (.next s) = .next s.advancePc := rfl

/-- The advance moves the CPU to the next instruction, after writes that leave it alone (R14, R62). -/
theorem SameOutsideBus.cpuAdvances {s t : State} (h : SameOutsideBus s t) : CpuAdvances s t.advancePc where
  pc := by rw [State.reg15_advancePc, State.reg_congr h.regs]
  regs i hi := by rw [State.reg_advancePc _ hi, State.reg_congr h.regs]
  cpsr := h.cpsr

/-- The default advance is a no-op. -/
theorem advancePc_onlyAdvances (s : State) : OnlyAdvances s s.advancePc where
  cpu := (SameOutsideBus.refl s).cpuAdvances
  rest := advancePc_sameOutsideCpu s
  bytes := (advancePc_sameOutsideCpu s).sameBytes

/-! ### Writes without a cell -/

section NoCell

variable {f : Fin 4 → State → Result} {a : Word}

/-- An address without a cell lies in the BIOS window, in the ROM window or nowhere (R53). -/
theorem decode_of_no_cell (h : cellOf a = none) :
    decodeAddr a = none ∨ (∃ o, decodeAddr a = some (.bios, o)) ∨ ∃ o, decodeAddr a = some (.rom, o) := by
  cases hd : decodeAddr a with
  | none => exact .inl rfl
  | some p =>
    obtain ⟨r, o⟩ := p
    cases r
    case bios => exact .inr (.inl ⟨o, rfl⟩)
    case rom => exact .inr (.inr ⟨o, rfl⟩)
    all_goals
      rw [cellOf_of_decode hd rfl] at h
      cases h

/-- A byte write to BIOS, ROM or an unmapped address has no effect (R53). -/
theorem write8With_no_cell (h : cellOf a = none) (v : Byte) (s : State) : write8With f a v s = .next s := by
  rcases decode_of_no_cell h with hd | ⟨o, hd⟩ | ⟨o, hd⟩ <;> simp only [write8With, hd]

/-- A halfword write to BIOS, ROM or an unmapped address has no effect (R53). -/
theorem write16With_no_cell (h : cellOf (align2 a) = none) (v : Half) (s : State) :
    write16With f a v s = .next s := by
  rcases decode_of_no_cell h with hd | ⟨o, hd⟩ | ⟨o, hd⟩ <;> simp only [write16With, hd]

/-- A word write to BIOS, ROM or an unmapped address has no effect (R53). -/
theorem write32With_no_cell (h : cellOf (align4 a) = none) (v : Word) (s : State) :
    write32With f a v s = .next s := by
  have hlo : cellOf (align2 (align4 a)) = none := by rwa [align2_align4]
  have hhi : cellOf (align2 (align4 a + 2#32)) = none := by
    rw [align2_align4_add_two]
    exact cellOf_align4_add_two_eq_none h
  rw [write32With, write16With_no_cell hlo, andThen_next, write16With_no_cell hhi]

end NoCell

/-- Settles O31: the write answers the state it began in, and the machine advances. -/
theorem storesWithoutStorageAreIgnored : Obligations.StoresWithoutStorageAreIgnored := by
  intro c u rn rd imm12 immH immL s hc
  have hadv := advancePc_onlyAdvances s
  refine ⟨fun h => ⟨_, ?_, hadv⟩, fun h => ⟨_, ?_, hadv⟩, fun h => ⟨_, ?_, hadv⟩⟩
  · rw [exec_str hc, write32, write32With_no_cell h, thenAdvance_next]
  · rw [exec_strb hc, write8, write8With_no_cell h, thenAdvance_next]
  · rw [exec_strh hc, write16, write16With_no_cell h, thenAdvance_next]

/-! ### IO registers without an observer -/

/-- A cell of the IO block stands behind the offset it is counted by. -/
theorem decode_of_io_cell {a : Word} {o : Nat} (h : cellOf a = some (0x04000000 + o)) (ho : o < 0x400) :
    decodeAddr a = some (.io, o) := by
  obtain ⟨r, p, hd, hr, hp, hk⟩ := decode_of_cellOf h
  obtain ⟨rfl, rfl⟩ := cell_inj (q := .io) hr rfl hp ho hk.symm
  exact hd

/-- The Ppu observes no offset from 0x010 up and not 0x002 (R211). -/
theorem ppuOnIoWrite_unobserved (s : State) {o : Nat} (v : Half) (ho : o = 0x002 ∨ 0x010 ≤ o) :
    s.ppuOnIoWrite o v = s := by
  unfold State.ppuOnIoWrite
  split_ifs
  case neg => rfl
  all_goals omega

/-- A channel's control register is at one of four offsets (R241). -/
theorem dmaChannelAt_eq_none {o : Nat} (h : ¬ (o = 0x0BA ∨ o = 0x0C6 ∨ o = 0x0D2 ∨ o = 0x0DE)) :
    dmaChannelAt o = none := by
  simp only [not_or] at h
  simp [dmaChannelAt, dmaControl, dmaWindow, h]

/-- A halfword starts no channel where it is at no control register, or its bit 15 is clear (R241). -/
theorem dmaTrigger_eq_none {o : Nat} {v : Half}
    (h : o = 0x0BA ∨ o = 0x0C6 ∨ o = 0x0D2 ∨ o = 0x0DE → v.getLsbD 15 = false) : dmaTrigger o v = none := by
  unfold dmaTrigger
  by_cases hv : v.getLsbD 15 = true
  · rw [if_pos hv]
    refine dmaChannelAt_eq_none fun ho => ?_
    rw [h ho] at hv
    cases hv
  · rw [if_neg hv]

/-- A halfword write to an IO register that no observer reacts to stores its two bytes (R60, R61). -/
theorem write16With_unobserved {f : Fin 4 → State → Result} {a : Word} {o : Nat} {v : Word}
    (hd : decodeAddr (align2 a) = some (.io, o)) (ho : o = 0x002 ∨ 0x010 ≤ o)
    (ht : dmaTrigger o (lowHalf v) = none) (s : State) :
    ∃ t, write16With f a (lowHalf v) s = .next t ∧ StoresBytes s t (0x04000000 + o) 2 v := by
  have hlt : o < 0x400 := decodeAddr_lt_capacity hd
  refine ⟨s.setIo16 o (lowHalf v), ?_, ?_⟩
  · simp only [write16With, hd, ioWrite16With, ht, State.ioStore, ppuOnIoWrite_unobserved _ _ ho]
  · rw [State.setIo16, byteOf_lowHalf_zero, byteOf_lowHalf_one]
    exact storesBytes_setByte_setByte s v (.inl (by omega))

/-- Settles O32: the register's halfword is stored as in a plain region, and the machine advances. -/
theorem strhToOtherIoIsAStore : Obligations.StrhToOtherIoIsAStore := by
  intro c u rn rd immH immL s o hc hcell ho hlt hdma
  have htrig : dmaTrigger o (lowHalf (s.reg rd)) = none :=
    dmaTrigger_eq_none fun h => by simpa [lowHalf] using hdma h
  obtain ⟨t, ht, hst⟩ := write16With_unobserved (f := runTransfer) (decode_of_io_cell hcell hlt) ho htrig s
  have hbus : SameOutsideBus s t := write16_keeps (keptByTransfers_sameOutsideBus s) (.refl s) ht
  refine ⟨t.advancePc, ?_, hst.advancePc, hbus.cpuAdvances⟩
  rw [exec_strh hc, write16, ht, thenAdvance_next]

end Sys2Proof.Machine

/-! # Proofs: the encoding (30_encoding.md) -/

namespace Sys2Proof.Machine

/-! ## Decoding an encoded instruction -/

/-- The four bytes of a word at the front of a list decode to its instruction and leave the rest (R91). -/
theorem decode_wordBytes_append (w : Word) (rest : List Byte) :
    decode (wordBytes w ++ rest) = .ok (decodeWord w, rest) := by
  simp only [wordBytes, List.cons_append, List.nil_append, decode, le32_bytes]

/-- The word of a well-formed instruction decodes to the instruction (R93, R101). -/
theorem decodeWord_encode {i : Instr} (h : i.wf = true) : decodeWord (encode i) = i := by
  cases i
  case b => exact Laws.RoundTrip.b _ _ h
  case bl => exact Laws.RoundTrip.bl _ _ h
  case andImm => exact Laws.RoundTrip.andImm _ _ _ _ _ _ h
  case andReg => exact Laws.RoundTrip.andReg _ _ _ _ _ h
  case subImm => exact Laws.RoundTrip.subImm _ _ _ _ _ _ h
  case subReg => exact Laws.RoundTrip.subReg _ _ _ _ _ h
  case addImm => exact Laws.RoundTrip.addImm _ _ _ _ _ _ h
  case addReg => exact Laws.RoundTrip.addReg _ _ _ _ _ h
  case orrImm => exact Laws.RoundTrip.orrImm _ _ _ _ _ _ h
  case orrReg => exact Laws.RoundTrip.orrReg _ _ _ _ _ h
  case movImm => exact Laws.RoundTrip.movImm _ _ _ _ _ _ h
  case movReg => exact Laws.RoundTrip.movReg _ _ _ _ _ h
  case cmpImm => exact Laws.RoundTrip.cmpImm _ _ _ _ _ _ h
  case cmpReg => exact Laws.RoundTrip.cmpReg _ _ _ _ _ h
  case tstImm => exact Laws.RoundTrip.tstImm _ _ _ _ _ _ h
  case tstReg => exact Laws.RoundTrip.tstReg _ _ _ _ _ h
  case str => exact Laws.RoundTrip.str _ _ _ _ _ h
  case ldr => exact Laws.RoundTrip.ldr _ _ _ _ _ h
  case strb => exact Laws.RoundTrip.strb _ _ _ _ _ h
  case ldrb => exact Laws.RoundTrip.ldrb _ _ _ _ _ h
  case strh => exact Laws.RoundTrip.strh _ _ _ _ _ _ h
  case ldrh => exact Laws.RoundTrip.ldrh _ _ _ _ _ _ h
  case stm => exact Laws.RoundTrip.stm _ _ _ _ _ _ _ h
  case swi => exact Laws.RoundTrip.swi _ _ h
  case nopUnimplemented => exact Laws.RoundTrip.nopUnimplemented _ _ h

/-- Settles O2: the front four bytes make the word of the instruction, and that word decodes to it. -/
theorem decodeOfEncode : Obligations.DecodeOfEncode := by
  intro i rest h
  rw [encodeBytes, decode_wordBytes_append, decodeWord_encode h]

/-! ## Encoding a decoded word

Each format, given the fields of a word, is that word: its pieces are the word under masks that together
cover all 32 bits. -/

section Formats

variable {w : Word}

/-- A value put back into the field it was found in is the word under the field's mask. -/
theorem place_of_field {lo n : Nat} {v : BitVec n} (h : field w lo n = v) :
    place v lo = w &&& place (BitVec.allOnes n) lo := by
  rw [← h, place_field]

/-- The same for a one-bit field. -/
theorem placeFlag_of_flagAt {k : Nat} {b : Bool} (h : flagAt w k = b) :
    placeFlag b k = w &&& place (BitVec.allOnes 1) k := by
  rw [← h, placeFlag_flagAt, place_field]

/-- A word under a mask of all bits is the word. -/
theorem and_eq_self_of_full {m : Word} (h : m = BitVec.allOnes 32) : w &&& m = w := by
  rw [h, BitVec.and_allOnes]

theorem formatBr_fields {l : Bool} (hc : field w 25 3 = 5#3) (hl : flagAt w 24 = l) :
    formatBr (Cond.ofBits (field w 28 4)) l (field w 0 24) = w := by
  simp only [formatBr, Cond.bits_ofBits, place_of_field hc, placeFlag_of_flagAt hl, place_field,
    ← BitVec.and_or_distrib_left]
  exact and_eq_self_of_full (by decide)

theorem formatDpImm_fields {op : BitVec 4} (hc : field w 25 3 = 1#3) (ho : field w 21 4 = op) :
    formatDpImm (Cond.ofBits (field w 28 4)) op (flagAt w 20) (regAt w 16) (regAt w 12) (field w 8 4)
      (field w 0 8) = w := by
  simp only [formatDpImm, Cond.bits_ofBits, place_of_field hc, place_of_field ho, placeFlag_flagAt,
    placeReg_regAt, place_field, ← BitVec.and_or_distrib_left]
  exact and_eq_self_of_full (by decide)

theorem formatDpReg_fields {op : BitVec 4} (hc : field w 25 3 = 0#3) (h0 : field w 4 8 = 0#8)
    (ho : field w 21 4 = op) :
    formatDpReg (Cond.ofBits (field w 28 4)) op (flagAt w 20) (regAt w 16) (regAt w 12) (regAt w 0) = w := by
  simp only [formatDpReg, Cond.bits_ofBits, place_of_field hc, place_of_field h0, place_of_field ho,
    placeFlag_flagAt, placeReg_regAt, place_field, ← BitVec.and_or_distrib_left]
  exact and_eq_self_of_full (by decide)

theorem formatLsImm_fields {b l : Bool} (hc : field w 25 3 = 2#3) (hp : flagAt w 24 = true)
    (hw : flagAt w 21 = false) (hb : flagAt w 22 = b) (hl : flagAt w 20 = l) :
    formatLsImm (Cond.ofBits (field w 28 4)) (flagAt w 23) b l (regAt w 16) (regAt w 12) (field w 0 12) =
      w := by
  simp only [formatLsImm, Cond.bits_ofBits, place_of_field hc, placeFlag_of_flagAt hp, placeFlag_of_flagAt hw,
    placeFlag_of_flagAt hb, placeFlag_of_flagAt hl, placeFlag_flagAt,
    placeReg_regAt, place_field, ← BitVec.and_or_distrib_left]
  exact and_eq_self_of_full (by decide)

theorem formatLshImm_fields {l : Bool} (hc : field w 25 3 = 0#3) (hp : flagAt w 24 = true)
    (hi : flagAt w 22 = true) (hw : flagAt w 21 = false) (ht : field w 4 4 = 11#4) (hl : flagAt w 20 = l) :
    formatLshImm (Cond.ofBits (field w 28 4)) (flagAt w 23) l (regAt w 16) (regAt w 12) (field w 8 4)
      (field w 0 4) = w := by
  simp only [formatLshImm, Cond.bits_ofBits, place_of_field hc, place_of_field ht, placeFlag_of_flagAt hp,
    placeFlag_of_flagAt hi, placeFlag_of_flagAt hw, placeFlag_of_flagAt hl,
    placeFlag_flagAt, placeReg_regAt, place_field,
    ← BitVec.and_or_distrib_left]
  exact and_eq_self_of_full (by decide)

theorem formatStm_fields (hc : field w 25 3 = 4#3) (hl : flagAt w 20 = false) :
    formatStm (Cond.ofBits (field w 28 4)) (flagAt w 24) (flagAt w 23) (flagAt w 22) (flagAt w 21)
      (regAt w 16) (field w 0 16) = w := by
  simp only [formatStm, Cond.bits_ofBits, place_of_field hc, placeFlag_of_flagAt hl,
    placeFlag_flagAt, placeReg_regAt, place_field, ← BitVec.and_or_distrib_left]
  exact and_eq_self_of_full (by decide)

theorem formatSwi_fields (hc : field w 24 4 = 15#4) :
    formatSwi (Cond.ofBits (field w 28 4)) (field w 0 24) = w := by
  simp only [formatSwi, Cond.bits_ofBits, place_of_field hc, place_field, ← BitVec.and_or_distrib_left]
  exact and_eq_self_of_full (by decide)

theorem formatAny_fields : formatAny (Cond.ofBits (field w 28 4)) (field w 0 28) = w := by
  simp only [formatAny, Cond.bits_ofBits, place_field, ← BitVec.and_or_distrib_left]
  exact and_eq_self_of_full (by decide)

end Formats

/-- The instruction stands for the word: it is well-formed, and the word is its encoding (R99). -/
structure Represents (i : Instr) (w : Word) : Prop where
  wf : i.wf = true
  encodes : encode i = w

section Classes

variable {w : Word}

/-- Bits 27:24 of SWI put it in class 111, so a word of another class is no SWI (R99). -/
theorem ne_swi_of_class {k : BitVec 3} (hc : field w 25 3 = k) (hk : k ≠ 7#3) : field w 24 4 ≠ 15#4 := by
  intro h
  have e : field w 25 3 = (field w 24 4).extractLsb' 1 3 := by
    ext j hj
    have hj4 : 1 + j < 4 := by omega
    simp [field, hj4, ← Nat.add_assoc]
  exact hk (by rw [← hc, e, h]; decide)

/-- Bits 11:4 of a register form are 0, so bits 7:4 are not the tag of a halfword transfer (R99). -/
theorem ne_tag_of_dataReg (hz : field w 4 8 = 0#8) : field w 4 4 ≠ 11#4 := by
  have e : field w 4 4 = (field w 4 8).extractLsb' 0 4 := by
    ext j hj
    have hj8 : j < 8 := by omega
    simp [field, hj8]
  rw [e, hz]
  decide

/-- The catch-all stands for a word whose fields avoid every row (R195). -/
theorem decodeNop_represents (h : OffRows w) : Represents (decodeNop (Cond.ofBits (field w 28 4)) w) w where
  wf := (onNoRow_iff w).2 h
  encodes := formatAny_fields

/-- A data-processing immediate stands for its word: the row of its opcode, or the catch-all (R100). -/
theorem decodeDataImm_represents (hc : field w 25 3 = 1#3) :
    Represents (decodeDataImm (Cond.ofBits (field w 28 4)) w) w := by
  have hs := ne_swi_of_class hc (by decide)
  unfold decodeDataImm
  dsimp only
  split_ifs with h0 h1 h2 h3 h4 h5 h6
  exacts [⟨rfl, formatDpImm_fields hc h0⟩, ⟨rfl, formatDpImm_fields hc h1⟩, ⟨rfl, formatDpImm_fields hc h2⟩,
    ⟨rfl, formatDpImm_fields hc h3⟩, ⟨rfl, formatDpImm_fields hc h4⟩, ⟨rfl, formatDpImm_fields hc h5⟩,
    ⟨rfl, formatDpImm_fields hc h6⟩,
    decodeNop_represents (by constructor <;> simp [hc, hs, h0, h1, h2, h3, h4, h5, h6])]

/-- A data-processing register form stands for its word: the row of its opcode, or the catch-all (R100). -/
theorem decodeDataReg_represents (hc : field w 25 3 = 0#3) (hz : field w 4 8 = 0#8) :
    Represents (decodeDataReg (Cond.ofBits (field w 28 4)) w) w := by
  have hs := ne_swi_of_class hc (by decide)
  have ht := ne_tag_of_dataReg hz
  unfold decodeDataReg
  dsimp only
  split_ifs with h0 h1 h2 h3 h4 h5 h6
  exacts [⟨rfl, formatDpReg_fields hc hz h0⟩, ⟨rfl, formatDpReg_fields hc hz h1⟩,
    ⟨rfl, formatDpReg_fields hc hz h2⟩, ⟨rfl, formatDpReg_fields hc hz h3⟩,
    ⟨rfl, formatDpReg_fields hc hz h4⟩, ⟨rfl, formatDpReg_fields hc hz h5⟩,
    ⟨rfl, formatDpReg_fields hc hz h6⟩,
    decodeNop_represents (by constructor <;> simp [hc, hs, ht, h0, h1, h2, h3, h4, h5, h6])]

/-- A word or byte transfer stands for its word, whatever its B and L bits (R93). -/
theorem decodeTransfer_represents (hc : field w 25 3 = 2#3) (hp : flagAt w 24 = true) (hw : flagAt w 21 = false) :
    Represents (decodeTransfer (Cond.ofBits (field w 28 4)) w) w := by
  unfold decodeTransfer
  split <;> next hb hl => exact ⟨rfl, formatLsImm_fields hc hp hw hb hl⟩

/-- A halfword transfer stands for its word, whatever its L bit (R93). -/
theorem decodeHalfword_represents (hc : field w 25 3 = 0#3) (hp : flagAt w 24 = true) (hi : flagAt w 22 = true)
    (hw : flagAt w 21 = false) (ht : field w 4 4 = 11#4) :
    Represents (decodeHalfword (Cond.ofBits (field w 28 4)) w) w := by
  unfold decodeHalfword
  split <;> next hl => exact ⟨rfl, formatLshImm_fields hc hp hi hw ht hl⟩

/-- What a word decodes to stands for it, class by class (R99). -/
theorem decodeWord_represents (w : Word) : Represents (decodeWord w) w := by
  unfold decodeWord
  dsimp only
  split_ifs with hbr himm hdp hz hhalf hls htr hstm hswi
  · split <;> next hl => exact ⟨rfl, formatBr_fields hbr hl⟩
  · exact decodeDataImm_represents himm
  · exact decodeDataReg_represents hdp hz
  · simp only [Bool.and_eq_true, Bool.not_eq_true', beq_iff_eq] at hhalf
    obtain ⟨⟨⟨hp, hi⟩, hw⟩, ht⟩ := hhalf
    exact decodeHalfword_represents hdp hp hi hw ht
  · have hs := ne_swi_of_class hdp (by decide)
    have hh : ¬ (flagAt w 24 = true ∧ flagAt w 22 = true ∧ flagAt w 21 = false ∧ field w 4 4 = 11#4) := by
      simpa using hhalf
    exact decodeNop_represents (by constructor <;> simp [hdp, hz, hs, hh])
  · obtain ⟨hp, hw⟩ := Bool.and_eq_true_iff.1 htr
    exact decodeTransfer_represents hls hp (by simpa using hw)
  · have hs := ne_swi_of_class hls (by decide)
    have ht : ¬ (flagAt w 24 = true ∧ flagAt w 21 = false) := by simpa using htr
    exact decodeNop_represents (by constructor <;> simp [hls, hs, ht])
  · have hs := ne_swi_of_class hstm (by decide)
    split
    · next hl => exact ⟨rfl, formatStm_fields hstm hl⟩
    · next hl => exact decodeNop_represents (by constructor <;> simp [hstm, hs, hl])
  · exact ⟨rfl, formatSwi_fields hswi⟩
  · exact decodeNop_represents (by constructor <;> simp [hbr, himm, hdp, hls, hstm, hswi])

end Classes

/-- Settles O3: an instruction that stands for a word is well-formed and encodes to it. -/
theorem encodeOfDecode : Obligations.EncodeOfDecode := by
  intro w
  obtain ⟨hwf, henc⟩ := decodeWord_represents w
  exact ⟨hwf, henc⟩

/-! ## The rows of the table

The mask of a row keeps exactly the fixed fields of its format, so that the word of an instruction matches its
own row. No word matches two rows, and a well-formed no-op matches none. -/

section Masks

variable {m : Word}

/-- A placed value has no bit outside its field. -/
theorem field_mask_and_place {n : Nat} (v : BitVec n) (lo : Nat) :
    place (BitVec.allOnes n) lo &&& place v lo = place v lo := by
  simp [place, ← BitVec.shiftLeft_and_distrib, ← BitVec.setWidth_and]

/-- A mask that holds a whole field keeps a value placed there. -/
theorem and_place_inside {n lo : Nat} (v : BitVec n)
    (h : m &&& place (BitVec.allOnes n) lo = place (BitVec.allOnes n) lo) : m &&& place v lo = place v lo := by
  rw [← field_mask_and_place v, ← BitVec.and_assoc, h]

/-- A mask without a bit of a field drops a value placed there. -/
theorem and_place_outside {n lo : Nat} (v : BitVec n) (h : m &&& place (BitVec.allOnes n) lo = 0#32) :
    m &&& place v lo = 0#32 := by
  rw [← field_mask_and_place v, ← BitVec.and_assoc, h, BitVec.zero_and]

end Masks

section Fixed

variable (c : Cond) (l s p u : Bool) (rn rd rm : Reg)

theorem formatBr_fixed (off : BitVec 24) :
    0x0F000000#32 &&& formatBr c l off = place 5#3 25 ||| placeFlag l 24 := by
  simp (disch := decide) only [formatBr, placeFlag, BitVec.and_or_distrib_left, and_place_inside,
    and_place_outside, BitVec.zero_or, BitVec.or_zero]

theorem formatDpImm_fixed (op rot : BitVec 4) (imm : BitVec 8) :
    0x0FE00000#32 &&& formatDpImm c op s rn rd rot imm = place 1#3 25 ||| place op 21 := by
  simp (disch := decide) only [formatDpImm, placeFlag, placeReg, BitVec.and_or_distrib_left, and_place_inside,
    and_place_outside, BitVec.zero_or, BitVec.or_zero]

theorem formatDpReg_fixed (op : BitVec 4) :
    0x0FE00FF0#32 &&& formatDpReg c op s rn rd rm = place 0#3 25 ||| place op 21 ||| place 0#8 4 := by
  simp (disch := decide) only [formatDpReg, placeFlag, placeReg, BitVec.and_or_distrib_left, and_place_inside,
    and_place_outside, BitVec.zero_or, BitVec.or_zero]

theorem formatLsImm_fixed (b : Bool) (imm : BitVec 12) :
    0x0F700000#32 &&& formatLsImm c u b l rn rd imm =
      place 2#3 25 ||| placeFlag true 24 ||| placeFlag b 22 ||| placeFlag false 21 ||| placeFlag l 20 := by
  simp (disch := decide) only [formatLsImm, placeFlag, placeReg, BitVec.and_or_distrib_left, and_place_inside,
    and_place_outside, BitVec.zero_or, BitVec.or_zero]

theorem formatLshImm_fixed (immH immL : BitVec 4) :
    0x0F7000F0#32 &&& formatLshImm c u l rn rd immH immL =
      place 0#3 25 ||| placeFlag true 24 ||| placeFlag true 22 ||| placeFlag false 21 ||| placeFlag l 20 |||
        place 11#4 4 := by
  simp (disch := decide) only [formatLshImm, placeFlag, placeReg, BitVec.and_or_distrib_left, and_place_inside,
    and_place_outside, BitVec.zero_or, BitVec.or_zero]

theorem formatStm_fixed (x : Bool) (list : BitVec 16) :
    0x0E100000#32 &&& formatStm c p u s x rn list = place 4#3 25 ||| placeFlag false 20 := by
  simp (disch := decide) only [formatStm, placeFlag, placeReg, BitVec.and_or_distrib_left, and_place_inside,
    and_place_outside, BitVec.zero_or, BitVec.or_zero]

theorem formatSwi_fixed (comment : BitVec 24) : 0x0F000000#32 &&& formatSwi c comment = place 15#4 24 := by
  simp (disch := decide) only [formatSwi, BitVec.and_or_distrib_left, and_place_inside, and_place_outside,
    BitVec.zero_or, BitVec.or_zero]

end Fixed

/-- The word of an instruction matches the row of the instruction (R93, R101). -/
theorem encode_matches_row (i : Instr) : ∀ e ∈ specRows, i.row = e.1 → e.2.1 &&& encode i = e.2.2 := by
  cases i <;> simp only [specRows, List.forall_mem_cons, Instr.row, Nat.reduceEqDiff, false_implies,
    true_and, and_true, forall_const, List.not_mem_nil, encode]
  case b | bl => rw [formatBr_fixed]; decide
  case andImm | subImm | addImm | orrImm | movImm | cmpImm | tstImm => rw [formatDpImm_fixed]; decide
  case andReg | subReg | addReg | orrReg | movReg | cmpReg | tstReg => rw [formatDpReg_fixed]; decide
  case str | ldr | strb | ldrb => rw [formatLsImm_fixed]; decide
  case strh | ldrh => rw [formatLshImm_fixed]; decide
  case stm => rw [formatStm_fixed]; decide
  case swi => rw [formatSwi_fixed]; decide

/-- No word matches two rows: two masks with their matches agree on the bits they share for one row only. -/
theorem specRows_disjoint : ∀ e ∈ specRows, ∀ e' ∈ specRows,
    e.2.2 &&& e'.2.1 = e'.2.2 &&& e.2.1 → e.1 = e'.1 := by decide

/-- The rows are counted from 0 to 24. -/
theorem row_lt (i : Instr) : i.row < 25 := by
  cases i <;> simp [Instr.row]

/-- The catch-all is the one row outside the table. -/
theorem row_outside_specRows : ∀ k < 25, (∀ e ∈ specRows, k ≠ e.1) ↔ k = 24 := by decide

/-- The rows of the table are those that the check of a no-op runs through, written on the whole word. -/
theorem specRows_masks : specRows.map (·.2) =
    instructionRows.map fun r => (r.1.setWidth 32, r.2.setWidth 32) := by decide

/-- The check of a no-op, on the whole word: it matches no row of the table (R195). -/
theorem onNoRow_iff_specRows (w : Word) :
    onNoRow (field w 0 28) = true ↔ ∀ e ∈ specRows, w &&& e.2.1 ≠ e.2.2 := by
  have h : (∀ e ∈ specRows, w &&& e.2.1 ≠ e.2.2) ↔ ∀ r ∈ specRows.map (·.2), w &&& r.1 ≠ r.2 := by
    simp only [List.forall_mem_map]
  rw [h, specRows_masks, List.forall_mem_map]
  simp only [onNoRow, List.all_eq_true, bne_iff_ne, ne_eq, rest_and_iff]

/-- The word of a well-formed catch-all matches no row of the table (R195). -/
theorem encode_matches_no_row {i : Instr} (hwf : i.wf = true) (h : i.row = 24) :
    ∀ e ∈ specRows, encode i &&& e.2.1 ≠ e.2.2 := by
  cases i
  case nopUnimplemented c rest =>
    have hr : field (formatAny c rest) 0 28 = rest := by
      simp (disch := omega) [formatAny, field_or, field_place_inside, field_place_beside]
    exact (onNoRow_iff_specRows _).1 (by rw [encode, hr]; exact hwf)
  all_goals simp [Instr.row] at h

/-- The word of a well-formed instruction matches a row exactly where the instruction stands on it. -/
theorem encode_matches_iff {i : Instr} (hwf : i.wf = true) :
    ∀ e ∈ specRows, encode i &&& e.2.1 = e.2.2 ↔ i.row = e.1 := by
  intro e he
  refine ⟨fun h => ?_, fun h => by rw [BitVec.and_comm]; exact encode_matches_row i e he h⟩
  by_contra hne
  have hin : i.row ≠ 24 := fun h24 => encode_matches_no_row hwf h24 e he h
  obtain ⟨e', he', hrow⟩ : ∃ e' ∈ specRows, i.row = e'.1 := by
    simpa using mt (row_outside_specRows _ (row_lt i)).1 hin
  have h' : encode i &&& e'.2.1 = e'.2.2 := by rw [BitVec.and_comm]; exact encode_matches_row i e' he' hrow
  refine hne (hrow.trans (specRows_disjoint e' he' e he ?_))
  rw [← h, ← h', BitVec.and_assoc, BitVec.and_assoc, BitVec.and_comm e'.2.1]

/-- Settles O4: a word is the encoding of what it decodes to, and an encoding matches its own row only. -/
theorem decodeFollowsTheRows : Obligations.DecodeFollowsTheRows := by
  intro w
  obtain ⟨hwf, henc⟩ := decodeWord_represents w
  have hrows := encode_matches_iff hwf
  rw [henc] at hrows
  refine ⟨hrows, ?_⟩
  rw [← row_outside_specRows _ (row_lt _)]
  exact forall₂_congr fun e he => not_congr (hrows e he)

/-! ## The condition field -/

section Condition

variable {c : Cond} {s : State}

/-- Every instruction runs under its condition field (R97). -/
theorem exec_eq_whenPassed (i : Instr) (s : State) : ∃ body, exec i s = whenPassed i.cond s body := by
  cases i <;> exact ⟨_, rfl⟩

/-- A condition that fails leaves the default advance (R98). -/
theorem whenPassed_false (body : Result) (h : condPassed c s.cpsr = some false) :
    whenPassed c s body = .next s.advancePc := by
  simp [whenPassed, h]

/-- A condition without a meaning is refused (R97, U1). -/
theorem whenPassed_none (body : Result) (h : condPassed c s.cpsr = none) :
    whenPassed c s body = .refused (.unassignedCondition c) := by
  simp [whenPassed, h]

theorem condPassed_of_fails {cpsr : Word} (h : CondFails c cpsr) : condPassed c cpsr = some false := by
  cases c <;> simp_all [CondFails, condPassed, flagN, flagZ]

theorem condPassed_of_unassigned (h : CondUnassigned c) (cpsr : Word) : condPassed c cpsr = none := by
  rcases h with rfl | rfl | rfl | rfl | rfl | rfl | rfl | rfl | rfl | rfl | rfl <;> rfl

/-- An instruction whose condition fails advances, whatever it is (R98). -/
theorem exec_of_fails {i : Instr} (h : CondFails i.cond s.cpsr) : exec i s = .next s.advancePc := by
  obtain ⟨body, hb⟩ := exec_eq_whenPassed i s
  rw [hb, whenPassed_false body (condPassed_of_fails h)]

end Condition

/-- Settles O8: every instruction runs under its condition, and this one has no meaning. -/
theorem unassignedConditionIsRefused : Obligations.UnassignedConditionIsRefused := by
  intro i s h
  obtain ⟨body, hb⟩ := exec_eq_whenPassed i s
  rw [hb, whenPassed_none body (condPassed_of_unassigned h s.cpsr)]

/-- Settles O9: a failed condition leaves the default advance, which is a no-op. -/
theorem failedConditionOnlyAdvances : Obligations.FailedConditionOnlyAdvances :=
  fun _ s h => ⟨s.advancePc, exec_of_fails h, advancePc_onlyAdvances s⟩

/-! ## Fixed words -/

/-- Settles O1: ten closed words, each by running the decoder. -/
theorem specWordsDecode : Obligations.SpecWordsDecode := by
  unfold Obligations.SpecWordsDecode
  decide

end Sys2Proof.Machine

/-! # Proofs: branches (40_branch.md) -/

namespace Sys2Proof.Machine

/-! ## The target -/

/-- The offset of a branch is four times its field, read as a signed number (R94). -/
theorem branchOffset_eq_ofInt (offset24 : BitVec 24) :
    branchOffset offset24 = BitVec.ofInt 32 (4 * offset24.toInt) := by
  rw [branchOffset, BitVec.signExtend, BitVec.toInt_append]
  simp

/-- The target is counted from R15, which is `A + 8` (R13, R121). -/
theorem State.branchTarget_eq (s : State) (offset24 : BitVec 24) :
    s.branchTarget offset24 = s.reg 15 + BitVec.ofInt 32 (4 * offset24.toInt) := by
  rw [State.branchTarget, State.instrAddr, BitVec.sub_add_cancel, branchOffset_eq_ofInt]

/-! ## The two instructions -/

section Branches

variable {c : Cond} {s : State}

/-- B, where its condition holds: the redirection to the target (R121). -/
theorem exec_b (h : CondHolds c s.cpsr) (offset24 : BitVec 24) :
    exec (.b c offset24) s = .next (s.nextInstr (s.branchTarget offset24)) :=
  whenPassed_true _ (condPassed_of_holds h)

/-- BL, where its condition holds: the return address, then the redirection to the target (R122). -/
theorem exec_bl (h : CondHolds c s.cpsr) (offset24 : BitVec 24) :
    exec (.bl c offset24) s =
      .next ((s.setReg 14 (s.instrAddr + 4#32)).nextInstr (s.branchTarget offset24)) :=
  whenPassed_true _ (condPassed_of_holds h)

end Branches

/-- Settles O18: a redirection to the target, by an instruction that touches the CPU alone. -/
theorem branchGoesToTheTarget : Obligations.BranchGoesToTheTarget := by
  intro c offset24 s hc
  have h := exec_b hc offset24
  have hout := exec_sameOutsideCpu h rfl
  refine ⟨_, h, ?_, fun i hi => State.reg_nextInstr _ _ hi, rfl, hout, hout.sameBytes⟩
  rw [State.reg15_nextInstr, State.branchTarget_eq]

/-- Settles O19: B's redirection from the state in which R14 holds `A + 4`. -/
theorem branchWithLinkReturns : Obligations.BranchWithLinkReturns := by
  intro c offset24 s hc
  have h := exec_bl hc offset24
  have hout := exec_sameOutsideCpu h rfl
  refine ⟨_, h, ?_, ?_, fun i h14 h15 => ?_, rfl, hout, hout.sameBytes⟩
  · rw [State.reg15_nextInstr, State.branchTarget_eq]
  · rw [State.reg_nextInstr _ _ (by decide), State.reg_setReg_same, State.instrAddr]
    bv_omega
  · rw [State.reg_nextInstr _ _ h15, State.reg_setReg_other _ _ h14]

/-! ## The branch to itself -/

/-- Aligning an address whose low bits are 0 changes nothing (R15). -/
theorem align4_eq_self {a : Word} (h : a.extractLsb' 0 2 = 0#2) : align4 a = a := by
  have hlow : a.toNat % 4 = 0 := by simpa using congrArg BitVec.toNat h
  apply BitVec.eq_of_toNat_eq
  rw [align4_toNat]
  omega

/-- A redirection to `A`, where R15 is aligned, leaves R15 as it is (R13, R15). -/
theorem redirection_to_self {a : Word} (h : a.extractLsb' 0 2 = 0#2) :
    ((a - 8#32) &&& 0xFFFFFFFC#32) + 8#32 = a := by
  have hlow : (a - 8#32).extractLsb' 0 2 = 0#2 := by
    rw [← BitVec.add_neg_eq_sub, BitVec.extractLsb'_add (by decide), h]
    rfl
  rw [← align4, align4_eq_self hlow, BitVec.sub_add_cancel]

/-- The clock changes no byte the Bus reads but the four of DISPSTAT and VCOUNT (R203, R206). -/
theorem SameOutsideTime.read8 {s t : State} (h : SameOutsideTime s t) {a : Word}
    (ha : ∀ i, i < 4 → cellOf a ≠ some (0x04000004 + i)) : t.read8 a = s.read8 a := by
  cases hk : cellOf a with
  | none => exact State.read8_of_no_cell hk h.cfg h.rom
  | some k =>
    have hout : k < 0x04000004 ∨ 0x04000008 ≤ k := by
      by_contra hin
      refine ha (k - 0x04000004) (by omega) ?_
      rw [hk, Option.some.injEq]
      omega
    rw [State.read8_of_cell t hk, State.read8_of_cell s hk, h.mem k hout]

/-- A step whose instruction completes completes, and the clock then keeps what it keeps (R6). -/
theorem step_of_exec {s u : State} (h : exec (decodeWord s.fetch) s = .next u) :
    ∃ t, step s = .next t ∧ SameOutsideTime u t :=
  ⟨_, step_eq_next.2 ⟨u, h, rfl⟩, advance_sameOutsideTime u _⟩

/-- The word 0xEAFFFFFE is B under the condition AL, two words back from R15 (R101, R121). -/
theorem decodeWord_selfBranch : decodeWord 0xEAFFFFFE#32 = .b .al 0xFFFFFE#24 := by decide

/-- Its target is the instruction itself, at `R15 - 8` (R121). -/
theorem selfBranch_target (a : Word) : a + BitVec.ofInt 32 (4 * (0xFFFFFE#24).toInt) = a - 8#32 := by
  have hoff : BitVec.ofInt 32 (4 * (0xFFFFFE#24).toInt) = -8#32 := by decide
  rw [hoff, BitVec.add_neg_eq_sub]

/-- Settles O7: B redirects to where R15 points already and keeps the rest; the clock keeps the CPU, and every
byte but those of the status registers. -/
theorem selfBranchStays : Obligations.SelfBranchStays := by
  intro s halign hword
  obtain ⟨u, hu, hpc, hothers, hcpsr, _, hbytes⟩ := branchGoesToTheTarget .al 0xFFFFFE#24 s trivial
  rw [selfBranch_target, redirection_to_self halign] at hpc
  have hregs : ∀ i : Reg, u.reg i = s.reg i := by
    intro i
    by_cases hi : i = 15
    · rw [hi, hpc]
    · exact hothers i hi
  have hfetch : s.fetch = 0xEAFFFFFE#32 := hword
  obtain ⟨t, ht, htime⟩ := step_of_exec (s := s) (by rw [hfetch, decodeWord_selfBranch, hu])
  have hclock : ∀ i : Reg, t.reg i = s.reg i := fun i => (State.reg_congr htime.regs i).trans (hregs i)
  have hdebug : t.debugView.pc = s.debugView.pc := congrArg (· - 8#32) (hclock 15)
  exact ⟨t, ht, hdebug, hclock, htime.cpsr.trans hcpsr,
    fun a ha => (htime.read8 ha).trans (hbytes a)⟩

end Sys2Proof.Machine

/-! # Proofs: data processing (41_data_processing.md) -/

namespace Sys2Proof.Machine

/-! ## Operands and results in the words of the claims -/

/-- The rotation that the machine runs is the one R7 writes out: its count, twice `rot`, is below 32 (R95). -/
theorem immOperand_eq_rotatedImm (rot : BitVec 4) (imm8 : BitVec 8) : immOperand rot imm8 = rotatedImm rot imm8 := by
  have hcount : 2 * rot.toNat < 32 := by omega
  rw [immOperand, ror, BitVec.rotateRight_def, Nat.mod_eq_of_lt hcount, rotatedImm]

/-- The difference of two words is the integer difference modulo 2^32 (R134, R138). -/
theorem word_sub_eq_ofInt (a b : Word) : a - b = BitVec.ofInt 32 (a.toNat - b.toNat) := by
  rw [Int.sub_eq_add_neg, BitVec.ofInt_add, BitVec.ofInt_neg, BitVec.sub_eq_add_neg]
  simp

/-! ## What a result write and a flag write do -/

/-- `SetNZ` where the encoding asks for it, in the words of the claims (R18, R132). -/
theorem flagsFrom_of_setNZIf {s t : State} {b : Bool} {v : Word} (h : t.cpsr = (s.setNZIf b v).cpsr) :
    FlagsFrom s t b v := by
  rw [State.setNZIf_cpsr] at h
  cases b with
  | true => exact flagsFrom_of_nzCpsr h
  | false => constructor <;> rw [h] <;> rfl

/-- A result write in the words of the claims, from a state `u` that has the registers of `s` (R14, R15). -/
theorem writesRd_of_writeRd {s u : State} {rd : Reg} {v : Word} (hu : ∀ r, u.reg r = s.reg r)
    (hout : SameOutsideCpu s (u.writeRd rd v)) : WritesRd s (u.writeRd rd v) rd v where
  toR15 h := by rw [State.reg_writeRd, if_pos rfl, if_pos h]
  toRd h := by
    rw [State.reg_writeRd, if_neg h, if_pos rfl, State.reg_writeRd, if_pos rfl, if_neg h, hu]
    exact ⟨rfl, rfl⟩
  others r hr h15 := by rw [State.reg_writeRd_other _ _ h15 hr, hu]
  rest := hout
  bytes := hout.sameBytes

section DataProcessing

variable {c : Cond} {i : Instr} {s : State} {b : Bool} {rd : Reg} {v : Word}

/-- An instruction that ends in `DPWrite(v)` gives the result `v`, where its condition holds (R132, R141). -/
theorem givesResult_of_dpWrite (hc : CondHolds c s.cpsr)
    (hi : exec i s = whenPassed c s (.next (s.dpWrite b rd v))) : GivesResult i s b rd v := by
  refine ⟨s.dpWrite b rd v, ?_, ?_, ?_⟩
  · rw [hi, whenPassed_true _ (condPassed_of_holds hc)]
  · exact writesRd_of_writeRd (State.reg_setNZIf s b v) (dpWrite_sameOutsideCpu s b rd v)
  · exact flagsFrom_of_setNZIf (State.writeRd_cpsr _ rd v)

/-- An instruction that sets the flags from `v` and advances compares, where its condition holds (R138, R139). -/
theorem compares_of_setNZIf (hc : CondHolds c s.cpsr)
    (hi : exec i s = whenPassed c s (.next (s.setNZIf b v).advancePc)) : Compares i s b v := by
  have hout := setNZIf_advancePc_sameOutsideCpu s b v
  refine ⟨(s.setNZIf b v).advancePc, ?_, ?_, ?_, ?_, hout, hout.sameBytes⟩
  · rw [hi, whenPassed_true _ (condPassed_of_holds hc)]
  · exact flagsFrom_of_setNZIf (State.advancePc_cpsr _)
  · rw [State.reg15_advancePc, State.reg_setNZIf]
  · intro r hr
    rw [State.reg_advancePc _ hr, State.reg_setNZIf]

end DataProcessing

/-! ## The five instructions with a result -/

/-- Settles O11: both forms are a `DPWrite` of the conjunction. -/
theorem andResult : Obligations.AndResult := by
  constructor
  · intro c sBit rn rd rot imm8 s hc
    rw [← immOperand_eq_rotatedImm]
    exact givesResult_of_dpWrite hc rfl
  · intro c sBit rn rd rm s hc
    exact givesResult_of_dpWrite hc rfl

/-- Settles O12: both forms are a `DPWrite` of the difference of two words. -/
theorem subResult : Obligations.SubResult := by
  constructor
  · intro c sBit rn rd rot imm8 s hc
    rw [← word_sub_eq_ofInt, ← immOperand_eq_rotatedImm]
    exact givesResult_of_dpWrite hc rfl
  · intro c sBit rn rd rm s hc
    rw [← word_sub_eq_ofInt]
    exact givesResult_of_dpWrite hc rfl

/-- Settles O13: both forms are a `DPWrite` of the sum of two words, which is the sum modulo 2^32. -/
theorem addResult : Obligations.AddResult := by
  constructor
  · intro c sBit rn rd rot imm8 s hc
    rw [← BitVec.add_def, ← immOperand_eq_rotatedImm]
    exact givesResult_of_dpWrite hc rfl
  · intro c sBit rn rd rm s hc
    rw [← BitVec.add_def]
    exact givesResult_of_dpWrite hc rfl

/-- Settles O14: both forms are a `DPWrite` of the disjunction. -/
theorem orrResult : Obligations.OrrResult := by
  constructor
  · intro c sBit rn rd rot imm8 s hc
    rw [← immOperand_eq_rotatedImm]
    exact givesResult_of_dpWrite hc rfl
  · intro c sBit rn rd rm s hc
    exact givesResult_of_dpWrite hc rfl

/-- Settles O15: both forms are a `DPWrite` of the second operand; the `Rn` field is not read. -/
theorem movResult : Obligations.MovResult := by
  constructor
  · intro c sBit rn rd rot imm8 s hc
    rw [← immOperand_eq_rotatedImm]
    exact givesResult_of_dpWrite hc rfl
  · intro c sBit rn rd rm s hc
    exact givesResult_of_dpWrite hc rfl

/-! ## The two comparisons -/

/-- Settles O16: both forms set the flags from the difference, as TST does with the S-bit set, and advance. -/
theorem cmpSetsFlags : Obligations.CmpSetsFlags := by
  constructor
  · intro c sBit rn rd rot imm8 s hc
    rw [← word_sub_eq_ofInt, ← immOperand_eq_rotatedImm]
    exact compares_of_setNZIf hc rfl
  · intro c sBit rn rd rm s hc
    rw [← word_sub_eq_ofInt]
    exact compares_of_setNZIf hc rfl

/-- Settles O17: both forms set the flags from the conjunction where the S-bit asks for it, and advance. -/
theorem tstSetsFlags : Obligations.TstSetsFlags := by
  constructor
  · intro c sBit rn rd rot imm8 s hc
    rw [← immOperand_eq_rotatedImm]
    exact compares_of_setNZIf hc rfl
  · intro c sBit rn rd rm s hc
    exact compares_of_setNZIf hc rfl

end Sys2Proof.Machine

/-! # Proofs: loads and stores (42_load_store.md) -/

namespace Sys2Proof.Machine

/-! ## Effective addresses -/

/-- The offset of LSH_IMM is `immH` over `immL`, as a number (R165). -/
theorem immH_append_immL (immH immL : BitVec 4) :
    (immH ++ immL).setWidth 32 = BitVec.ofNat 32 (16 * immH.toNat + immL.toNat) := by
  rw [← BitVec.ofNat_toNat, BitVec.toNat_append, ← Nat.shiftLeft_add_eq_or_of_lt immL.isLt, Nat.shiftLeft_eq,
    Nat.mul_comm]

/-- Settles O20: each offset is the number its field holds, and the masks drop the low bits. -/
theorem effectiveAddresses : Obligations.EffectiveAddresses := by
  intro s rn imm12 immH immL a
  rw [BitVec.ofNat_toNat, ← immH_append_immL]
  exact ⟨rfl, rfl, rfl, rfl, align4_toNat a, align2_toNat a⟩

/-! ## Loads -/

/-- An instruction that writes `v` to `Rd` loads `v`, where its condition holds (R153, R157). -/
theorem loads_of_writeRd {c : Cond} {i : Instr} {s : State} {rd : Reg} {v : Word} (hc : CondHolds c s.cpsr)
    (hi : exec i s = whenPassed c s (.next (s.writeRd rd v))) : Loads i s rd v := by
  refine ⟨s.writeRd rd v, ?_, ?_, State.writeRd_cpsr s rd v⟩
  · rw [hi, whenPassed_true _ (condPassed_of_holds hc)]
  · exact writesRd_of_writeRd (fun _ => rfl) (writeRd_sameOutsideCpu s rd v)

/-- Settles O21: LDR writes the word read to `Rd`. -/
theorem ldrLoadsTheWord : Obligations.LdrLoadsTheWord :=
  fun _ _ _ _ _ _ hc => loads_of_writeRd hc rfl

/-- Settles O22: LDRB writes the byte read to `Rd`, zero-extended. -/
theorem ldrbLoadsTheByte : Obligations.LdrbLoadsTheByte := by
  intro c u rn rd imm12 s hc
  rw [BitVec.ofNat_toNat]
  exact loads_of_writeRd hc rfl

/-! ## Stores -/

/-- A Bus write that leaves the CPU alone and stores bytes still does so with the advance after it (R62, R98). -/
theorem thenAdvance_storesBytes {r : Result} {s : State} {k n : Nat} {v : Word}
    (hr : ∃ t, r = .next t ∧ StoresBytes s t k n v) (hbus : ∀ t, r = .next t → SameOutsideBus s t) :
    ∃ t, thenAdvance r = .next t ∧ StoresBytes s t k n v ∧ CpuAdvances s t := by
  obtain ⟨t, rfl, hst⟩ := hr
  exact ⟨t.advancePc, thenAdvance_next t, hst.advancePc, (hbus t rfl).cpuAdvances⟩

/-- Settles O28: the word write is its two halfword writes, and stores four bytes outside the IO block. -/
theorem strStoresTheWord : Obligations.StrStoresTheWord := by
  intro c u rn rd imm12 s hc
  refine ⟨?_, fun k hk hio => ?_⟩
  · rw [exec_str hc]
    exact andThen_assoc (write16 _ _ s) (write16 _ _) _
  · rw [exec_str hc]
    exact thenAdvance_storesBytes (write32With_storesBytes hk hio (s.reg rd) s)
      fun t ht => write32_keeps (keptByTransfers_sameOutsideBus s) (.refl s) ht

/-- Settles O29: the byte write stores its byte outside the IO block. -/
theorem strbStoresTheByte : Obligations.StrbStoresTheByte := by
  intro c u rn rd imm12 s hc
  refine ⟨exec_strb hc imm12, fun k hk hio => ?_⟩
  rw [exec_strb hc]
  exact thenAdvance_storesBytes (write8With_storesBytes hk hio (s.reg rd) s)
    fun t ht => write8_keeps (keptByTransfers_sameOutsideBus s) (.refl s) ht

end Sys2Proof.Machine

/-! # Proofs: halfword loads and stores (43_load_store_halfword.md) -/

namespace Sys2Proof.Machine

/-! ## LDRH -/

/-- Settles O23: LDRH writes the halfword read to `Rd`, zero-extended. -/
theorem ldrhLoadsTheHalfword : Obligations.LdrhLoadsTheHalfword := by
  intro c u rn rd immH immL s hc
  rw [BitVec.ofNat_toNat]
  exact loads_of_writeRd hc rfl

/-! ## STRH -/

/-- The halfword write drops bit 0 of its address, so aligning the address first changes nothing (R45). -/
theorem write16_align2 (a : Word) (v : Half) (s : State) : write16 (align2 a) v s = write16 a v s := by
  rw [write16, write16, write16With, write16With, align2_align2]

/-- Settles O30: the halfword write aligns its own address, and stores two bytes outside the IO block. -/
theorem strhStoresTheHalfword : Obligations.StrhStoresTheHalfword := by
  intro c u rn rd immH immL s hc
  refine ⟨?_, fun k hk hio => ?_⟩
  · rw [write16_align2]
    exact exec_strh hc immH immL
  · rw [exec_strh hc]
    exact thenAdvance_storesBytes (write16With_storesBytes hk hio (s.reg rd) s)
      fun t ht => write16_keeps (keptByTransfers_sameOutsideBus s) (.refl s) ht

end Sys2Proof.Machine

/-! # Proofs: block transfer (44_block_transfer.md) -/

namespace Sys2Proof.Machine

/-! ## Units side by side

Several stores one after the other, each beside the one before it: what an STM, a block service and a transfer do
to RAM. -/

/-- The Ppu is no part of the CPU. -/
theorem SameOutsideCpu.samePpu {s t : State} (h : SameOutsideCpu s t) : SamePpu s t :=
  ⟨h.currentScanline, h.cyclesToNextHBlank, h.lastRenderedLine, h.mDispcnt, h.mDispstat, h.mVcount, h.mBgcnt,
    h.pixels⟩

/-- The units `f 0` to `f (m - 1)`, of `n` bytes each, stand side by side in the cells from `k` on, through every
mirror, and every other byte and the rest of the machine are as a store leaves them (R44, R56, R58). -/
structure StoresUnits (s t : State) (k n m : Nat) (f : Nat → Word) : Prop where
  stored : ∀ (a : Word) (j i : Nat), j < m → i < n → cellOf a = some (k + n * j + i) → t.read8 a = byteOf (f j) i
  kept : ∀ a : Word, (∀ x, CellRange k (n * m) x → cellOf a ≠ some x) → t.read8 a = s.read8 a
  machine : SameMachine s t k (n * m)

namespace StoresUnits

variable {s t u : State} {k n m : Nat} {f : Nat → Word}

/-- No unit is stored in the state one begins in, and from an even cell on no palette entry is touched. -/
theorem zero (s : State) (hk : k % 2 = 0) : StoresUnits s s k n 0 f where
  stored _ _ _ hj := absurd hj (Nat.not_lt_zero _)
  kept _ _ := rfl
  machine := ⟨rfl, rfl, fun _ => (if_neg (by omega)).symm, by constructor <;> rfl⟩

/-- A store right behind the units adds the next one. -/
theorem snoc (h : StoresUnits s t k n m f) (hu : StoresBytes t u (k + n * m) n (f m)) :
    StoresUnits s u k n (m + 1) f where
  stored a j i hj hi ha := by
    rcases Nat.lt_succ_iff_lt_or_eq.1 hj with hlt | rfl
    · have hle : n * j + n ≤ n * m := by
        rw [← Nat.mul_succ]
        exact Nat.mul_le_mul_left n hlt
      rw [hu.kept a fun x _ e => by rw [ha, Option.some.injEq] at e; omega]
      exact h.stored a j i hlt hi ha
    · exact hu.stored a i hi ha
  kept a ha := by
    rw [Nat.mul_succ] at ha
    rw [hu.kept a fun i hi => ha _ ⟨by omega, by omega⟩]
    exact h.kept a fun x hx => ha x ⟨hx.1, by have := hx.2; omega⟩
  machine := by
    refine ⟨hu.cfg.trans h.machine.cfg, hu.rom.trans h.machine.rom, fun j => ?_, h.machine.ppu.trans hu.ppu⟩
    rw [Nat.mul_succ]
    by_cases hj : TouchesEntry (k + n * m) n j.val
    · rw [hu.palette j, if_pos hj, if_pos (by omega)]
    · rw [hu.palette j, if_neg hj, h.machine.palette j, hu.pal16_kept j hj]
      congr 1
      simp only [eq_iff_iff]
      omega

/-- Changes of the CPU leave alone what the stores speak of. -/
theorem outsideCpu (h : StoresUnits s t k n m f) (hu : SameOutsideCpu t u) : StoresUnits s u k n m f where
  stored a j i hj hi ha := (hu.sameBytes a).trans (h.stored a j i hj hi ha)
  kept a ha := (hu.sameBytes a).trans (h.kept a ha)
  machine := by
    refine ⟨hu.cfg.trans h.machine.cfg, hu.rom.trans h.machine.rom, fun j => ?_,
      h.machine.ppu.trans hu.samePpu⟩
    rw [hu.paletteCache, State.pal16, hu.mem]
    exact h.machine.palette j

/-- A word read at the cells of a stored word gives it (R44, R48). -/
theorem read32 (h : StoresUnits s t k 4 m f) {a : Word} {j : Nat} (hj : j < m)
    (ha : cellOf (align4 a) = some (k + 4 * j)) : t.read32 a = f j := by
  obtain ⟨r, o, hd, hr, -, -⟩ := decode_of_cellOf ha
  have hbyte {i : Nat} (hi : i < 4) : t.read8 (align4 a + BitVec.ofNat 32 i) = byteOf (f j) i :=
    h.stored _ j i hj hi (cellOf_align4_add ha hi)
  rw [t.read32_eq_bytes hd (by rintro rfl; cases hr), h.stored _ j 0 hj (by decide) ha, hbyte (by decide),
    hbyte (by decide), hbyte (by decide)]
  exact le32_bytes (f j)

end StoresUnits

/-- Writes that each store the next unit store all of them. -/
theorem runWrites_storesUnits {write : BusWrite → State → Result} {k n : Nat} {f : Nat → Word} {s : State}
    {l : List (State → BusWrite)} (hk : k % 2 = 0)
    (h : ∀ j w t, l[j]? = some w → StoresUnits s t k n j f →
      ∃ u, write (w t) t = .next u ∧ StoresBytes t u (k + n * j) n (f j)) :
    ∃ t, runWrites write l s = .next t ∧ StoresUnits s t k n l.length f := by
  induction l using List.reverseRecOn with
  | nil => exact ⟨s, rfl, .zero s hk⟩
  | append_singleton l w ih =>
    obtain ⟨t, ht, hst⟩ := ih fun j v t hv => h j v t (by
      rw [List.getElem?_append_left (List.getElem?_eq_some_iff.1 hv).1]
      exact hv)
    obtain ⟨u, hu, hlast⟩ := h l.length w t List.getElem?_concat_length hst
    refine ⟨u, ?_, ?_⟩
    · rw [runWrites_append, ht, andThen_next, runWrites, hu, andThen_next]
      rfl
    · rw [List.length_append, List.length_singleton]
      exact hst.snoc hlast

/-- The bytes of a range in RAM stand side by side in cells outside the IO block (R40). -/
theorem RamRange.cellOf_add {first : Word} {n i : Nat} (h : RamRange first n) (hi : i < n) :
    cellOf (first + BitVec.ofNat 32 i) = some (first.toNat + i) ∧ ¬ IsIoCell (first.toNat + i) := by
  obtain ⟨r, hr, hlo, hhi⟩ := h
  have hsum : first + BitVec.ofNat 32 i = BitVec.ofNat 32 (first.toNat + i) := by
    rw [BitVec.ofNat_add, BitVec.ofNat_toNat, BitVec.setWidth_eq]
  obtain ⟨o, ho⟩ := Nat.exists_eq_add_of_le (Nat.le_add_right_of_le (k := i) hlo)
  rw [hsum, ho]
  refine ⟨cellOf_of_isStorage (isStorage_of_lt ?_ (by omega)), ?_⟩
  · rcases hr with rfl | rfl | rfl | rfl | rfl <;> rfl
  · unfold IsIoCell
    rcases hr with rfl | rfl | rfl | rfl | rfl <;> simp only [Region.base, Region.capacity] at * <;> omega

/-! ## The registers an STM lists -/

/-- In a rising list, as many elements lie below the one at place `j` as stand before it. -/
theorem countP_lt_of_getElem? {l : List Reg} (hl : l.Pairwise (· < ·)) {j : Nat} {r : Reg} (h : l[j]? = some r) :
    l.countP (fun i => decide (i < r)) = j := by
  induction l generalizing j with
  | nil => simp at h
  | cons x xs ih =>
    obtain ⟨hx, hxs⟩ := List.pairwise_cons.1 hl
    cases j with
    | zero =>
      obtain rfl : x = r := by simpa using h
      rw [List.countP_eq_zero]
      intro i hi
      rcases List.mem_cons.1 hi with rfl | hi
      · simp
      · simpa using (hx i hi).le
    | succ j =>
      rw [List.getElem?_cons_succ] at h
      have hlt : x < r := hx r (List.mem_of_getElem? h)
      rw [List.countP_cons_of_pos (by simpa using hlt), ih hxs h]

/-- The register at place `j` of the list has `j` listed registers below it (R176). -/
theorem listedBelow_of_getElem? {reglist : BitVec 16} {j : Nat} {r : Reg}
    (h : (listedRegs reglist)[j]? = some r) : listedBelow reglist r = j := by
  have hsorted : (listedRegs reglist).Pairwise (· < ·) := (by decide : (List.finRange 16).Pairwise (· < ·)).filter _
  rw [← countP_lt_of_getElem? hsorted h, listedRegs, List.countP_filter, listedBelow]
  simp only [Bool.and_comm]

/-- The places of the list are those below the number of listed registers (R176). -/
theorem lt_listedCount_of_getElem? {reglist : BitVec 16} {j : Nat} {r : Reg}
    (h : (listedRegs reglist)[j]? = some r) : j < listedCount reglist := by
  rw [listedCount_eq]
  exact (List.getElem?_eq_some_iff.1 h).1

/-- A listed register stands at the place that counts the listed registers below it (R176). -/
theorem listedRegs_getElem?_listedBelow {reglist : BitVec 16} {r : Reg} (h : reglist.getLsbD r.val = true) :
    (listedRegs reglist)[listedBelow reglist r]? = some r := by
  have hmem : r ∈ listedRegs reglist := List.mem_filter.2 ⟨List.mem_finRange r, h⟩
  obtain ⟨j, hj⟩ := List.mem_iff_getElem?.1 hmem
  rwa [listedBelow_of_getElem? hj]

/-- The value of the `j`-th listed register, the one an STM stores in its `j`-th word (R176). -/
def State.listedValue (s : State) (reglist : BitVec 16) (j : Nat) : Word := s.reg ((listedRegs reglist).getD j 0)

theorem State.listedValue_of_getElem? (s : State) {reglist : BitVec 16} {j : Nat} {r : Reg}
    (h : (listedRegs reglist)[j]? = some r) : s.listedValue reglist j = s.reg r := by
  rw [State.listedValue, List.getD_eq_getElem?_getD, h, Option.getD_some]

/-! ## The stores of an STM -/

/-- Word writes, run as Bus writes, are word stores in their order. -/
theorem runWrites_word_eq_storeWords {α : Type} (l : List α) (a v : α → Word) (s : State) :
    runWrites BusWrite.perform (l.map fun x _ => .word (a x) (v x)) s = storeWords (l.map fun x => (a x, v x)) s := by
  induction l generalizing s with
  | nil => rfl
  | cons x xs ih =>
    rw [List.map_cons, List.map_cons, runWrites, storeWords]
    exact congrArg _ (funext ih)

/-- Aligning a word's address commutes with counting words from it. -/
theorem align4_add_words (a : Word) (j : Nat) :
    align4 (a + BitVec.ofNat 32 (4 * j)) = align4 a + BitVec.ofNat 32 (4 * j) := by
  apply BitVec.eq_of_toNat_eq
  rw [align4_toNat, BitVec.toNat_add, BitVec.toNat_add, align4_toNat, BitVec.toNat_ofNat]
  omega

/-- A register after the write-back (R176, R177). -/
theorem State.reg_writeBackIf (s : State) (w : Bool) (rn r : Reg) (v : Word) :
    (s.writeBackIf w rn v).reg r = if w = true ∧ r = rn then v else s.reg r := by
  cases w with
  | false => simp [State.writeBackIf]
  | true => simp [State.writeBackIf, State.reg_setReg]

theorem stmBase_eq (base : Word) (u : Bool) (reglist : BitVec 16) :
    stmBase base u (listedCount reglist) = stmWriteback base u reglist := by
  rw [stmBase, stmWriteback, stmBytes, listedCount_eq]

/-- The cells of an STM's `j`-th word, where its words lie in RAM (R176). -/
theorem RamRange.cellOf_word {start : Word} {n j : Nat} (h : RamRange (align4 start) (4 * n)) (hj : j < n) :
    cellOf (align4 (start + BitVec.ofNat 32 (4 * j))) = some ((align4 start).toNat + 4 * j) ∧
      ¬ IsIoCell ((align4 start).toNat + 4 * j) := by
  rw [align4_add_words]
  exact h.cellOf_add (by omega)

/-- Into RAM, or for the empty list, the stores of an STM complete, and each word holds its register (R176). -/
theorem storeRegs_storesUnits {reglist : BitVec 16} {start : Word}
    (h : listedCount reglist = 0 ∨ RamRange (align4 start) (4 * listedCount reglist)) (s : State) :
    ∃ t, storeRegs (listedRegs reglist) start s = .next t ∧
      StoresUnits s t (align4 start).toNat 4 (listedCount reglist) (s.listedValue reglist) := by
  have heven : (align4 start).toNat % 2 = 0 := by
    rw [align4_toNat]
    omega
  have hrun := runWrites_storesUnits (write := BusWrite.perform) (s := s) (f := s.listedValue reglist) (n := 4)
    (l := (listedRegs reglist).map fun r _ =>
      .word (start + BitVec.ofNat 32 (4 * listedBelow reglist r)) (s.reg r)) heven
    fun j w t hw _ => by
      rw [List.getElem?_map, Option.map_eq_some_iff] at hw
      obtain ⟨r, hr, rfl⟩ := hw
      have hj := lt_listedCount_of_getElem? hr
      obtain ⟨hcell, hio⟩ := (h.resolve_left (by omega)).cellOf_word hj
      rw [listedBelow_of_getElem? hr, s.listedValue_of_getElem? hr]
      exact write32With_storesBytes hcell hio (s.reg r) t
  rw [List.length_map, ← listedCount_eq] at hrun
  rw [storeRegs_eq]
  exact hrun

section Stm

variable {c : Cond} {p u x w : Bool} {rn : Reg} {reglist : BitVec 16} {s : State}

/-- STM, where its condition holds: the stores, the write-back, then the advance (R176, R177). -/
theorem exec_stm (hc : CondHolds c s.cpsr) (hn : ¬ (w = true ∧ rn = 15)) : exec (.stm c p u x w rn reglist) s =
    andThen (storeRegs (listedRegs reglist) (stmFirst (s.reg rn) p u (listedCount reglist)) s) fun t =>
      .next (t.writeBackIf w rn (stmBase (s.reg rn) u (listedCount reglist))).advancePc := by
  rw [stmFirst_eq, stmBase_eq]
  exact (whenPassed_true _ (condPassed_of_holds hc)).trans (if_neg hn)

/-- STM with write-back into R15 has no meaning (R179, U2). -/
theorem exec_stm_writebackToR15 (hc : CondHolds c s.cpsr) (hn : w = true ∧ rn = 15) :
    exec (.stm c p u x w rn reglist) s = .refused .stmWritebackToR15 :=
  (whenPassed_true _ (condPassed_of_holds hc)).trans (if_pos hn)

end Stm

/-- Settles O39: the stores put the listed registers side by side in RAM and leave the CPU alone; the write-back and
the advance change nothing else. -/
theorem stmStoresTheListedRegisters : Obligations.StmStoresTheListedRegisters := by
  intro c p u x w rn reglist s hc hn n start hram
  obtain ⟨t, ht, hst⟩ := storeRegs_storesUnits hram s
  have hbus : SameOutsideBus s t := storeRegs_keeps (keptByTransfers_sameOutsideBus s) (.refl s) ht
  have hout := hst.outsideCpu (writeBackIf_advancePc_sameOutsideCpu t w rn (stmBase (s.reg rn) u n))
  refine ⟨_, ?_, hout.machine, fun r hr => ?_, hout.kept, ?_, fun r hr => ?_, ?_⟩
  · rw [exec_stm hc hn, ht, andThen_next]
  · have hplace := listedRegs_getElem?_listedBelow hr
    have hlt : listedBelow reglist r < n := lt_listedCount_of_getElem? hplace
    rw [hout.read32 hlt ((hram.resolve_left (by omega)).cellOf_word hlt).1, s.listedValue_of_getElem? hplace]
  · rw [State.reg15_advancePc, State.reg_writeBackIf, if_neg fun h => hn ⟨h.1, h.2.symm⟩, State.reg_congr hbus.regs]
  · rw [State.reg_advancePc _ hr, State.reg_writeBackIf, State.reg_congr hbus.regs]
  · rw [State.advancePc_cpsr, State.writeBackIf_cpsr, hbus.cpsr]

/-- Settles O40: the stores are the word writes of the listed registers, and write-back into R15 is refused before
them. -/
theorem stmIsWordStoresInOrder : Obligations.StmIsWordStoresInOrder := by
  intro c p u x w rn reglist s hc n start stores
  refine ⟨fun hw hr => exec_stm_writebackToR15 hc ⟨hw, hr⟩, fun hn => ?_⟩
  have hstores : storeRegs (listedRegs reglist) start s = storeWords stores s :=
    (storeRegs_eq reglist start s).trans (runWrites_word_eq_storeWords _ _ _ s)
  rw [exec_stm hc hn, hstores]
  cases storeWords stores s <;> rfl

end Sys2Proof.Machine

/-! # Proofs: software interrupt (45_software_interrupt.md) -/

namespace Sys2Proof.Machine

/-! ## Units

The 16-bit or 32-bit elements that the block service moves, and a transfer with it. -/

section Units

variable {wide : Bool} {s t : State}

theorem unitAddr_zero (wide : Bool) (a : Word) : unitAddr wide a 0 = if wide then align4 a else align2 a := by
  rw [unitAddr, Nat.zero_mul, BitVec.add_zero]

/-- Aligning a halfword's address commutes with counting halfwords from it. -/
theorem align2_add_halfwords (a : Word) (j : Nat) :
    align2 (a + BitVec.ofNat 32 (2 * j)) = align2 a + BitVec.ofNat 32 (2 * j) := by
  apply BitVec.eq_of_toNat_eq
  rw [align2_toNat, BitVec.toNat_add, BitVec.toNat_add, align2_toNat, BitVec.toNat_ofNat]
  omega

/-- The pointer keeps its low bits while it moves, and the access drops them (R45, R187). -/
theorem unitAddr_add_units (wide : Bool) (p : Word) (j : Nat) :
    unitAddr wide (p + BitVec.ofNat 32 (j * unitBytes wide)) 0 = unitAddr wide p j := by
  rw [unitAddr_zero, unitAddr, Nat.mul_comm]
  cases wide
  case false => exact align2_add_halfwords p j
  case true => exact align4_add_words p j

/-- A byte of a unit, counted from the first unit. -/
theorem unitAddr_add_byte (wide : Bool) (p : Word) (j i : Nat) : unitAddr wide p j + BitVec.ofNat 32 i =
    unitAddr wide p 0 + BitVec.ofNat 32 (unitBytes wide * j + i) := by
  simp only [unitAddr, Nat.zero_mul, BitVec.add_zero, Nat.mul_comm j, BitVec.ofNat_add, BitVec.add_assoc]

/-- Units begin at even addresses. -/
theorem unitAddr_zero_even (wide : Bool) (a : Word) : (unitAddr wide a 0).toNat % 2 = 0 := by
  rw [unitAddr_zero, apply_ite BitVec.toNat, align4_toNat, align2_toNat]
  split <;> omega

/-- The bytes of one unit lie among those of all of them. -/
theorem unit_byte_lt {n m j i : Nat} (hj : j < m) (hi : i < n) : n * j + i < n * m := by
  have hle : n * (j + 1) ≤ n * m := Nat.mul_le_mul_left n hj
  rw [Nat.mul_succ] at hle
  omega

/-! ### Reading a unit -/

/-- A read drops the low bits of its address (R45). -/
theorem State.readUnit_unitAddr (s : State) (wide : Bool) (p : Word) (j : Nat) :
    s.readUnit wide (unitAddr wide p j) = s.readUnit wide (p + BitVec.ofNat 32 (j * unitBytes wide)) := by
  rw [← unitAddr_add_units, unitAddr_zero]
  cases wide <;> simp [State.readUnit, State.read16, State.read32]

/-- Two machines with the same parameters and ROM image that agree in the bytes of an aligned halfword read the
same halfword (R44, R47). -/
theorem State.read16_of_sameBytes (hc : t.cfg = s.cfg) (hr : t.rom = s.rom) {a : Word}
    (h : ∀ i < 2, t.read8 (align2 a + BitVec.ofNat 32 i) = s.read8 (align2 a + BitVec.ofNat 32 i)) :
    t.read16 a = s.read16 a := by
  cases hd : decodeAddr (align2 a) with
  | none => simp only [State.read16, hd, hc]
  | some p =>
    obtain ⟨r, o⟩ := p
    by_cases hrom : r = .rom
    · subst hrom
      simp only [State.read16, hd, State.romCovers, hr]
    · have h0 : t.read8 (align2 a) = s.read8 (align2 a) := by simpa using h 0 (by decide)
      rw [t.read16_eq_bytes hd hrom, s.read16_eq_bytes hd hrom, h0, h 1 (by decide)]

/-- Two machines with the same parameters and ROM image that agree in the bytes of an aligned word read the same
word (R44, R48). -/
theorem State.read32_of_sameBytes (hc : t.cfg = s.cfg) (hr : t.rom = s.rom) {a : Word}
    (h : ∀ i < 4, t.read8 (align4 a + BitVec.ofNat 32 i) = s.read8 (align4 a + BitVec.ofNat 32 i)) :
    t.read32 a = s.read32 a := by
  cases hd : decodeAddr (align4 a) with
  | none => simp only [State.read32, hd, hc]
  | some p =>
    obtain ⟨r, o⟩ := p
    by_cases hrom : r = .rom
    · subst hrom
      simp only [State.read32, hd, State.romCovers, hr]
    · have h0 : t.read8 (align4 a) = s.read8 (align4 a) := by simpa using h 0 (by decide)
      rw [t.read32_eq_bytes hd hrom, s.read32_eq_bytes hd hrom, h0, h 1 (by decide), h 2 (by decide),
        h 3 (by decide)]

/-- Two machines with the same parameters and ROM image that agree in the bytes of a unit read the same unit. -/
theorem State.readUnit_of_sameBytes (hc : t.cfg = s.cfg) (hr : t.rom = s.rom) {a : Word}
    (h : ∀ i < unitBytes wide,
      t.read8 (unitAddr wide a 0 + BitVec.ofNat 32 i) = s.read8 (unitAddr wide a 0 + BitVec.ofNat 32 i)) :
    t.readUnit wide a = s.readUnit wide a := by
  rw [unitAddr_zero] at h
  cases wide
  case false => exact congrArg (BitVec.setWidth 32) (State.read16_of_sameBytes hc hr h)
  case true => exact State.read32_of_sameBytes hc hr h

/-- A halfword read at the cells of a stored halfword gives it (R44, R47). -/
theorem StoresUnits.read16 {k m : Nat} {f : Nat → Word} (h : StoresUnits s t k 2 m f) {a : Word} {j : Nat}
    (hj : j < m) (ha : cellOf (align2 a) = some (k + 2 * j)) : t.read16 a = lowHalf (f j) := by
  obtain ⟨r, o, hd, hr, -, -⟩ := decode_of_cellOf ha
  rw [t.read16_eq_bytes hd (by rintro rfl; cases hr), h.stored _ j 0 hj (by decide) ha,
    h.stored _ j 1 hj (by decide) (cellOf_align2_add ha (by decide)), ← byteOf_lowHalf_zero,
    ← byteOf_lowHalf_one]
  exact le16_bytes _

/-- A unit apart from the units stored so far reads as it did (R188). -/
theorem StoresUnits.readUnit_apart {k m n j : Nat} {f : Nat → Word} {src : Word}
    (h : StoresUnits s t k (unitBytes wide) m f) (hm : m ≤ n) (hj : j < n)
    (hapart : ApartFrom (unitAddr wide src 0) (n * unitBytes wide) (CellRange k (n * unitBytes wide))) :
    t.readUnit wide (unitAddr wide src j) = s.readUnit wide (unitAddr wide src j) := by
  rw [State.readUnit_unitAddr, State.readUnit_unitAddr]
  refine State.readUnit_of_sameBytes h.machine.cfg h.machine.rom fun i hi => h.kept _ fun x hx hcell => ?_
  rw [unitAddr_add_units, unitAddr_add_byte] at hcell
  have hle : m * unitBytes wide ≤ n * unitBytes wide := Nat.mul_le_mul_right _ hm
  have hbyte : unitBytes wide * j + i < n * unitBytes wide := by
    rw [Nat.mul_comm n]
    exact unit_byte_lt hj hi
  refine hapart _ x hbyte hcell ⟨hx.1, ?_⟩
  have := hx.2
  rw [Nat.mul_comm] at this
  omega

/-! ### Units in RAM -/

/-- The cells of the `j`-th unit, where the units lie in RAM (R40). -/
theorem RamRange.cellOf_unit {p : Word} {m j : Nat} (h : RamRange (unitAddr wide p 0) (m * unitBytes wide))
    (hj : j < m) :
    cellOf (unitAddr wide p j) = some ((unitAddr wide p 0).toNat + unitBytes wide * j) ∧
      ¬ IsIoCell ((unitAddr wide p 0).toNat + unitBytes wide * j) := by
  have hpos : 0 < unitBytes wide := by cases wide <;> decide
  have haddr := unitAddr_add_byte wide p j 0
  rw [BitVec.add_zero, Nat.add_zero] at haddr
  rw [haddr]
  exact h.cellOf_add (by rw [Nat.mul_comm m]; exact unit_byte_lt hj hpos)

/-- Where units read before are stored in RAM, their reads give them again (R44, R187). -/
theorem StoresUnits.readUnit_ram {u : State} {m j : Nat} {dst : Word} {src : Nat → Word}
    (h : StoresUnits s t (unitAddr wide dst 0).toNat (unitBytes wide) m fun j => u.readUnit wide (src j))
    (hram : m = 0 ∨ RamRange (unitAddr wide dst 0) (m * unitBytes wide)) (hj : j < m) :
    t.readUnit wide (unitAddr wide dst j) = u.readUnit wide (src j) := by
  have hcell := ((hram.resolve_left (by omega)).cellOf_unit hj).1
  rw [← unitAddr_add_units, unitAddr_zero] at hcell
  rw [State.readUnit_unitAddr]
  cases wide
  case false => exact congrArg (BitVec.setWidth 32) ((h.read16 hj hcell).trans (lowHalf_setWidth _))
  case true => exact h.read32 hj hcell

/-! ### Writing units -/

variable {onTrigger : Fin 4 → State → Result}

/-- The write of a unit outside the IO block completes and stores its bytes (R44, R50, R51). -/
theorem unitWrite_storesBytes {a : Word} {k : Nat} (hk : cellOf (unitAddr wide a 0) = some k) (hio : ¬ IsIoCell k)
    (v : Word) (s : State) :
    ∃ t, (unitWrite wide a v).performWith onTrigger s = .next t ∧ StoresBytes s t k (unitBytes wide) v := by
  rw [unitAddr_zero] at hk
  cases wide
  case false => exact write16With_storesBytes hk hio v s
  case true => exact write32With_storesBytes hk hio v s

/-- Unit writes to ascending addresses of RAM store their units side by side, where each gives the unit meant in
every state that the writes before it leave (R44, R187). -/
theorem runWrites_unitWrites {m : Nat} {dst : Word} {v : Nat → State → Word} {f : Nat → Word}
    (hram : m = 0 ∨ RamRange (unitAddr wide dst 0) (m * unitBytes wide))
    (hv : ∀ j t, j < m → StoresUnits s t (unitAddr wide dst 0).toNat (unitBytes wide) j f → v j t = f j) :
    ∃ t, runWrites (BusWrite.performWith onTrigger) ((List.range m).map fun j u =>
        unitWrite wide (dst + BitVec.ofNat 32 (j * unitBytes wide)) (v j u)) s = .next t ∧
      StoresUnits s t (unitAddr wide dst 0).toNat (unitBytes wide) m f := by
  have hrun := runWrites_storesUnits (write := BusWrite.performWith onTrigger) (s := s) (f := f)
    (n := unitBytes wide) (l := (List.range m).map fun j u =>
      unitWrite wide (dst + BitVec.ofNat 32 (j * unitBytes wide)) (v j u)) (unitAddr_zero_even wide dst)
    fun j w t hw hst => by
      rw [List.getElem?_map, Option.map_eq_some_iff] at hw
      obtain ⟨i, hi, rfl⟩ := hw
      obtain ⟨hj, rfl⟩ : j < m ∧ j = i := by simpa [List.getElem?_range, List.getElem?_eq_some_iff] using hi
      obtain ⟨hcell, hio⟩ := (hram.resolve_left (by omega)).cellOf_unit hj
      rw [← unitAddr_add_units] at hcell
      dsimp only
      rw [hv j t hj hst]
      exact unitWrite_storesBytes hcell hio (f j) t
  rwa [List.length_map, List.length_range] at hrun

/-- A fill of RAM, or of no units, completes and stores its value in every unit (R187). -/
theorem fillWrites_storesUnits {m : Nat} {dst : Word}
    (hram : m = 0 ∨ RamRange (unitAddr wide dst 0) (m * unitBytes wide)) (v : Word) (s : State) :
    ∃ t, runWrites (BusWrite.performWith onTrigger) (fillWrites wide m v dst) s = .next t ∧
      StoresUnits s t (unitAddr wide dst 0).toNat (unitBytes wide) m fun _ => v :=
  runWrites_unitWrites (v := fun _ _ => v) hram fun _ _ _ _ => rfl

/-- A copy to RAM from elsewhere, or of no units, completes, and each unit stored is the one that stood at the
source before (R187, R188). -/
theorem copyWrites_storesUnits {m : Nat} {src dst : Word}
    (hram : m = 0 ∨ RamRange (unitAddr wide dst 0) (m * unitBytes wide))
    (hapart : ApartFrom (unitAddr wide src 0) (m * unitBytes wide)
      (CellRange (unitAddr wide dst 0).toNat (m * unitBytes wide))) :
    ∃ t, runWrites (BusWrite.performWith onTrigger) (copyWrites wide m src dst) s = .next t ∧
      StoresUnits s t (unitAddr wide dst 0).toNat (unitBytes wide) m
        fun j => s.readUnit wide (unitAddr wide src j) :=
  runWrites_unitWrites (v := fun j t => t.readUnit wide (src + BitVec.ofNat 32 (j * unitBytes wide))) hram
    fun j t hj hst => by
      rw [← State.readUnit_unitAddr]
      exact hst.readUnit_apart hj.le hj hapart

end Units

/-! ## SWI -/

section Swi

variable {c : Cond} {comment : BitVec 24} {s : State}

/-- SWI with the service's number: the service, then the advance (R186, R187). -/
theorem exec_swi_service (hc : CondHolds c s.cpsr) (hs : comment.extractLsb' 16 8 = s.cfg.swiCpuset) :
    exec (.swi c comment) s = andThen (blockCopyFill s) fun t => .next t.advancePc :=
  (whenPassed_true _ (condPassed_of_holds hc)).trans (by rw [if_pos hs, thenAdvance])

/-- SWI with any other number: the advance alone (R189). -/
theorem exec_swi_other (hc : CondHolds c s.cpsr) (hs : comment.extractLsb' 16 8 ≠ s.cfg.swiCpuset) :
    exec (.swi c comment) s = .next s.advancePc :=
  (whenPassed_true _ (condPassed_of_holds hc)).trans (by rw [if_neg hs, thenAdvance_next])

/-- The service copies where bit 24 of R2 is 0 (R187). -/
theorem blockCopyFill_copies (h : (s.reg 2).getLsbD 24 = false) : blockCopyFill s = runWrites BusWrite.perform
    (copyWrites ((s.reg 2).getLsbD 26) ((s.reg 2).extractLsb' 0 21).toNat (s.reg 0) (s.reg 1)) s := by
  rw [blockCopyFill_eq, if_neg (by rw [h]; decide)]

/-- The service fills where bit 24 of R2 is 1 (R187). -/
theorem blockCopyFill_fills (h : (s.reg 2).getLsbD 24 = true) : blockCopyFill s = runWrites BusWrite.perform
    (fillWrites ((s.reg 2).getLsbD 26) ((s.reg 2).extractLsb' 0 21).toNat
      (s.readUnit ((s.reg 2).getLsbD 26) (s.reg 0)) (s.reg 1)) s := by
  rw [blockCopyFill_eq, if_pos h]

/-- A service that stores units in RAM completes the instruction: the units stored are read there, and nothing else
changes but for the advance (R187, R188). -/
theorem exec_swi_storesUnits (hc : CondHolds c s.cpsr) (hs : comment.extractLsb' 16 8 = s.cfg.swiCpuset)
    {wide : Bool} {m : Nat} {dst : Word} {src : Nat → Word}
    (hram : m = 0 ∨ RamRange (unitAddr wide dst 0) (m * unitBytes wide))
    (h : ∃ t, blockCopyFill s = .next t ∧
      StoresUnits s t (unitAddr wide dst 0).toNat (unitBytes wide) m fun j => s.readUnit wide (src j)) :
    ∃ t, exec (.swi c comment) s = .next t ∧ CpuAdvances s t ∧
      SameMachine s t (unitAddr wide dst 0).toNat (m * unitBytes wide) ∧
      (∀ j, j < m → t.readUnit wide (unitAddr wide dst j) = s.readUnit wide (src j)) ∧
      (∀ a : Word, (∀ k, CellRange (unitAddr wide dst 0).toNat (m * unitBytes wide) k → cellOf a ≠ some k) →
        t.read8 a = s.read8 a) := by
  obtain ⟨t, ht, hst⟩ := h
  have hbus : SameOutsideBus s t := blockCopyFill_keeps (keptByTransfers_sameOutsideBus s) (.refl s) ht
  have hout := hst.outsideCpu (advancePc_sameOutsideCpu t)
  rw [Nat.mul_comm m]
  exact ⟨t.advancePc, by rw [exec_swi_service hc hs, ht, andThen_next], hbus.cpuAdvances, hout.machine,
    fun j hj => hout.readUnit_ram hram hj, hout.kept⟩

end Swi

/-- Settles O41: without the service nothing stands before the advance. -/
theorem otherServicesDoNothing : Obligations.OtherServicesDoNothing :=
  fun _ _ s hc hs => ⟨s.advancePc, exec_swi_other hc hs, advancePc_onlyAdvances s⟩

/-- Settles O42: the service is the copy's writes, and those into RAM store the units that stood at the source. -/
theorem swiCopies : Obligations.SwiCopies := by
  intro c comment s hc hs hcopy wide count bytes target
  refine ⟨by rw [exec_swi_service hc hs, blockCopyFill_copies hcopy], fun hram hapart => ?_⟩
  have hstores := copyWrites_storesUnits (onTrigger := runTransfer) (s := s) hram hapart
  rw [← perform_funext, ← blockCopyFill_copies hcopy] at hstores
  exact exec_swi_storesUnits hc hs hram hstores

/-- Settles O43: the service is the fill's writes, and those into RAM store the one unit read before them. -/
theorem swiFills : Obligations.SwiFills := by
  intro c comment s hc hs hfill wide count bytes target
  refine ⟨by rw [exec_swi_service hc hs, blockCopyFill_fills hfill], fun hram => ?_⟩
  have hstores := fillWrites_storesUnits (onTrigger := runTransfer) hram (s.readUnit wide (s.reg 0)) s
  rw [← perform_funext, ← blockCopyFill_fills hfill] at hstores
  exact exec_swi_storesUnits hc hs hram hstores

end Sys2Proof.Machine

/-! # Proofs: every other word (46_unimplemented_nop.md) -/

namespace Sys2Proof.Machine

/-- A word on no row advances, whether its condition holds or fails (R195). -/
theorem exec_nopUnimplemented {c : Cond} {s : State} (rest : BitVec 28)
    (h : CondHolds c s.cpsr ∨ CondFails c s.cpsr) :
    exec (.nopUnimplemented c rest) s = .next s.advancePc := by
  rcases h with hc | hc
  · exact whenPassed_true _ (condPassed_of_holds hc)
  · exact exec_of_fails (i := .nopUnimplemented c rest) hc

/-- Settles O44: such a word leaves the default advance alone, which is a no-op. -/
theorem unimplementedWordsDoNothing : Obligations.UnimplementedWordsDoNothing :=
  fun _ rest s h => ⟨s.advancePc, exec_nopUnimplemented rest h, advancePc_onlyAdvances s⟩

end Sys2Proof.Machine

/-! # Proofs: the Ppu (47_ppu.md) -/

namespace Sys2Proof.Machine

/-! ## Rendered lines -/

/-- The rendered line shows its rendered row. -/
theorem pixel_renderScanLine_same (s : State) (line : Fin 160) (x : Fin 240) :
    (s.renderScanLine line).pixel line x = (s.renderedRow line.val)[x.val] := by
  simp [State.pixel, State.renderScanLine]

/-- The other lines keep their pixels. -/
theorem pixel_renderScanLine_other (s : State) {line l : Fin 160} (h : l ≠ line) (x : Fin 240) :
    (s.renderScanLine line).pixel l x = s.pixel l x := by
  have hne : line.val ≠ l.val := fun e => h (Fin.ext e.symm)
  simp [State.pixel, State.renderScanLine, hne]

/-! ### The backdrop -/

/-- A pixel of the backdrop is palette entry 0 (R215, R216). -/
theorem State.backdropRow_getElem (s : State) (x : Fin 240) : s.backdropRow[x.val] =
    ⟨(s.paletteCache[0]).r, (s.paletteCache[0]).g, (s.paletteCache[0]).b, 0xFF#8⟩ := by
  simp [State.backdropRow, State.colour, Rgb.opaquePixel]

/-- Forced blank and the modes other than 0 and 3 render the backdrop (R215, R217, R223). -/
theorem State.renderedRow_blank {s : State} (line : Nat) (h : s.mDispcnt.getLsbD 7 = true ∨
    (s.mDispcnt.extractLsb' 0 3 ≠ 0#3 ∧ s.mDispcnt.extractLsb' 0 3 ≠ 3#3)) :
    s.renderedRow line = s.backdropRow := by
  unfold State.renderedRow
  rcases h with hblank | ⟨h0, h3⟩
  · rw [if_pos hblank]
  · rw [if_neg h3, if_neg h0, ite_self]

/-- Settles O54: the line is rendered as the backdrop. -/
theorem blankLinesShowTheBackdrop : Obligations.BlankLinesShowTheBackdrop := by
  intro s line x h
  rw [pixel_renderScanLine_same, State.renderedRow_blank _ h, State.backdropRow_getElem]

/-! ### Mode 0 -/

/-- The colour of layer `n` at a place where the layer is enabled and not transparent (R220, R221). -/
def State.shownColour (s : State) (line x : Nat) (n : Fin 4) : Option Rgb :=
  if s.mDispcnt.getLsbD (8 + n.val) then s.layerColour n line x else none

/-- A layer covers what lies below it where it shows a colour (R220, R221). -/
theorem State.paintLayerIf_getElem (s : State) (n : Fin 4) (line : Nat) (row : Row) (x : Fin 240) :
    (s.paintLayerIf n line row)[x.val] = (s.shownColour line x.val n).elim row[x.val] Rgb.opaquePixel := by
  unfold State.paintLayerIf State.shownColour
  split
  · simp only [State.paintLayer, Vector.getElem_ofFn]
    cases s.layerColour n line x.val <;> rfl
  · rfl

/-- Without forced blank, mode 0 renders the layers (R217). -/
theorem State.renderedRow_mode0 {s : State} (line : Nat) (h7 : s.mDispcnt.getLsbD 7 = false)
    (h0 : s.mDispcnt.extractLsb' 0 3 = 0#3) : s.renderedRow line = s.mode0Row line := by
  rw [State.renderedRow, h7, h0]
  rfl

section Mode0

variable {s : State} {line : Nat} {x : Fin 240}

/-- The layers are painted from 3 down to 0, so the lowest-numbered one that shows a colour stays (R220). -/
theorem State.mode0Row_getElem_of_top {n : Fin 4} {c : Rgb} (hn : s.shownColour line x.val n = some c)
    (hm : ∀ m, m < n → s.shownColour line x.val m = none) : (s.mode0Row line)[x.val] = c.opaquePixel := by
  simp only [State.mode0Row, State.paintLayerIf_getElem]
  match n with
  | 0 => simp only [hn, Option.elim_some]
  | 1 => simp only [hm 0 (by decide), hn, Option.elim_none, Option.elim_some]
  | 2 => simp only [hm 0 (by decide), hm 1 (by decide), hn, Option.elim_none, Option.elim_some]
  | 3 => simp only [hm 0 (by decide), hm 1 (by decide), hm 2 (by decide), hn, Option.elim_none, Option.elim_some]

/-- Where no layer shows a colour, the backdrop stays (R220). -/
theorem State.mode0Row_getElem_of_none (h : ∀ n, s.shownColour line x.val n = none) :
    (s.mode0Row line)[x.val] = s.backdropRow[x.val] := by
  simp only [State.mode0Row, State.paintLayerIf_getElem, h, Option.elim_none]

end Mode0

/-- Settles O55: the layer on top stays, or else the backdrop. -/
theorem mode0ShowsTheTopLayer : Obligations.Mode0ShowsTheTopLayer := by
  intro s line x h7 h0 shown pixel
  have hpixel : pixel = (s.mode0Row line.val)[x.val] := by
    rw [← State.renderedRow_mode0 _ h7 h0]
    exact pixel_renderScanLine_same s line x
  refine ⟨fun n c hn hm => ?_, fun hnone => ?_⟩
  · exact hpixel.trans (State.mode0Row_getElem_of_top hn hm)
  · exact (hpixel.trans (State.mode0Row_getElem_of_none hnone)).trans (s.backdropRow_getElem x)

/-! ### The pixels of a layer -/

/-- A field of a value, as a number. -/
theorem extractLsb'_toNat_div {w : Nat} (v : BitVec w) (lo n : Nat) :
    (v.extractLsb' lo n).toNat = v.toNat / 2 ^ lo % 2 ^ n := by
  rw [BitVec.extractLsb'_toNat, Nat.shiftRight_eq_div_pow]

/-- A field of a control word counts blocks of VRAM: the address of a place in its block (R221). -/
theorem vramAddr_block (v : Half) (lo n size o : Nat) : vramAddr ((v.extractLsb' lo n).toNat * size + o) =
    BitVec.ofNat 32 (0x06000000 + v.toNat / 2 ^ lo % 2 ^ n * size + o) := by
  rw [vramAddr, extractLsb'_toNat_div, Nat.add_assoc]

/-- A bit of a value, as a number. -/
theorem getLsbD_iff_div {w : Nat} (v : BitVec w) (i : Nat) :
    v.getLsbD i = true ↔ v.toNat / 2 ^ i % 2 = 1 := by
  rw [← BitVec.testBit_toNat, Nat.testBit_eq_decide_div_mod_eq, decide_eq_true_eq]

/-- A colour of the cache, by the number of its index (R21). -/
theorem State.some_colour (s : State) (i : BitVec 8) : some (s.colour i) = s.paletteCache[i.toNat]? := by
  rw [State.colour, Vector.getElem?_eq_getElem]

/-- At 4 bits per pixel the index is a nibble of the pair's byte (R222). -/
theorem State.tilePixel_narrow_toNat (s : State) (charBase tile tx ty : Nat) :
    (s.tilePixel charBase tile false tx ty).toNat =
      if tx % 2 = 1 then (s.read8 (vramAddr (charBase + tile * 32 + ty * 4 + tx / 2))).toNat / 16
      else (s.read8 (vramAddr (charBase + tile * 32 + ty * 4 + tx / 2))).toNat % 16 := by
  unfold State.tilePixel
  generalize s.read8 (vramAddr (charBase + tile * 32 + ty * 4 + tx / 2)) = pair
  have := pair.isLt
  simp only [Bool.false_eq_true, if_false, apply_ite BitVec.toNat, BitVec.toNat_append, extractLsb'_toNat_div,
    BitVec.toNat_zero, Nat.zero_shiftLeft, Nat.zero_or]
  split <;> omega

/-- The index is one of 16. -/
theorem State.tilePixel_narrow_lt (s : State) (charBase tile tx ty : Nat) :
    (s.tilePixel charBase tile false tx ty).toNat < 16 := by
  have := (s.read8 (vramAddr (charBase + tile * 32 + ty * 4 + tx / 2))).isLt
  rw [State.tilePixel_narrow_toNat]
  split <;> omega

/-- A nibble in its bank, as a number (R221). -/
theorem bank_append_toNat (bank : BitVec 4) {i : Byte} (hi : i.toNat < 16) :
    (bank ++ i.extractLsb' 0 4).toNat = bank.toNat * 16 + i.toNat := by
  rw [BitVec.toNat_append, extractLsb'_toNat_div, ← Nat.shiftLeft_add_eq_or_of_lt (by omega), Nat.shiftLeft_eq]
  omega

/-- The colour of an index that is transparent at 0, with the indices as numbers (R221). -/
theorem State.opaqueColour_eq (s : State) (i j : Byte) : (if i = 0#8 then none else some (s.colour j)) =
    if i.toNat = 0 then none else s.paletteCache[j.toNat]? := by
  simp only [s.some_colour, ← BitVec.toNat_inj, BitVec.toNat_zero]

/-- Settles O56: the fields of the control word and of the entry are the numbers the claim is written with; then
each depth has its own palette index. -/
theorem layerPixels : Obligations.LayerPixels := by
  intro s n line x cnt charBase screenBase entry tile tx ty wideIndex pair narrowIndex
  have hscreen (o : Nat) : vramAddr (((s.mBgcnt[n.val]).extractLsb' 8 5).toNat * 0x800 + o) =
      BitVec.ofNat 32 (screenBase + o) := vramAddr_block _ 8 5 _ o
  have hchar (o : Nat) : vramAddr (((s.mBgcnt[n.val]).extractLsb' 2 2).toNat * 0x4000 + o) =
      BitVec.ofNat 32 (charBase + o) := vramAddr_block _ 2 2 _ o
  have hdepth : (s.mBgcnt[n.val]).getLsbD 7 = true ↔ cnt / 128 % 2 = 1 := getLsbD_iff_div _ 7
  obtain ⟨e, he⟩ : ∃ e, e = s.read16 (BitVec.ofNat 32 (screenBase + (line.val / 8 * 32 + x.val / 8) * 2)) :=
    ⟨_, rfl⟩
  have hentry : e.toNat = entry := by rw [he]
  have htile : (e.extractLsb' 0 10).toNat = tile := by simp [tile, hentry]
  have hbank : (e.extractLsb' 12 4).toNat = entry / 4096 := by
    have := e.isLt
    rw [extractLsb'_toNat_div]
    omega
  have hflip (i m : Nat) : (if e.getLsbD i then 7 - m else m) = if entry / 2 ^ i % 2 = 1 then 7 - m else m := by
    simp only [getLsbD_iff_div, hentry]
  have htx : (if e.getLsbD 10 then 7 - x.val % 8 else x.val % 8) = tx := hflip 10 _
  have hty : (if e.getLsbD 11 then 7 - line.val % 8 else line.val % 8) = ty := hflip 11 _
  simp only [State.layerColour, hscreen, ← he, htile, htx, hty, State.opaqueColour_eq]
  by_cases h8 : cnt / 128 % 2 = 1
  · have hindex : (s.tilePixel (((s.mBgcnt[n.val]).extractLsb' 2 2).toNat * 0x4000) tile true tx ty).toNat =
        wideIndex := by
      simp only [State.tilePixel, if_true, wideIndex, Nat.add_assoc, hchar]
    simp only [if_pos h8, hdepth.2 h8, if_true, hindex]
  · have hindex : (s.tilePixel (((s.mBgcnt[n.val]).extractLsb' 2 2).toNat * 0x4000) tile false tx ty).toNat =
        narrowIndex := by
      simp only [State.tilePixel_narrow_toNat, narrowIndex, pair, Nat.add_assoc, hchar]
    simp only [if_neg h8, Bool.eq_false_iff.2 fun h => h8 (hdepth.1 h), Bool.false_eq_true, if_false,
      bank_append_toNat _ (s.tilePixel_narrow_lt _ _ _ _), hindex, hbank]

/-! ### Mode 3 -/

/-- A 5-bit component as 8 bits (R58). -/
theorem widen_toNat (v : BitVec 5) :
    ((v.setWidth 8 <<< 3) ||| (v.setWidth 8 >>> 2)).toNat = v.toNat * 8 + v.toNat / 4 := by
  revert v; decide

/-- The three components of an expanded colour (R58). -/
theorem expand_toNat (c : Half) :
    (expand c).r.toNat = c.toNat % 32 * 8 + c.toNat % 32 / 4 ∧
    (expand c).g.toNat = c.toNat / 32 % 32 * 8 + c.toNat / 32 % 32 / 4 ∧
    (expand c).b.toNat = c.toNat / 1024 % 32 * 8 + c.toNat / 1024 % 32 / 4 := by
  simp only [expand, widen_toNat, extractLsb'_toNat_div]
  simp

/-- Without forced blank, mode 3 renders the bitmap (R217). -/
theorem State.renderedRow_mode3 {s : State} (line : Nat) (h7 : s.mDispcnt.getLsbD 7 = false)
    (h3 : s.mDispcnt.extractLsb' 0 3 = 3#3) : s.renderedRow line = s.mode3Row line := by
  rw [State.renderedRow, h7, h3]
  rfl

/-- A pixel of mode 3 is the VRAM halfword of its place, expanded (R216, R219). -/
theorem State.mode3Row_getElem (s : State) (line : Nat) (x : Fin 240) : (s.mode3Row line)[x.val] =
    (expand (s.read16 (vramAddr ((line * 240 + x.val) * 2)))).opaquePixel := by
  simp [State.mode3Row]

/-! ## The frame buffer -/

section Blocks

variable {α β : Type} {f : α → List β} {n : Nat}

/-- Blocks of one length, side by side. -/
theorem length_flatMap_of_length (hf : ∀ a, (f a).length = n) (l : List α) :
    (l.flatMap f).length = l.length * n := by
  simp [List.length_flatMap, hf]

/-- Element `j` of block `i`, where all blocks have one length. -/
theorem getElem?_flatMap_of_length (hf : ∀ a, (f a).length = n) (l : List α) (i : Nat) {j : Nat} (hj : j < n) :
    (l.flatMap f)[i * n + j]? = l[i]?.bind fun a => (f a)[j]? := by
  induction l generalizing i with
  | nil => simp
  | cons a l ih =>
    rw [List.flatMap_cons]
    cases i with
    | zero => simp [List.getElem?_append_left, hf, hj]
    | succ i =>
      have hle : (f a).length ≤ (i + 1) * n + j := by rw [hf, Nat.succ_mul]; omega
      have hsub : (i + 1) * n + j - n = i * n + j := by rw [Nat.succ_mul]; omega
      rw [List.getElem?_append_right hle, hf, hsub, ih, List.getElem?_cons_succ]

end Blocks

/-- The bytes of a row of pixels, as `frameBytes` lists them (R31). -/
def Row.bytes (row : Row) : List Byte := row.toList.flatMap Pixel.bytes

theorem Pixel.length_bytes (p : Pixel) : p.bytes.length = 4 := rfl

theorem Row.length_bytes (row : Row) : (Row.bytes row).length = 960 := by
  rw [Row.bytes, length_flatMap_of_length Pixel.length_bytes, Vector.length_toList]

theorem State.frameBytes_eq (s : State) : s.frameBytes = s.pixels.toList.flatMap Row.bytes := rfl

theorem State.length_frameBytes (s : State) : s.frameBytes.length = 153600 := by
  rw [State.frameBytes_eq, length_flatMap_of_length Row.length_bytes, Vector.length_toList]

/-- The bytes of a pixel stand side by side at the place of the pixel (R31, R305). -/
theorem State.frameBytes_getElem? (s : State) (line : Fin 160) (x : Fin 240) {i : Nat} (hi : i < 4) :
    s.frameBytes[(line.val * 240 + x.val) * 4 + i]? = (s.pixel line x).bytes[i]? := by
  have hoff : (line.val * 240 + x.val) * 4 + i = line.val * 960 + (x.val * 4 + i) := by omega
  have hrow : s.pixels.toList[line.val]? = some s.pixels[line.val] := by simp
  have hpixel : s.pixels[line.val].toList[x.val]? = some (s.pixel line x) := by simp [State.pixel]
  rw [State.frameBytes_eq, hoff, getElem?_flatMap_of_length Row.length_bytes _ _ (by omega), hrow,
    Option.bind_some, Row.bytes, getElem?_flatMap_of_length Pixel.length_bytes _ _ hi, hpixel, Option.bind_some]

/-- Settles O53: the buffer is rows of 960 bytes and pixels of 4; a line of mode 3 is `mode3Row`. -/
theorem mode3ShowsTheBitmap : Obligations.Mode3ShowsTheBitmap := by
  refine ⟨fun s => ⟨s.length_frameBytes, fun line x => ?_⟩, fun s line l x h7 h3 => ?_⟩
  · exact ⟨s.frameBytes_getElem? line x (i := 0) (by decide), s.frameBytes_getElem? line x (i := 1) (by decide),
      s.frameBytes_getElem? line x (i := 2) (by decide), s.frameBytes_getElem? line x (i := 3) (by decide)⟩
  · refine ⟨fun hl => pixel_renderScanLine_other s hl x, ?_⟩
    rw [pixel_renderScanLine_same, State.renderedRow_mode3 _ h7 h3, State.mode3Row_getElem]
    obtain ⟨hr, hg, hb⟩ := expand_toNat (s.read16 (vramAddr ((line.val * 240 + x.val) * 2)))
    exact ⟨hr, hg, hb, rfl⟩

/-! ## The flush -/

/-- Rendering a line does not change what rendering sees. -/
theorem State.renderedRow_renderScanLine (s : State) (line l : Fin 160) :
    (s.renderScanLine line).renderedRow l.val = s.renderedRow l.val :=
  SameOutsideTime.renderedRow (by constructor <;> simp) l.isLt

/-- The lines rendered are the visible ones among the `n` from the first on, wrapping from 227 to 0 (R210). -/
theorem State.renderLines_pixels (n : Nat) (first : Fin 228) (s : State) (l : Fin 160) :
    (State.renderLines n first s).pixels[l.val] =
      if (l.val + 228 - first.val) % 228 < n then s.renderedRow l.val else s.pixels[l.val] := by
  induction n generalizing first s with
  | zero => rfl
  | succ n ih =>
    have hnext : (first + 1).val = (first.val + 1) % 228 := Fin.val_add _ _
    by_cases hl : first.val = l.val
    · have hin : (l.val + 228 - first.val) % 228 < n + 1 := by omega
      rw [State.renderLines, dif_pos (by omega), ih, if_pos hin, State.renderedRow_renderScanLine]
      simp [State.renderScanLine, hl]
    · have hiff : (l.val + 228 - (first + 1).val) % 228 < n ↔ (l.val + 228 - first.val) % 228 < n + 1 := by omega
      unfold State.renderLines
      split
      · rw [ih, State.renderedRow_renderScanLine]
        simp only [State.renderScanLine, Vector.getElem_set_ne _ _ hl, hiff]
      · rw [ih]
        simp only [hiff]

/-- How many lines a flush covers, by numbers (R210). -/
theorem State.flushCount_eq (s : State) (lap : Bool) : s.flushCount lap =
    if (s.currentScanline.val + 228 - s.lastRenderedLine.val) % 228 = 0 ∧ lap = true then 228
    else (s.currentScanline.val + 228 - s.lastRenderedLine.val) % 228 := by
  have helapsed : (s.currentScanline - s.lastRenderedLine).val =
      (s.currentScanline.val + 228 - s.lastRenderedLine.val) % 228 := by
    have hsub : (s.currentScanline - s.lastRenderedLine).val =
        (228 - s.lastRenderedLine.val + s.currentScanline.val) % 228 := rfl
    omega
  simp only [State.flushCount, helapsed]

/-- The picture after a flush: the rendered row where a line is among those the flush covers (R210). -/
theorem State.flushRenderQueue_pixels (s : State) (lap : Bool) (l : Fin 160) :
    (s.flushRenderQueue lap).pixels[l.val] =
      if (l.val + 227 - s.lastRenderedLine.val) % 228 < s.flushCount lap then s.renderedRow l.val
      else s.pixels[l.val] := by
  have hfirst : (s.lastRenderedLine + 1).val = (s.lastRenderedLine.val + 1) % 228 := Fin.val_add _ _
  have hdist : (l.val + 228 - (s.lastRenderedLine + 1).val) % 228 = (l.val + 227 - s.lastRenderedLine.val) % 228 := by
    omega
  rw [← hdist]
  exact State.renderLines_pixels _ _ s l

/-- Settles O52: the flush renders `flushCount` lines from the one after the last rendered on. -/
theorem flushRendersTheElapsedLines : Obligations.FlushRendersTheElapsedLines := by
  intro s lap line elapsed count
  refine ⟨State.flushRenderQueue_lastRenderedLine s lap, ?_⟩
  rw [State.flushRenderQueue_pixels, State.flushCount_eq]

/-! ### What rendering sees -/

/-- What rendering reads is the same: the palette cache, the mirrors of DISPCNT and BGnCNT, and VRAM (R200). -/
structure SameSources (s t : State) : Prop where
  paletteCache : t.paletteCache = s.paletteCache
  mDispcnt : t.mDispcnt = s.mDispcnt
  mBgcnt : t.mBgcnt = s.mBgcnt
  vram : ∀ k, 0x06000000 ≤ k → k < 0x06018000 → t.mem.read k = s.mem.read k

namespace SameSources

variable {s t : State} (h : SameSources s t)
include h

theorem vram8 {o : Nat} (ho : o < 0x1000000) : t.read8 (vramAddr o) = s.read8 (vramAddr o) := by
  have hd : decodeAddr (vramAddr o) = some (.vram, o % 0x18000) := by
    rw [decodeAddr_eq_some, vramAddr_toNat ho]
    dsimp only
    omega
  rw [State.read8_of_decode t hd (by decide), State.read8_of_decode s hd (by decide)]
  exact h.vram _ (by simp only [Region.base]; omega) (by simp only [Region.base]; omega)

theorem vram16 {o : Nat} (ho : o < 0x1000000) : t.read16 (vramAddr o) = s.read16 (vramAddr o) := by
  have hd : decodeAddr (align2 (vramAddr o)) = some (.vram, o / 2 * 2 % 0x18000) := by
    rw [decodeAddr_eq_some, align2_toNat, vramAddr_toNat ho]
    dsimp only
    omega
  rw [State.read16_of_decode t hd (by decide), State.read16_of_decode s hd (by decide)]
  simp only [State.regionByte, Region.base]
  rw [h.vram _ (by omega) (by omega), h.vram _ (by omega) (by omega)]

theorem colour (i : BitVec 8) : t.colour i = s.colour i := by
  simp only [State.colour, h.paletteCache]

theorem tilePixel {charBase tx ty : Nat} (tile : BitVec 10) (b : Bool) (hc : charBase < 0x10000) (hx : tx < 8)
    (hy : ty < 8) : t.tilePixel charBase tile.toNat b tx ty = s.tilePixel charBase tile.toNat b tx ty := by
  have := tile.isLt
  unfold State.tilePixel
  rw [h.vram8 (by omega), h.vram8 (by omega)]

theorem layerColour (n : Fin 4) {line x : Nat} (hl : line < 160) (hx : x < 240) :
    t.layerColour n line x = s.layerColour n line x := by
  have hchar := ((s.mBgcnt[n.val]).extractLsb' 2 2).isLt
  have hscreen := ((s.mBgcnt[n.val]).extractLsb' 8 5).isLt
  have hcnt : t.mBgcnt[n.val] = s.mBgcnt[n.val] := by simp only [h.mBgcnt]
  simp only [State.layerColour, hcnt, h.colour]
  rw [h.vram16 (by omega), h.tilePixel _ _ (by omega) (by split <;> omega) (by split <;> omega)]

theorem renderedRow {line : Nat} (hl : line < 160) : t.renderedRow line = s.renderedRow line := by
  have hback : t.backdropRow = s.backdropRow := by simp only [State.backdropRow, h.colour]
  have hpaint (n : Fin 4) (row : Row) : t.paintLayer n line row = s.paintLayer n line row := by
    unfold State.paintLayer
    congr 1
    funext x
    rw [h.layerColour n hl x.isLt]
  have hbitmap : t.mode3Row line = s.mode3Row line := by
    unfold State.mode3Row
    congr 1
    funext x
    rw [h.vram16 (by omega)]
  simp only [State.renderedRow, State.mode0Row, State.paintLayerIf, hback, hpaint, hbitmap, h.mDispcnt]

/-- A flush depends on what rendering sees, the picture and the two lines it lies between. -/
theorem flushRenderQueue_pixels (lap : Bool) (hp : t.pixels = s.pixels)
    (hl : t.lastRenderedLine = s.lastRenderedLine) (hc : t.currentScanline = s.currentScanline) :
    (t.flushRenderQueue lap).pixels = (s.flushRenderQueue lap).pixels := by
  apply Vector.ext
  intro l hl160
  have ht := t.flushRenderQueue_pixels lap ⟨l, hl160⟩
  rw [State.flushCount, h.renderedRow hl160, hp, hl, hc] at ht
  exact ht.trans (s.flushRenderQueue_pixels lap ⟨l, hl160⟩).symm

end SameSources

/-- An IO register stored is none of rendering's sources. -/
theorem setIo16_sameSources (s : State) {o : Nat} (v : Half) (ho : o < 0x400) :
    SameSources s (s.setIo16 o v) where
  paletteCache := rfl
  mDispcnt := rfl
  mBgcnt := rfl
  vram k hk _ := State.read_setIo16_other s v (by omega) (by omega)

/-! ## The writes the Ppu observes -/

/-- A byte depends on its cell, the parameters and the ROM image alone. -/
theorem State.read8_of_cells {s t : State} (hc : t.cfg = s.cfg) (hr : t.rom = s.rom) {a : Word}
    (h : ∀ k, cellOf a = some k → t.mem.read k = s.mem.read k) : t.read8 a = s.read8 a := by
  cases hk : cellOf a with
  | none => exact State.read8_of_no_cell hk hc hr
  | some k => rw [State.read8_of_cell t hk, State.read8_of_cell s hk, h k hk]

/-- STRH to one of the Ppu's registers completes: the store, the observer, the advance (R61, R166). -/
theorem exec_strh_ppu {c : Cond} {u : Bool} {rn rd : Reg} {immH immL : BitVec 4} {s : State} {o : Nat}
    (hc : CondHolds c s.cpsr)
    (hcell : cellOf (align2 (s.lshAddr u rn immH immL)) = some (0x04000000 + o)) (ho : o < 0x010) :
    exec (.strh c u rn rd immH immL) s = .next (s.ioStore o (lowHalf (s.reg rd))).advancePc := by
  have htrig : dmaTrigger o (lowHalf (s.reg rd)) = none := dmaTrigger_eq_none (by omega)
  simp only [exec_strh hc, write16, write16With, decode_of_io_cell hcell (by omega), ioWrite16With, htrig,
    thenAdvance_next]

/-- The advance leaves every byte alone. -/
theorem State.read8_advancePc (s : State) (a : Word) : s.advancePc.read8 a = s.read8 a :=
  State.read8_congr rfl rfl rfl a

/-- The advance leaves the IO registers alone. -/
theorem State.read16_io_advancePc (s : State) {o : Nat} (he : o % 2 = 0) (ho : o < 0x400) :
    s.advancePc.read16 (BitVec.ofNat 32 (0x04000000 + o)) = s.io16 o :=
  (State.read16_congr rfl rfl rfl _).trans (s.read16_io he ho)

/-- The advance after a Bus write keeps what no Bus write touches, but for the registers. -/
theorem SameOutsideBus.advancePc {s t : State} (h : SameOutsideBus s t) :
    SameOutsideBus { s with regs := t.advancePc.regs } t.advancePc where
  cfg := h.cfg
  regs := rfl
  cpsr := h.cpsr
  rom := h.rom
  currentScanline := h.currentScanline
  cyclesToNextHBlank := h.cyclesToNextHBlank

/-! ### DISPCNT and BGnCNT -/

/-- The mirror of DISPCNT or BGnCNT follows a write to its offset (R212). -/
def State.followMirror (s : State) (o : Nat) (v : Half) : State :=
  { s with
    mDispcnt := if o = 0x000 then v else s.mDispcnt
    mBgcnt := Vector.ofFn fun n : Fin 4 => if o = 0x008 + 2 * n.val then v else s.mBgcnt[n.val] }

theorem State.followMirror_dispcnt (s : State) (v : Half) : s.followMirror 0x000 v = { s with mDispcnt := v } := by
  have hkept : Vector.ofFn (fun n : Fin 4 => if 0x000 = 0x008 + 2 * n.val then v else s.mBgcnt[n.val]) =
      s.mBgcnt := by
    apply Vector.ext
    intro i hi
    rw [Vector.getElem_ofFn, if_neg (by omega)]
  rw [State.followMirror, hkept, if_pos rfl]

theorem State.followMirror_bgcnt (s : State) (n : Fin 4) (v : Half) :
    s.followMirror (0x008 + 2 * n.val) v = { s with mBgcnt := s.mBgcnt.set n.val v } := by
  have hset : Vector.ofFn (fun m : Fin 4 => if 0x008 + 2 * n.val = 0x008 + 2 * m.val then v else s.mBgcnt[m.val]) =
      s.mBgcnt.set n.val v := by
    apply Vector.ext
    intro i hi
    simp [Vector.getElem_set]
  rw [State.followMirror, hset, if_neg (by omega)]

/-- The observer of DISPCNT and BGnCNT flushes, and only then the register's own mirror follows (R211, R212). -/
theorem State.ppuOnIoWrite_display (s : State) {o : Nat} (v : Half)
    (ho : o = 0x000 ∨ o = 0x008 ∨ o = 0x00A ∨ o = 0x00C ∨ o = 0x00E) :
    s.ppuOnIoWrite o v = (s.flushRenderQueue false).followMirror o v := by
  have hbg (n : Fin 4) : { s.flushRenderQueue false with mBgcnt := s.mBgcnt.set n.val v } =
      (s.flushRenderQueue false).followMirror (0x008 + 2 * n.val) v := by
    rw [State.followMirror_bgcnt, State.flushRenderQueue_mBgcnt]
  rcases ho with rfl | rfl | rfl | rfl | rfl
  · rw [State.followMirror_dispcnt]
    rfl
  · exact hbg 0
  · exact hbg 1
  · exact hbg 2
  · exact hbg 3

/-- Settles O33: the flush is that of the state with the register stored, which rendering does not see. -/
theorem displayRegisterWritesFlushFirst : Obligations.DisplayRegisterWritesFlushFirst := by
  intro c u rn rd immH immL s o hc hcell ho
  have hexec := exec_strh_ppu (c := c) (u := u) (rd := rd) hc hcell (by omega)
  generalize lowHalf (s.reg rd) = v at hexec ⊢
  have hstore : s.ioStore o v = ((s.setIo16 o v).flushRenderQueue false).followMirror o v :=
    State.ppuOnIoWrite_display _ v ho
  have hbus := ioStore_sameOutsideBus s o v
  have hmem : (s.ioStore o v).mem = (s.setIo16 o v).mem := by
    rw [hstore]
    exact State.flushRenderQueue_mem _ false
  refine ⟨_, hexec, hbus.cpuAdvances, ?_, ?_, ?_, fun n => ?_, ?_, fun a hlow hhigh => ?_, hbus.advancePc, ?_, ?_, ?_⟩
  · rw [hstore]
    exact (setIo16_sameSources s v (by omega)).flushRenderQueue_pixels false rfl rfl rfl
  · rw [hstore]
    rfl
  · simp [hstore, State.followMirror]
  · simp [hstore, State.followMirror]
  · rw [← BitVec.ofNat_add, State.read16_io_advancePc _ (by omega) (by omega), State.io16_congr hmem,
      State.io16_setIo16_same]
  · rw [State.read8_advancePc]
    refine State.read8_of_cells hbus.cfg hbus.rom fun k hk => ?_
    rw [hk, ne_eq, Option.some.injEq] at hlow hhigh
    rw [hmem, State.read_setIo16_other s v hlow (by omega)]
  all_goals simp [hstore, State.followMirror]

/-! ### DISPSTAT and VCOUNT -/

/-- The observer of DISPSTAT and VCOUNT refreshes both (R213). -/
theorem State.ppuOnIoWrite_status (s : State) {o : Nat} (v : Half) (ho : o = 0x004 ∨ o = 0x006) :
    s.ppuOnIoWrite o v = s.refreshStatus := by
  rcases ho with rfl | rfl <;> rfl

/-- DISPSTAT after a write to one of the two status registers, before the refresh. -/
theorem State.setIo16_status_io4 (s : State) {o : Nat} (v : Half) (ho : o = 0x004 ∨ o = 0x006) :
    (s.setIo16 o v).io16 0x004 = if o = 0x004 then v else s.io16 0x004 := by
  rcases ho with rfl | rfl
  · rw [State.io16_setIo16_same, if_pos rfl]
  · rw [State.io16_setIo16_other s v (by decide) (by decide) (by decide), if_neg (by decide)]

/-- A write to one of the two status registers changes nothing but the two and their mirrors (R213). -/
theorem ioStore_status_sameOutsideTime (s : State) {o : Nat} (v : Half) (ho : o = 0x004 ∨ o = 0x006) :
    SameOutsideTime s (s.setIo16 o v).refreshStatus := by
  refine SameOutsideTime.trans ?_ (refreshStatus_sameOutsideTime _)
  constructor
  case mem => exact fun a ha => State.read_setIo16_other s v (by omega) (by omega)
  all_goals rfl

/-- Settles O34: the write is a store and a refresh, which keeps bits 15:3 of what is stored. -/
theorem statusRegisterWrites : Obligations.StatusRegisterWrites := by
  intro c u rn rd immH immL s o hc hcell ho
  have hexec := exec_strh_ppu (c := c) (u := u) (rd := rd) hc hcell (by omega)
  generalize lowHalf (s.reg rd) = v at hexec ⊢
  have hbus := ioStore_sameOutsideBus s o v
  have hsame := ioStore_status_sameOutsideTime s v ho
  rw [State.ioStore, State.ppuOnIoWrite_status _ v ho] at hexec hbus
  have h4 : (s.setIo16 o v).refreshStatus.advancePc.read16 0x04000004#32 = (s.setIo16 o v).dispstat :=
    (State.read16_io_advancePc _ (o := 0x004) (by decide) (by decide)).trans (State.refreshStatus_io4 _)
  have h6 : (s.setIo16 o v).refreshStatus.advancePc.read16 0x04000006#32 = s.vcount :=
    (State.read16_io_advancePc _ (o := 0x006) (by decide) (by decide)).trans (State.refreshStatus_io6 _)
  have hs4 : s.read16 0x04000004#32 = s.io16 0x004 := s.read16_io (o := 0x004) (by decide) (by decide)
  have hbit {k : Nat} (hk : k < 3) := getLsbD_of_low (s.setIo16 o v).dispstat_low hk
  obtain ⟨vblank, hblank, vmatch⟩ := (s.setIo16 o v).statusBits_getLsbD
  refine ⟨_, hexec, hbus.cpuAdvances, ?_⟩
  rw [h4, h6, hs4, State.dispstat_high, State.dispstat_match, ← State.setIo16_status_io4 s v ho]
  refine ⟨rfl, (hbit (by decide)).trans vblank, (hbit (by decide)).trans hblank, (hbit (by decide)).trans vmatch, rfl,
    ?_, ?_, fun a ha => (State.read8_advancePc _ a).trans (hsame.read8 ha), ?_, ?_, ?_, ?_, ?_, hbus.advancePc⟩
  all_goals simp [State.vcount]

/-! ## Time -/

/-- Settles O50: the frame of the clock, then how it moves time, then what it renders over the same `k` lines. -/
theorem advanceMovesTime : Obligations.AdvanceMovesTime := by
  intro s c t
  have hsame := advance_sameOutsideTime s c
  refine ⟨⟨fun r => State.reg_congr hsame.regs r, hsame.cpsr, hsame.cfg, hsame.rom, hsame.paletteCache, hsame.mDispcnt,
    hsame.mBgcnt, fun a ha => hsame.read8 ha⟩, fun hH _ hle => ?_⟩
  obtain ⟨k, hbudget, hline, _, _⟩ := advance_time s c hH
  obtain ⟨hpos, hmax⟩ := advance_budgetInRange s c hH hle
  exact ⟨k, hbudget, hpos, hmax, hline, advance_renders s c k hH hbudget⟩

/-- `advance(H_CYCLES)` ends one scanline and leaves the budget as it was (R206). -/
theorem advance_hCycles (s : State) (hH : 1 ≤ s.cfg.hCycles) (hpos : 1 ≤ s.cyclesToNextHBlank)
    (hle : s.cyclesToNextHBlank ≤ s.cfg.hCycles) :
    (s.advance s.cfg.hCycles).cyclesToNextHBlank = s.cyclesToNextHBlank ∧
    (s.advance s.cfg.hCycles).currentScanline.val = (s.currentScanline.val + 1) % 228 := by
  obtain ⟨k, hbudget, hline, hpos', _⟩ := advance_time s s.cfg.hCycles hH
  have hmax := (advance_budgetInRange s s.cfg.hCycles hH hle).2
  have hk : k = 1 := by
    have hlow : 0 < k := by
      by_contra h0
      obtain rfl : k = 0 := by omega
      push_cast at hbudget
      omega
    have hhigh : k < 2 := by
      by_contra h2
      have : (2 : Int) * s.cfg.hCycles ≤ k * s.cfg.hCycles :=
        mul_le_mul_of_nonneg_right (by omega) (by omega)
      omega
    omega
  subst hk
  exact ⟨by push_cast at hbudget; omega, hline⟩

/-- One call of `advance(H_CYCLES)` with the state's own parameter. -/
abbrev State.advanceLine (s : State) : State := s.advance s.cfg.hCycles

/-- `k` calls of `advance(H_CYCLES)` (R208). -/
theorem iterate_advanceLine (k : Nat) (s : State) (hH : 1 ≤ s.cfg.hCycles) (hpos : 1 ≤ s.cyclesToNextHBlank)
    (hle : s.cyclesToNextHBlank ≤ s.cfg.hCycles) :
    (Nat.iterate State.advanceLine k s).cfg = s.cfg ∧
    (Nat.iterate State.advanceLine k s).cyclesToNextHBlank = s.cyclesToNextHBlank ∧
    (Nat.iterate State.advanceLine k s).currentScanline.val = (s.currentScanline.val + k) % 228 := by
  induction k with
  | zero => exact ⟨rfl, rfl, (Nat.mod_eq_of_lt s.currentScanline.isLt).symm⟩
  | succ k ih =>
    obtain ⟨hcfg, hbudget, hline⟩ := ih
    rw [Function.iterate_succ_apply']
    generalize Nat.iterate State.advanceLine k s = u at hcfg hbudget hline
    obtain ⟨hbudget', hline'⟩ := advance_hCycles u (by rwa [hcfg]) (by rwa [hbudget]) (by rwa [hbudget, hcfg])
    refine ⟨(advance_sameOutsideTime u _).cfg.trans hcfg, hbudget'.trans hbudget, ?_⟩
    rw [hline', hline]
    omega

/-- Settles O51: each call ends one scanline, and the last one leaves the status registers true. -/
theorem scanlinesCycle : Obligations.ScanlinesCycle := by
  intro s k hH hpos hle hk t
  obtain ⟨_, hbudget, hline⟩ := iterate_advanceLine k s hH hpos hle
  obtain ⟨u, hu⟩ : ∃ u : State, t = u.advance u.cfg.hCycles := by
    obtain ⟨m, rfl⟩ := Nat.exists_eq_add_of_le' hk
    exact ⟨_, Function.iterate_succ_apply' State.advanceLine m s⟩
  obtain ⟨hlow, _, hcount, _⟩ := advance_synced u u.cfg.hCycles
  rw [← hu] at hlow hcount
  have h4 : t.read16 0x04000004#32 = t.io16 0x004 := t.read16_io (o := 0x004) (by decide) (by decide)
  have h6 : t.read16 0x04000006#32 = t.io16 0x006 := t.read16_io (o := 0x006) (by decide) (by decide)
  refine ⟨hline, hbudget, h6.trans hcount, ?_⟩
  rw [h4, getLsbD_of_low hlow (by decide), t.statusBits_getLsbD.1]
  have := t.currentScanline.isLt
  congr 1
  simp only [eq_iff_iff]
  omega

end Sys2Proof.Machine

/-! # Proofs: DMA (48_dma.md) -/

namespace Sys2Proof.Machine

/-! ## An IO register stored directly -/

/-- An IO register written without observers is stored as in a plain region (R8). -/
theorem storesBytes_setIo16 (s : State) {o : Nat} (v : Half) (ho : o + 1 < 0x400) :
    StoresBytes s (s.setIo16 o v) (0x04000000 + o) 2 (v.setWidth 32) := by
  have h := storesBytes_setByte_setByte s (k := 0x04000000 + o) (v.setWidth 32) (.inl (by omega))
  rwa [← byteOf_lowHalf_zero, ← byteOf_lowHalf_one, lowHalf_setWidth] at h

/-- Every byte outside the cells of a store is as it was. -/
theorem StoresBytes.kept_range {s t : State} {k n : Nat} {v a : Word} (h : StoresBytes s t k n v)
    (ha : ∀ x, CellRange k n x → cellOf a ≠ some x) : t.read8 a = s.read8 a :=
  h.kept a fun i hi => ha (k + i) ⟨by omega, by omega⟩

/-- A word of the IO block that holds none of the register's bytes is as it was. -/
theorem State.read32_setIo16_other (s : State) {o p : Nat} (v : Half) (hp : p % 4 = 0) (hlt : p < 0x400)
    (h : o + 1 < p ∨ p + 3 < o) :
    (s.setIo16 o v).read32 (BitVec.ofNat 32 (0x04000000 + p)) = s.read32 (BitVec.ofNat 32 (0x04000000 + p)) := by
  have hd : decodeAddr (align4 (BitVec.ofNat 32 (0x04000000 + p))) = some (.io, p) := by
    rw [decodeAddr_eq_some, align4_toNat, BitVec.toNat_ofNat]
    dsimp only
    omega
  have hbyte {i : Nat} (hi : i < 4) : (s.setIo16 o v).regionByte .io (p + i) = s.regionByte .io (p + i) :=
    s.read_setIo16_other v (by simp only [Region.base]; omega) (by simp only [Region.base]; omega)
  rw [State.read32_of_decode _ hd (by decide), State.read32_of_decode _ hd (by decide)]
  rw [hbyte (i := 1) (by decide), hbyte (i := 2) (by decide), hbyte (i := 3) (by decide)]
  exact congrArg (le32 · _ _ _) (hbyte (i := 0) (by decide))

/-- A halfword outside the IO block is as it was. -/
theorem State.read16_setIo16_outside (s : State) {o : Nat} (v : Half) (ho : o + 1 < 0x400) {a : Word}
    (ha : ∀ k, cellOf (align2 a) = some k → ¬ IsIoCell k) : (s.setIo16 o v).read16 a = s.read16 a := by
  refine State.read16_of_sameBytes (s := s) (t := s.setIo16 o v) rfl rfl fun i hi =>
    (storesBytes_setIo16 s v ho).kept_range fun k ⟨hlo, hhi⟩ hcell => ?_
  have halign : align2 (align2 a + BitVec.ofNat 32 i) = align2 a := by
    apply BitVec.eq_of_toNat_eq
    rw [align2_toNat, align2_add_toNat a hi, align2_toNat]
    omega
  have hhalf := cellOf_align2 hcell
  rw [halign] at hhalf
  exact ha _ hhalf ⟨by omega, by omega⟩

/-! ## The transfer that STRH starts -/

/-- A halfword with bit 15 set starts the channel at whose control register it is stored (R241). -/
theorem halfChannel_control {v : Half} (hv : v.getLsbD 15 = true) (n : Fin 4) :
    halfChannel (BitVec.ofNat 32 (0x040000BA + 12 * n.val), v) = some n := by
  rw [halfChannel_cases, if_pos hv]
  revert n
  decide

/-- The transfer finds the control word just stored, and the channel's other registers as they were (R61, R242). -/
theorem channelWrites_setIo16 (n : Fin 4) (v : Half) (s : State) :
    channelWrites n (s.setIo16 (0x0BA + 12 * n.val) v) =
      copyWrites (v.getLsbD 10)
        (if s.read16 (BitVec.ofNat 32 (0x040000B0 + 12 * n.val + 8)) = 0#16 then 16384
          else (s.read16 (BitVec.ofNat 32 (0x040000B0 + 12 * n.val + 8))).toNat)
        (s.read32 (BitVec.ofNat 32 (0x040000B0 + 12 * n.val)))
        (s.read32 (BitVec.ofNat 32 (0x040000B0 + 12 * n.val + 4))) := by
  have hn := n.isLt
  have e0 : 0x040000B0 + 12 * n.val = 0x04000000 + (0x0B0 + 12 * n.val) := by omega
  have e4 : 0x040000B0 + 12 * n.val + 4 = 0x04000000 + (0x0B4 + 12 * n.val) := by omega
  have e8 : 0x040000B0 + 12 * n.val + 8 = 0x04000000 + (0x0B8 + 12 * n.val) := by omega
  have e10 : 0x040000B0 + 12 * n.val + 10 = 0x04000000 + (0x0BA + 12 * n.val) := by omega
  simp only [channelWrites]
  rw [e4, e8, e10, e0, State.read16_io _ (by omega) (by omega), State.read16_io _ (by omega) (by omega),
    State.read16_io _ (by omega) (by omega), State.io16_setIo16_same,
    State.io16_setIo16_other _ _ (by omega) (by omega) (by omega),
    State.read32_setIo16_other _ _ (by omega) (by omega) (by omega),
    State.read32_setIo16_other _ _ (by omega) (by omega) (by omega)]

section Transfer

variable {c : Cond} {u : Bool} {rn rd : Reg} {immH immL : BitVec 4} {s : State} {n : Fin 4} {a : Word} {v : Half}

/-- A halfword write that sets the enable bit of a channel: the store, the writes of its transfer, the cleared bit
(R61, R241, R246). -/
theorem write16_startsTransfer (ha : align2 a = BitVec.ofNat 32 (0x040000BA + 12 * n.val))
    (hv : v.getLsbD 15 = true) : write16 a v s =
    andThen (runWrites BusWrite.performInside (channelWrites n (s.setIo16 (0x0BA + 12 * n.val) v))
        (s.setIo16 (0x0BA + 12 * n.val) v)) fun t =>
      .next (t.setIo16 (0x0BA + 12 * n.val) (t.io16 (0x0BA + 12 * n.val) &&& 0x7FFF#16)) := by
  have hn := n.isLt
  have hspec := write16With_spec runTransfer a v s
  have hoff : (BitVec.ofNat 32 (0x040000BA + 12 * n.val)).toNat % 0x1000000 = 0x0BA + 12 * n.val := by
    rw [BitVec.toNat_ofNat]
    omega
  rw [ha, halfChannel_control hv, hoff] at hspec
  rw [write16, hspec, runTransfer_eq]
  simp only [State.dmaClearEnable, dmaControl_eq]

/-- STRH that sets the enable bit of a channel: the transfer with the parameters its registers hold, then the
advance (R241, R242, R244, R246). -/
theorem exec_strh_startsTransfer (hc : CondHolds c s.cpsr)
    (ha : align2 (s.lshAddr u rn immH immL) = BitVec.ofNat 32 (0x040000BA + 12 * n.val))
    (hv : (s.reg rd).getLsbD 15 = true) : exec (.strh c u rn rd immH immL) s =
    andThen (runWrites BusWrite.performInside
        (copyWrites ((s.reg rd).getLsbD 10)
          (if s.read16 (BitVec.ofNat 32 (0x040000B0 + 12 * n.val + 8)) = 0#16 then 16384
            else (s.read16 (BitVec.ofNat 32 (0x040000B0 + 12 * n.val + 8))).toNat)
          (s.read32 (BitVec.ofNat 32 (0x040000B0 + 12 * n.val)))
          (s.read32 (BitVec.ofNat 32 (0x040000B0 + 12 * n.val + 4))))
        (s.setIo16 (0x0BA + 12 * n.val) (lowHalf (s.reg rd)))) fun t =>
      .next (t.setIo16 (0x0BA + 12 * n.val) (t.io16 (0x0BA + 12 * n.val) &&& 0x7FFF#16)).advancePc := by
  have hbit {i : Nat} (hi : i < 16) : (lowHalf (s.reg rd)).getLsbD i = (s.reg rd).getLsbD i := by
    simp [lowHalf, hi]
  rw [exec_strh hc, write16_startsTransfer ha ((hbit (by decide)).trans hv), channelWrites_setIo16,
    hbit (by decide), thenAdvance, andThen_assoc]
  rfl

end Transfer

/-! ## A transfer into RAM -/

theorem ApartFrom.mono {first : Word} {n : Nat} {cells fewer : Nat → Prop} (h : ApartFrom first n cells)
    (hf : ∀ k, fewer k → cells k) : ApartFrom first n fewer :=
  fun i k hi hk hfew => h i k hi hk (hf k hfew)

/-- The cells of a range in RAM lie outside the IO block. -/
theorem RamRange.not_isIoCell {first : Word} {n x : Nat} (h : RamRange first n) (hx : CellRange first.toNat n x) :
    ¬ IsIoCell x := by
  obtain ⟨i, rfl⟩ := Nat.exists_eq_add_of_le hx.1
  exact (h.cellOf_add (Nat.lt_of_add_lt_add_left hx.2)).2

/-- A range in RAM is apart from cells of the IO block. -/
theorem RamRange.apartFrom {first : Word} {n : Nat} (h : RamRange first n) {cells : Nat → Prop}
    (hio : ∀ k, cells k → IsIoCell k) : ApartFrom first n cells := fun i k hi hk hcells => by
  obtain ⟨hcell, hout⟩ := h.cellOf_add hi
  rw [hk, Option.some.injEq] at hcell
  exact hout (hcell ▸ hio k hcells)

/-- A unit apart from all cells in which two machines differ reads the same in both. -/
theorem State.readUnit_of_apart {s t : State} {wide : Bool} {cells : Nat → Prop} {p : Word} {m j : Nat}
    (hc : t.cfg = s.cfg) (hr : t.rom = s.rom)
    (hkept : ∀ a, (∀ x, cells x → cellOf a ≠ some x) → t.read8 a = s.read8 a)
    (hapart : ApartFrom (unitAddr wide p 0) (m * unitBytes wide) cells) (hj : j < m) :
    t.readUnit wide (unitAddr wide p j) = s.readUnit wide (unitAddr wide p j) := by
  rw [State.readUnit_unitAddr, State.readUnit_unitAddr]
  refine State.readUnit_of_sameBytes hc hr fun i hi => hkept _ fun x hx hcell => ?_
  rw [unitAddr_add_units, unitAddr_add_byte] at hcell
  refine hapart _ x ?_ hcell hx
  rw [Nat.mul_comm m]
  exact unit_byte_lt hj hi

/-- A cell of storage outside the units stored is as it was. -/
theorem StoresUnits.read_kept {s t : State} {k n m x : Nat} {f : Nat → Word} (h : StoresUnits s t k n m f)
    (hs : isStorage x = true) (hx : ¬ CellRange k (n * m) x) : t.mem.read x = s.mem.read x := by
  have hc := cellOf_of_isStorage hs
  rw [← State.read8_of_cell t hc, ← State.read8_of_cell s hc]
  refine h.kept _ fun y hy e => hx ?_
  rw [hc, Option.some.injEq] at e
  exact e ▸ hy

/-- An IO register is as it was after units stored outside the IO block. -/
theorem StoresUnits.io16_kept {s t : State} {k n m o : Nat} {f : Nat → Word} (h : StoresUnits s t k n m f)
    (hout : ∀ x, CellRange k (n * m) x → ¬ IsIoCell x) (ho : o + 1 < 0x400) : t.io16 o = s.io16 o := by
  have hread {x : Nat} (hx : IsIoCell x) : t.mem.read x = s.mem.read x :=
    h.read_kept (by simp [isStorage, hx.1, hx.2]) fun hr => hout x hr hx
  rw [State.io16, State.io16, hread ⟨by omega, by omega⟩, hread ⟨by omega, by omega⟩]

/-- Stores before and after, which touch no palette entry, add nothing to what the machine shows of the bytes stored
in between. -/
theorem SameMachine.between {s s' t t' : State} {first n k m : Nat} {v w : Word} (h : SameMachine s' t first n)
    (hs : StoresBytes s s' k m v) (ht : StoresBytes t t' k m w) (hk : ∀ j : Fin 512, ¬ TouchesEntry k m j.val) :
    SameMachine s t' first n where
  cfg := ht.cfg.trans (h.cfg.trans hs.cfg)
  rom := ht.rom.trans (h.rom.trans hs.rom)
  palette j := by
    rw [ht.palette j, if_neg (hk j), h.palette j, hs.palette j, if_neg (hk j), ht.pal16_kept j (hk j)]
  ppu := (hs.ppu.trans h.ppu).trans ht.ppu

theorem setIo16_sameOutsideBus (s : State) (o : Nat) (v : Half) : SameOutsideBus s (s.setIo16 o v) := by
  constructor <;> rfl

/-- A transfer's copy to RAM from elsewhere completes, stores its units, and touches nothing that no Bus write does
(R244, R249). -/
theorem copyInside_storesUnits {wide : Bool} {m : Nat} {src dst : Word} {s : State}
    (hram : RamRange (unitAddr wide dst 0) (m * unitBytes wide))
    (hapart : ApartFrom (unitAddr wide src 0) (m * unitBytes wide)
      (CellRange (unitAddr wide dst 0).toNat (m * unitBytes wide))) :
    ∃ t, runWrites BusWrite.performInside (copyWrites wide m src dst) s = .next t ∧
      StoresUnits s t (unitAddr wide dst 0).toNat (unitBytes wide) m
        (fun j => s.readUnit wide (unitAddr wide src j)) ∧ SameOutsideBus s t := by
  obtain ⟨t, ht, hunits⟩ := copyWrites_storesUnits (onTrigger := nestedTrigger) (s := s) (.inr hram) hapart
  refine ⟨t, by rw [performInside_funext, ht], hunits, ?_⟩
  rw [← copyUnitsWith_eq] at ht
  exact copyUnitsWith_keeps (keptByStores_sameOutsideBus s) (nestedTrigger_keeps _) (.refl s) ht

/-- Settles O37: the write is the transfer's writes between the store of the control word and the cleared bit, and
those into RAM store the units that stood at the source. -/
theorem dmaTransferCopies : Obligations.DmaTransferCopies := by
  intro c u rn rd immH immL s n hc ha hv window src dst cnt wide count bytes target started
  have hexec := exec_strh_startsTransfer hc ha hv
  refine ⟨hexec, fun hram hapart => ?_⟩
  have hctl : window + 10 = 0x04000000 + (0x0BA + 12 * n.val) := by
    simp only [window]
    omega
  have ho : 0x0BA + 12 * n.val + 1 < 0x400 := by omega
  have hio : ∀ k, CellRange (0x04000000 + (0x0BA + 12 * n.val)) 2 k → IsIoCell k :=
    fun k hk => ⟨by have := hk.1; omega, by have := hk.2; omega⟩
  rw [hctl] at hapart ⊢
  obtain ⟨t, ht, hunits, hbus⟩ := copyInside_storesUnits (s := started) hram (hapart.mono fun _ => .inl)
  rw [ht, andThen_next] at hexec
  have hbytes : unitBytes wide * count = bytes := Nat.mul_comm _ _
  have hstart := storesBytes_setIo16 s (lowHalf (s.reg rd)) ho
  have hend := (storesBytes_setIo16 t (t.io16 (0x0BA + 12 * n.val) &&& 0x7FFF#16) ho).advancePc
  have hcpu := ((setIo16_sameOutsideBus s _ _).trans hbus).trans
    (setIo16_sameOutsideBus t (0x0BA + 12 * n.val) (t.io16 (0x0BA + 12 * n.val) &&& 0x7FFF#16))
  have hmachine := hunits.machine.between hstart hend fun j => by omega
  rw [hbytes] at hmachine
  refine ⟨_, hexec, hcpu.cpuAdvances, hmachine, fun k hk => ?_, ?_, fun a ha => ?_⟩
  · calc
      _ = t.readUnit wide (unitAddr wide dst k) :=
        State.readUnit_of_apart hend.cfg hend.rom (fun a => hend.kept_range) (hram.apartFrom hio) hk
      _ = started.readUnit wide (unitAddr wide src k) := hunits.readUnit_ram (.inr hram) hk
      _ = s.readUnit wide (unitAddr wide src k) :=
        State.readUnit_of_apart hstart.cfg hstart.rom (fun a => hstart.kept_range) (hapart.mono fun _ => .inr) hk
  · rw [State.read16_io_advancePc _ (by omega) (by omega), State.io16_setIo16_same,
      hunits.io16_kept (fun x hx => hram.not_isIoCell (hbytes ▸ hx)) ho, State.io16_setIo16_same]
  · rw [hend.kept_range fun x hx => ha x (.inr hx), hunits.kept a fun x hx => ha x (.inl (hbytes ▸ hx)),
      hstart.kept_range fun x hx => ha x (.inr hx)]

/-! ## A transfer that would start a transfer -/

/-- The copy of one halfword is one write, of the halfword as it stands when the write is made (R244). -/
theorem copyWrites_one_half (src dst : Word) :
    copyWrites false 1 src dst = [fun s => .half dst (s.read16 src)] := by
  simp [copyWrites, unitWrite, State.readUnit, List.range_succ]

/-- Settles O38: the one unit is the halfword that stood at the source, and it starts channel `m`. -/
theorem nestedTransferIsRefused : Obligations.NestedTransferIsRefused := by
  intro c u rn rd immH immL s n m hc ha hv hwide window hcount hdst hbit hsrc
  have hunit := s.read16_setIo16_outside (o := 0x0BA + 12 * n.val) (lowHalf (s.reg rd)) (by omega) hsrc
  have halign : align2 (BitVec.ofNat 32 (0x040000BA + 12 * m.val)) = BitVec.ofNat 32 (0x040000BA + 12 * m.val) := by
    apply BitVec.eq_of_toNat_eq
    rw [align2_toNat, BitVec.toNat_ofNat]
    omega
  have hone : (if 1#16 = 0#16 then 16384 else (1#16).toNat) = 1 := rfl
  rw [exec_strh_startsTransfer hc ha hv, hwide, hcount, hdst, hone, copyWrites_one_half]
  have hchannel : BusWrite.channel (.half (BitVec.ofNat 32 (0x040000BA + 12 * m.val))
      ((s.setIo16 (0x0BA + 12 * n.val) (lowHalf (s.reg rd))).read16 (s.read32 (BitVec.ofNat 32 window))))
      (s.setIo16 (0x0BA + 12 * n.val) (lowHalf (s.reg rd))) = some m := by
    rw [BusWrite.channel_half, halign, hunit, halfChannel_control hbit]
  have hwrite := BusWrite.performInside_eq_refused.2 ⟨m, hchannel, rfl⟩
  exact andThen_eq_refused.2 (.inl (andThen_eq_refused.2 (.inl hwrite)))

end Sys2Proof.Machine

/-! # Proofs: exceptions (60_exceptions.md) -/

namespace Sys2Proof.Machine

/-- The conditions without a meaning are the unassigned ones (R97, U1). -/
theorem unassigned_of_condPassed {c : Cond} {cpsr : Word} (h : condPassed c cpsr = none) : CondUnassigned c := by
  cases c
  case al | eq | ne | mi | pl => cases h
  all_goals simp [CondUnassigned]

/-- Bus writes are refused for a transfer inside a transfer, and for nothing else (R248, U3). -/
theorem runWrites_perform_refused {l : List (State → BusWrite)} {s : State} {e : Refusal}
    (h : runWrites BusWrite.perform l s = .refused e) : IsNested e := by
  obtain ⟨_, _, _, _, _, _, hout⟩ := runWrites_eq_refused.1 h
  obtain ⟨_, _, hin⟩ := BusWrite.perform_eq_refused.1 hout
  obtain ⟨_, _, _, _, _, _, hwrite⟩ := runWrites_eq_refused.1 hin
  obtain ⟨n, _, he⟩ := BusWrite.performInside_eq_refused.1 hwrite
  exact ⟨n, he⟩

/-- Settles O10: there is no fault, and a refusal is of the condition, of the STM, or of a Bus write, where it is
nested. -/
theorem onlyThreeRefusals : Obligations.OnlyThreeRefusals := by
  intro i s
  refine ⟨?_, fun n hc hn => exec_of_writes_refused hc ((startsInside_iff i s n).1 hn)⟩
  cases h : exec i s with
  | next t => exact .inl ⟨t, rfl⟩
  | fault f => cases f
  | refused e =>
    refine .inr ?_
    obtain ⟨hc, rfl⟩ | ⟨hstm, rfl⟩ | ⟨hw, hruns⟩ := exec_refused h
    · exact .inl ⟨unassigned_of_condPassed hc, rfl⟩
    · exact .inr (.inl ⟨hstm, rfl⟩)
    · obtain ⟨n, rfl⟩ := runWrites_perform_refused hruns
      exact .inr (.inr ⟨hw, n, (startsInside_iff i s n).2 hruns, rfl⟩)

end Sys2Proof.Machine

/-! # Proofs: reset and the host (70_reset_and_hazards.md) -/

namespace Sys2Proof.Machine

/-- Settles O58: `loadRom` writes the four fields it writes, and the registers are the reset values with the entry
behind them. -/
theorem loadRomResetsTheCpu : Obligations.LoadRomResetsTheCpu := by
  intro s
  refine ⟨rfl, fun bytes hne => ⟨_, if_neg hne, rfl, fun i => ?_, ?_, rfl, rfl, rfl, rfl, rfl, rfl, rfl, rfl, rfl,
    rfl, rfl, rfl⟩⟩
  · exact Vector.getElem_push_lt i.isLt
  · exact Vector.getElem_push_eq

/-- Settles O59: the value is stored in the register directly, and no observer runs. -/
theorem keysReachTheRegister : Obligations.KeysReachTheRegister := by
  intro s keys
  refine ⟨?_, fun a h0 h1 => ?_, by constructor <;> rfl, by constructor <;> rfl, rfl⟩
  · exact (State.read16_io _ (o := 0x130) (by decide) (by decide)).trans (s.io16_setIo16_same 0x130 keys)
  · refine (storesBytes_setIo16 s keys (by decide)).kept_range fun k hk => ?_
    obtain rfl | rfl : k = 0x04000130 ∨ k = 0x04000131 := by
      unfold CellRange at hk
      omega
    · exact h0
    · exact h1

/-! ## A tick -/

/-- `c` cycles have passed on the Ppu's clock: so many scanlines have ended as keep the budget in its range
(R206). -/
structure ClockPasses (s t : State) (c : Nat) : Prop where
  cfg : t.cfg = s.cfg
  pos : 1 ≤ t.cyclesToNextHBlank
  le : t.cyclesToNextHBlank ≤ s.cfg.hCycles
  time : ∃ k : Nat, t.cyclesToNextHBlank = s.cyclesToNextHBlank - c + k * s.cfg.hCycles ∧
    t.currentScanline.val = (s.currentScanline.val + k) % 228

theorem ClockPasses.zero {s : State} (hpos : 1 ≤ s.cyclesToNextHBlank)
    (hle : s.cyclesToNextHBlank ≤ s.cfg.hCycles) :
    ClockPasses s s 0 :=
  ⟨rfl, hpos, hle, 0, by simp, (Nat.mod_eq_of_lt s.currentScanline.isLt).symm⟩

theorem ClockPasses.trans {s t u : State} {c d : Nat} (h1 : ClockPasses s t c) (h2 : ClockPasses t u d) :
    ClockPasses s u (c + d) := by
  obtain ⟨k, hk, hline⟩ := h1.time
  obtain ⟨l, hl, hline'⟩ := h2.time
  refine ⟨h2.cfg.trans h1.cfg, h2.pos, h1.cfg ▸ h2.le, k + l, ?_, ?_⟩
  · rw [hl, hk, h1.cfg]
    push_cast
    ring
  · rw [hline', hline]
    omega

/-- The cycles of a whole frame bring the clock back to where it was (R206, D29). -/
theorem ClockPasses.frame {s t : State} (h : ClockPasses s t (228 * s.cfg.hCycles)) (hpos : 1 ≤ s.cyclesToNextHBlank)
    (hle : s.cyclesToNextHBlank ≤ s.cfg.hCycles) :
    t.currentScanline = s.currentScanline ∧ t.cyclesToNextHBlank = s.cyclesToNextHBlank := by
  obtain ⟨k, hbudget, hline⟩ := h.time
  have hpos' := h.pos
  have hle' := h.le
  have hlines : t.cyclesToNextHBlank - s.cyclesToNextHBlank = s.cfg.hCycles * ((k : Int) - 228) := by
    rw [hbudget]
    push_cast
    ring
  have hsame : t.cyclesToNextHBlank - s.cyclesToNextHBlank = 0 :=
    Int.eq_zero_of_abs_lt_dvd ⟨_, hlines⟩ (by rw [abs_lt]; omega)
  obtain rfl : k = 228 := by
    rcases mul_eq_zero.1 (hlines.symm.trans hsame) with h0 | h0 <;> omega
  refine ⟨Fin.ext ?_, by omega⟩
  rw [hline]
  have := s.currentScanline.isLt
  omega

/-- No step changes the parameters (R4). -/
theorem step_cfg {s t : State} (h : step s = .next t) : t.cfg = s.cfg := by
  obtain ⟨u, hu, rfl⟩ := step_eq_next.1 h
  exact (advance_sameOutsideTime u _).cfg.trans (exec_sameSetup hu).cfg

/-- A step passes the cycles of its word: the instruction leaves the clock alone (R6, R206, R249). -/
theorem step_clockPasses {s t : State} (hH : 1 ≤ s.cfg.hCycles) (hle : s.cyclesToNextHBlank ≤ s.cfg.hCycles)
    (h : step s = .next t) : ClockPasses s t (cyclesOf s.cfg s.fetch) := by
  have hcfg := step_cfg h
  obtain ⟨u, hu, rfl⟩ := step_eq_next.1 h
  have hset := exec_sameSetup hu
  rw [← hset.cfg] at hH
  obtain ⟨k, hbudget, hline, _⟩ := advance_time u (cyclesOf s.cfg s.fetch) hH
  obtain ⟨hpos, hmax⟩ := advance_budgetInRange u (cyclesOf s.cfg s.fetch) hH
    (by rwa [hset.cfg, hset.cyclesToNextHBlank])
  rw [hset.cfg] at hmax
  rw [hset.cfg, hset.cyclesToNextHBlank] at hbudget
  rw [hset.currentScanline] at hline
  exact ⟨hcfg, hpos, hmax, k, hbudget, hline⟩

/-- Every word consumes one cycle. -/
def OneCycleAWord (c : Config) : Prop := ∀ w, cyclesOf c w = 1

/-- Where every word takes one cycle, a tick with `n` cycles left of its budget is a run of `n` steps (R303). -/
theorem tickFrom_eq_run (n spent : Nat) {s : State} (hone : OneCycleAWord s.cfg) (h : spent + n = s.cfg.frameCycles) :
    tickFrom n spent s = Host.Core.run core n s := by
  induction n generalizing spent s with
  | zero => rfl
  | succ n ih =>
    rw [tickFrom, if_pos (by omega), run_succ, hone s.fetch]
    cases hs : step s with
    | next t =>
      have hcfg := step_cfg hs
      exact ih (spent + 1) (by rwa [hcfg]) (by rw [hcfg]; omega)
    | fault f => rfl
    | refused e => rfl

/-- Where every word takes one cycle, a run passes as many cycles as it has steps (R6, R303). -/
theorem run_clockPasses (n : Nat) {s t : State} (hone : OneCycleAWord s.cfg) (hH : 1 ≤ s.cfg.hCycles)
    (hpos : 1 ≤ s.cyclesToNextHBlank) (hle : s.cyclesToNextHBlank ≤ s.cfg.hCycles)
    (h : Host.Core.run core n s = .next t) : ClockPasses s t n := by
  induction n generalizing s with
  | zero =>
    obtain rfl : s = t := Host.Outcome.next.inj h
    exact .zero hpos hle
  | succ n ih =>
    rw [run_succ] at h
    obtain ⟨u, hu, hrest⟩ := andThen_eq_next.1 h
    have hstep := step_clockPasses hH hle hu
    have hcfg := hstep.cfg
    rw [hone s.fetch] at hstep
    rw [Nat.add_comm]
    exact hstep.trans (ih (by rwa [hcfg]) (by rwa [hcfg]) hstep.pos (by rw [hcfg]; exact hstep.le) hrest)

/-- Settles O60: a tick is a run, a run passes a cycle a step, and a frame of cycles brings the clock back. -/
theorem oneTickIsOneFrame : Obligations.OneTickIsOneFrame := by
  intro s hlisted helse hH hframe hpos hle
  have hone : OneCycleAWord s.cfg := fun w => by simp [cyclesOf, hlisted, helse]
  have htick : tick s = Host.Core.run core (228 * s.cfg.hCycles) s := by
    rw [tick, tickFrom_eq_run _ 0 hone (by omega), hframe]
  refine ⟨htick, fun t ht => ?_⟩
  rw [htick] at ht
  exact (run_clockPasses _ hone hH hpos hle ht).frame hpos hle

end Sys2Proof.Machine
